-- ==== Sys2Proof/Word.lean ====
section
/-! DEFINITION. The word types of the block: a byte of a buffer memory, the host's command word and the response
port's value. -/

namespace Sys2Proof

/-- One element of a buffer memory: an unsigned 8-bit value (00_scope.md R6 `SAMPLE_W`, R9). -/
abbrev Byte := BitVec 8

/-- One host command: `op[47:40] a[39:32] imm[31:0]` (30_encoding.md R90). -/
abbrev CommandWord := BitVec 48

/-- The value that RREG and RBITS return on the response port (30_encoding.md R93). -/
abbrev Response := BitVec 64

end Sys2Proof
end

