-- ==== Sys2Proof/Machine/Bits.lean ====
section
/-! DEFINITION. Bit strings, byte order and the two wraps: the helpers that the encoding and the machine share. -/

namespace Sys2Proof

/-- The low `n` bits of `v`, most significant first (00_scope.md R10; 40_bitstream.md R132). -/
def toBits : Nat → Nat → List Bool
  | 0, _ => []
  | n + 1, v => v.testBit n :: toBits n v

/-- The unsigned integer of a bit string after the bits read so far, first bit most significant
(40_bitstream.md R137). -/
def ofBitsFrom (acc : Nat) : List Bool → Nat
  | [] => acc
  | b :: bs => ofBitsFrom (2 * acc + b.toNat) bs

/-- The unsigned integer of a bit string, first bit most significant. -/
def ofBits (bs : List Bool) : Nat := ofBitsFrom 0 bs

/-- Take an `n`-bit field off the front of a bit string; `none` where fewer bits are left. -/
def takeField : Nat → Nat → List Bool → Option (Nat × List Bool)
  | 0, acc, bs => some (acc, bs)
  | _ + 1, _, [] => none
  | n + 1, acc, b :: bs => takeField n (2 * acc + b.toNat) bs

/-- Take `count` fields of `k` bits each (30_encoding.md R99, order 3). -/
def takeFields (k : Nat) : Nat → List Bool → Option (List (BitVec k) × List Bool)
  | 0, bs => some ([], bs)
  | count + 1, bs =>
    match takeField k 0 bs with
    | none => none
    | some (v, rest) =>
      match takeFields k count rest with
      | none => none
      | some (vs, rest') => some (BitVec.ofNat k v :: vs, rest')

/-- The bits of a list of `k`-bit value fields, in order. -/
def fieldBits {k : Nat} : List (BitVec k) → List Bool
  | [] => []
  | v :: vs => toBits k v.toNat ++ fieldBits vs

/-- The bytes that a bit string fills, zero bits after its end (00_scope.md R11; 30_encoding.md R97). The first
argument is how many bytes to make. -/
def packBytes : Nat → List Bool → List Byte
  | 0, _ => []
  | n + 1, bs => BitVec.ofNat 8 (ofBits ((bs ++ List.replicate 8 false).take 8)) :: packBytes n (bs.drop 8)

/-- `be32(w)`: the four bytes of a 32-bit value, most significant first (00_scope.md R14). -/
def be32 (w : BitVec 32) : List Byte :=
  [w.extractLsb' 24 8, w.extractLsb' 16 8, w.extractLsb' 8 8, w.extractLsb' 0 8]

/-- `wrap_s8(x)`, in `-128 .. 127` (00_scope.md R12). -/
def wrapS8 (x : Int) : Int := (x + 128) % 256 - 128

/-- `wrap_u8(x) = x mod 256`, as the byte it is (00_scope.md R12). -/
def wrapU8 (x : Int) : Byte := BitVec.ofNat 8 (x % 256).toNat

end Sys2Proof
end

