-- ==== Sys2Proof/Syntax.lean ====
section
/-! DEFINITION. The instructions: the twelve host commands and the ten stream elements of `spec/opcode_table.json`,
one constructor a row. -/

namespace Sys2Proof

/-- One row of `spec/opcode_table.json` with its operands.

The first twelve are the host commands (30_encoding.md R91). Register operands stay raw 8-bit addresses and bit counts
raw 8-bit numbers: the encoding admits every value, and an unimplemented address or a count above 32 is `BadOperand`
(R92), not an illegal encoding.

The last ten are the elements of a chunk that DEC interprets (43_decode.md section 3). A RUN token carries its value
fields; its count is how many it carries (R99). RUN.W0 has no value bits and carries the count alone. -/
inductive Instr where
  | reset
  | wreg (reg : BitVec 8) (imm : BitVec 32)
  | rreg (reg : BitVec 8)
  | winit
  | wbits (n : BitVec 8) (imm : BitVec 32)
  | wflush
  | rinit
  | rbits (n : BitVec 8)
  | deint
  | int
  | enc
  | dec
  | hdr (skipm1 : BitVec 2) (stripm1 : BitVec 16)
  | runW0 (count : BitVec 7)
  | runW2 (values : List (BitVec 2))
  | runW3 (values : List (BitVec 3))
  | runW4 (values : List (BitVec 4))
  | runW5 (values : List (BitVec 5))
  | runW6 (values : List (BitVec 6))
  | runW7 (values : List (BitVec 7))
  | runW8 (values : List (BitVec 8))
  | endMark
deriving DecidableEq, Repr

end Sys2Proof
end

