-- ==== Sys2Proof/WellFormed.lean ====
section
/-! DEFINITION. Which terms of `Instr` stand for an encoding. -/

namespace Sys2Proof

/-- A token's count is `1 .. 127`: the value 0 is the END sentinel, and the field has 7 bits (30_encoding.md R99,
R108). -/
def countOk (n : Nat) : Bool := decide (1 ≤ n) && decide (n ≤ 127)

/-- `wellFormed i`: `i` is what some encoding stands for. Every command is (30_encoding.md R92: an out-of-range value in
a used field is not an illegal encoding), and so is every header (R98); a RUN token needs a count of `1 .. 127` (R99). -/
def wellFormed (i : Instr) : Bool :=
  match i with
  | .reset => true
  | .wreg _ _ => true
  | .rreg _ => true
  | .winit => true
  | .wbits _ _ => true
  | .wflush => true
  | .rinit => true
  | .rbits _ => true
  | .deint => true
  | .int => true
  | .enc => true
  | .dec => true
  | .hdr _ _ => true
  | .runW0 count => countOk count.toNat
  | .runW2 values => countOk values.length
  | .runW3 values => countOk values.length
  | .runW4 values => countOk values.length
  | .runW5 values => countOk values.length
  | .runW6 values => countOk values.length
  | .runW7 values => countOk values.length
  | .runW8 values => countOk values.length
  | .endMark => true

end Sys2Proof
end

