-- ==== Sys2Proof/Decode.lean ====
section
/-! DEFINITION. Decoding of the block's two encodings (30_encoding.md): the 48-bit command word and the bits of a chunk;
and after it the encoder of the same instructions. -/

namespace Sys2Proof

/-- Why bits are no instruction. -/
inductive DecodeError where
  /-- `op` is none of the twelve codes of 30_encoding.md R91; the machine raises `IllegalCommand` (R92). -/
  | illegalOp (op : BitVec 8)
  /-- a field that the command's format requires to be 0 is not; the machine raises `IllegalCommand` (R92). -/
  | nonZeroField (op : BitVec 8)
  /-- the bit string ends inside the element; the machine never meets it, since a stream is read on with zeros (00 R11). -/
  | tooShort
  /-- bits are left over after one stream element; the machine never meets it. -/
  | trailingBits
deriving DecidableEq, Repr

/-- A stream element: what DEC meets in a chunk (43_decode.md section 3). -/
inductive StreamElement where
  | hdr (skipm1 : BitVec 2) (stripm1 : BitVec 16)
  | runW0 (count : BitVec 7)
  | runW2 (values : List (BitVec 2))
  | runW3 (values : List (BitVec 3))
  | runW4 (values : List (BitVec 4))
  | runW5 (values : List (BitVec 5))
  | runW6 (values : List (BitVec 6))
  | runW7 (values : List (BitVec 7))
  | runW8 (values : List (BitVec 8))
  | endMark
deriving DecidableEq, Repr

/-- The instruction that a stream element is. -/
def StreamElement.toInstr (el : StreamElement) : Instr :=
  match el with
  | .hdr skipm1 stripm1 => .hdr skipm1 stripm1
  | .runW0 count => .runW0 count
  | .runW2 values => .runW2 values
  | .runW3 values => .runW3 values
  | .runW4 values => .runW4 values
  | .runW5 values => .runW5 values
  | .runW6 values => .runW6 values
  | .runW7 values => .runW7 values
  | .runW8 values => .runW8 values
  | .endMark => .endMark

/-! ## The command word -/

/-- Format Z: `a` and `imm` must be 0 (30_encoding.md R90). -/
def formatZ (op a : BitVec 8) (imm : BitVec 32) (i : Instr) : Except DecodeError Instr :=
  if a = 0 ∧ imm = 0 then .ok i else .error (.nonZeroField op)

/-- Formats R and N: `imm` must be 0 (30_encoding.md R90). -/
def formatR (op : BitVec 8) (imm : BitVec 32) (i : Instr) : Except DecodeError Instr :=
  if imm = 0 then .ok i else .error (.nonZeroField op)

/-- The three fields of a command word (30_encoding.md R90). -/
def commandOp (w : CommandWord) : BitVec 8 := w.extractLsb' 40 8

/-- Field `a` of a command word (30_encoding.md R90). -/
def commandA (w : CommandWord) : BitVec 8 := w.extractLsb' 32 8

/-- Field `imm` of a command word (30_encoding.md R90). -/
def commandImm (w : CommandWord) : BitVec 32 := w.extractLsb' 0 32

/-- The command that the three fields name (30_encoding.md R91, R92). -/
def decodeFields (op a : BitVec 8) (imm : BitVec 32) : Except DecodeError Instr :=
  if op = 0x01 then formatZ op a imm .reset
  else if op = 0x02 then .ok (.wreg a imm)
  else if op = 0x03 then formatR op imm (.rreg a)
  else if op = 0x10 then formatZ op a imm .winit
  else if op = 0x11 then .ok (.wbits a imm)
  else if op = 0x12 then formatZ op a imm .wflush
  else if op = 0x13 then formatZ op a imm .rinit
  else if op = 0x14 then formatR op imm (.rbits a)
  else if op = 0x20 then formatZ op a imm .deint
  else if op = 0x21 then formatZ op a imm .int
  else if op = 0x30 then formatZ op a imm .enc
  else if op = 0x31 then formatZ op a imm .dec
  else .error (.illegalOp op)

/-- The command that a 48-bit word is, or why it is none: total (30_encoding.md R94 (b), (c)). -/
def decodeCommand (w : CommandWord) : Except DecodeError Instr :=
  decodeFields (commandOp w) (commandA w) (commandImm w)

/-! ## Stream elements -/

/-- The 18-bit header at the front of a chunk, and the bits after it (30_encoding.md R98). -/
def decodeHeader (bs : List Bool) : Except DecodeError (StreamElement × List Bool) :=
  match takeField 2 0 bs with
  | none => .error .tooShort
  | some (skipm1, bs1) =>
    match takeField 16 0 bs1 with
    | none => .error .tooShort
    | some (stripm1, bs2) => .ok (.hdr (BitVec.ofNat 2 skipm1) (BitVec.ofNat 16 stripm1), bs2)

/-- The value fields of a RUN token, put under its constructor. -/
def decodeValues {k : Nat} (count : Nat) (bs : List Bool) (run : List (BitVec k) → StreamElement) :
    Except DecodeError (StreamElement × List Bool) :=
  match takeFields k count bs with
  | none => .error .tooShort
  | some (values, rest) => .ok (run values, rest)

/-- A RUN token from its count and code fields on: the code names the run width (30_encoding.md R99, R102). `code` is a
3-bit field, so the last arm is code 7. -/
def decodeRun (count code : Nat) (bs : List Bool) : Except DecodeError (StreamElement × List Bool) :=
  match code with
  | 0 => .ok (.runW0 (BitVec.ofNat 7 count), bs)
  | 1 => decodeValues count bs .runW2
  | 2 => decodeValues count bs .runW3
  | 3 => decodeValues count bs .runW4
  | 4 => decodeValues count bs .runW5
  | 5 => decodeValues count bs .runW6
  | 6 => decodeValues count bs .runW7
  | _ => decodeValues count bs .runW8

/-- The token at the front of a bit string, and the bits after it. A count field of 0 is the END, and no code field
follows it (30_encoding.md R99, R108). -/
def decodeToken (bs : List Bool) : Except DecodeError (StreamElement × List Bool) :=
  match takeField 7 0 bs with
  | none => .error .tooShort
  | some (count, bs1) =>
    if count = 0 then .ok (.endMark, bs1)
    else
      match takeField 3 0 bs1 with
      | none => .error .tooShort
      | some (code, bs2) => decodeRun count code bs2

/-- An element and nothing after it. -/
def wholeElement (r : Except DecodeError (StreamElement × List Bool)) : Except DecodeError Instr :=
  match r with
  | .error e => .error e
  | .ok (el, []) => .ok el.toInstr
  | .ok (_, _ :: _) => .error .trailingBits

/-! ## The encoder -/

/-- The encoding of one instruction: a command word, the header's bits, or a token's bits. -/
inductive Code where
  | command (w : CommandWord)
  | header (bits : List Bool)
  | token (bits : List Bool)
deriving DecidableEq, Repr

/-- A command word from its three fields (30_encoding.md R90). -/
def commandWord (op a : BitVec 8) (imm : BitVec 32) : CommandWord := op ++ a ++ imm

/-- A RUN token: 7-bit count, 3-bit code, the value fields (30_encoding.md R99). -/
def runBits {k : Nat} (code : Nat) (values : List (BitVec k)) : List Bool :=
  toBits 7 values.length ++ toBits 3 code ++ fieldBits values

/-- The encoding of an instruction (30_encoding.md R90, R91, R98, R99, R101). -/
def encode (i : Instr) : Code :=
  match i with
  | .reset => .command (commandWord 0x01 0 0)
  | .wreg reg imm => .command (commandWord 0x02 reg imm)
  | .rreg reg => .command (commandWord 0x03 reg 0)
  | .winit => .command (commandWord 0x10 0 0)
  | .wbits n imm => .command (commandWord 0x11 n imm)
  | .wflush => .command (commandWord 0x12 0 0)
  | .rinit => .command (commandWord 0x13 0 0)
  | .rbits n => .command (commandWord 0x14 n 0)
  | .deint => .command (commandWord 0x20 0 0)
  | .int => .command (commandWord 0x21 0 0)
  | .enc => .command (commandWord 0x30 0 0)
  | .dec => .command (commandWord 0x31 0 0)
  | .hdr skipm1 stripm1 => .header (toBits 2 skipm1.toNat ++ toBits 16 stripm1.toNat)
  | .runW0 count => .token (toBits 7 count.toNat ++ toBits 3 0)
  | .runW2 values => .token (runBits 1 values)
  | .runW3 values => .token (runBits 2 values)
  | .runW4 values => .token (runBits 3 values)
  | .runW5 values => .token (runBits 4 values)
  | .runW6 values => .token (runBits 5 values)
  | .runW7 values => .token (runBits 6 values)
  | .runW8 values => .token (runBits 7 values)
  | .endMark => .token (toBits 7 0)

/-- How many bits an encoding has. -/
def Code.length (c : Code) : Nat :=
  match c with
  | .command _ => 48
  | .header bits => bits.length
  | .token bits => bits.length

/-- The instruction that an encoding is, or why it is none. -/
def decode (c : Code) : Except DecodeError Instr :=
  match c with
  | .command w => decodeCommand w
  | .header bits => wholeElement (decodeHeader bits)
  | .token bits => wholeElement (decodeToken bits)

/-! ## The host's numbering of the opcode table -/

/-- The bits of the longest token: `10 + 127 * 8` (30_encoding.md R106). -/
def longestToken : Nat := 1026

/-- The bits that a stream row's number stands for (log 11, DESIGN CHOICE): the row's `width` bits of the table are one
number whose bit 0 is the LAST bit of the row's `encoding`, and whose most significant bit is the element's first stream
bit; after them zeros, as many as the longest token has. A row of 7 bits is given in 8, of 10 in 16, of 18 in 24. -/
def tableBits (nbits w : Nat) : List Bool :=
  if nbits ≤ 8 then toBits 7 w ++ List.replicate longestToken false
  else if nbits ≤ 16 then toBits 10 w ++ List.replicate longestToken false
  else toBits 18 w

/-- What a stream decoder read, as an instruction; the bits after the element are the zeros of `tableBits`. -/
def elementInstr (r : Except DecodeError (StreamElement × List Bool)) : Option Instr :=
  match r with
  | .error _ => none
  | .ok (el, _) => some el.toInstr

/-- The instruction that the decoder reads from bits numbered as `spec/opcode_table.json` numbers them: a command row is
one 48-bit word; a stream row is `tableBits`. -/
def decodeTableWord (nbits w : Nat) : Option Instr :=
  if nbits = 48 then
    match decodeCommand (BitVec.ofNat 48 w) with
    | .error _ => none
    | .ok i => some i
  else if nbits ≤ 16 then elementInstr (decodeToken (tableBits nbits w))
  else if nbits ≤ 24 then elementInstr (decodeHeader (tableBits nbits w))
  else none

end Sys2Proof
end

