-- ==== Sys2Proof/Config.lean ====
section
/-! DEFINITION. What an implementation fixes: the three capacities of 00_scope.md R7 (93_implementation_defined.md U6,
92_eei_decisions.md D4), and the constants of R6 by name. -/

namespace Sys2Proof

/-- The parameters of 00_scope.md R7. The model takes each as an argument: they are held in `State.cfg`, and no step
changes them (log 1, DESIGN CHOICE). The types carry the constraints of R7: `DATA_CAP` and `SCRATCH_CAP` are at most
`2^32 - 1`, and `STREAM_CAP` is a multiple of 4 and at most `2^32 - 4`. -/
structure Config where
  /-- `DATA_CAP`, in bytes. -/
  dataCap : Fin (2 ^ 32)
  /-- `STREAM_CAP` in 4-byte words. -/
  streamWords : Fin (2 ^ 30)
  /-- `SCRATCH_CAP`, in bytes. -/
  scratchCap : Fin (2 ^ 32)
deriving DecidableEq, Repr

/-- `DATA_CAP` (R7). -/
def Config.dataBytes (c : Config) : Nat := c.dataCap.val

/-- `STREAM_CAP` (R7). -/
def Config.streamBytes (c : Config) : Nat := 4 * c.streamWords.val

/-- `SCRATCH_CAP` (R7). -/
def Config.scratchBytes (c : Config) : Nat := c.scratchCap.val

/-- The defaults of R7: `2^32 - 1`, `2^32 - 4`, `2^32 - 1`. -/
def Config.default : Config where
  dataCap := ⟨2 ^ 32 - 1, by decide⟩
  streamWords := ⟨2 ^ 30 - 1, by decide⟩
  scratchCap := ⟨2 ^ 32 - 1, by decide⟩

/-- `RUN_MAX`: the largest count of one token (R6). -/
def Config.runMax : Nat := 127

/-- `ACC_W`: the width of the bit accumulator, and the most bits one bit operation may move (R6). -/
def Config.accWidth : Nat := 32

/-- `TOKEN_OVERHEAD`: 7 count bits and 3 code bits, the constant of the merge cost (R6). -/
def Config.tokenOverhead : Nat := 10

end Sys2Proof
end

