-- ==== Sys2Proof/Machine/State.lean ====
section
/-! DEFINITION. The machine's state as plain data, the reasons a step can stop, and the state after reset. -/

namespace Sys2Proof.Machine

/-- The three buffer memories (10_state.md R44). -/
inductive Space where
  | data
  | stream
  | scratch
deriving DecidableEq, Repr

/-- `BSMODE`: which bit operations are legal (10_state.md R22, R23). -/
inductive BsMode where
  | none
  | write
  | read
  | closed
deriving DecidableEq, Repr

/-- The spec's fault causes (60_exceptions.md R270). These are exceptions: `raise` takes them to a next state. -/
inductive Cause where
  | illegalCommand
  | badOperand
  | badSequence
  | allocation
  | truncatedStream
deriving DecidableEq, Repr

/-- The twelve registers by name (10_state.md R21). -/
inductive Reg where
  | status
  | skip
  | strip
  | block
  | dlen
  | slen
  | bitlen
  | acc
  | fill
  | spos
  | rpos
  | result
deriving DecidableEq, Repr

/-- Where the engine stands between two of the model's steps. A command runs whole inside one step (00_scope.md R17), so
every state that a step leaves is `idle` if it entered so; the other three are the places of DEC's control flow
(43_decode.md R220) at which a stream element is read (log 9, DESIGN CHOICE). -/
inductive Phase where
  /-- no command is running -/
  | idle
  /-- DEC has opened the stream and reads the header next -/
  | header
  /-- DEC reads a token or the END next -/
  | tokens
  /-- DEC has read the END and has its last lines to run -/
  | finish
deriving DecidableEq, Repr

/-- What the host can do to the block (70_reset_and_hazards.md R320). -/
inductive HostAction where
  /-- issue a 48-bit command word -/
  | command (w : CommandWord)
  /-- write bytes to `DATA` from an address on -/
  | writeData (addr : Nat) (bytes : List Byte)
  /-- write bytes to `STREAM` from an address on -/
  | writeStream (addr : Nat) (bytes : List Byte)
  /-- read one byte of `DATA` -/
  | readData (addr : Nat)
  /-- read one byte of `STREAM` -/
  | readStream (addr : Nat)
  /-- assert the hardware reset input, or switch the power on (R310, R312) -/
  | resetInput
deriving DecidableEq, Repr

/-- The encoder's working registers (10_state.md R35, R36, R37). -/
structure EncRegs where
  cnt1 : Nat := 0
  bits1 : Nat := 0
  cnt2 : Nat := 0
  bits2 : Nat := 0
  i : Nat := 0
  e : Nat := 0
deriving DecidableEq, Repr

/-- The decoder's working registers (10_state.md R38). -/
structure DecRegs where
  n : Nat := 0
  act : Byte := 0
  cnt : Nat := 0
  bits : Nat := 0
  hs : Nat := 0
  ht : Nat := 0
deriving DecidableEq, Repr

/-- A buffer memory: the bytes that hold a value, in rising order of address. An address that is not listed holds none:
the byte is unspecified (10_state.md R45; log 2). -/
abbrev Memory := List Host.Cell

/-- The state of the block. INVENTORY.md lists each field with its rule and its reset value. -/
structure State where
  /-- `STATUS.FAULT` -/
  fault : Bool
  /-- `STATUS.CAUSE` -/
  cause : BitVec 3
  /-- `STATUS.BSMODE` -/
  bsmode : BsMode
  /-- `STATUS.UNDERRUN` -/
  underrun : Bool
  /-- `SKIP`: skip - 1 -/
  skip : BitVec 2
  /-- `STRIP`: strip - 1 -/
  strip : BitVec 16
  /-- `BLOCK` -/
  block : BitVec 32
  /-- `DLEN` -/
  dlen : BitVec 32
  /-- `SLEN` -/
  slen : BitVec 32
  /-- `BITLEN` -/
  bitlen : BitVec 64
  /-- `ACC` -/
  acc : BitVec 32
  /-- `FILL` -/
  fill : BitVec 5
  /-- `SPOS` -/
  spos : BitVec 32
  /-- `RPOS`, a natural number (10_state.md R33) -/
  rpos : Nat
  /-- `RESULT` -/
  result : BitVec 32
  /-- the memory `DATA` -/
  data : Memory
  /-- the memory `STREAM` -/
  stream : Memory
  /-- the memory `SCRATCH` -/
  scratch : Memory
  /-- the encoder's working registers -/
  enc : EncRegs
  /-- the decoder's working registers -/
  dec : DecRegs
  /-- where the engine stands (the model's own) -/
  phase : Phase
  /-- what the host has asked for and the block has not taken yet, the next first (the model's own) -/
  inputs : List HostAction
  /-- the values returned on the response port, oldest first (the model's own) -/
  responses : List Response
  /-- the bytes that host reads have returned, oldest first (the model's own) -/
  hostReads : List Byte
  /-- the capacities (the model's own); no step changes them -/
  cfg : Config
deriving DecidableEq, Repr

/-- Why the machine stops with a fault. The spec's own faults are not here: they are taken as exceptions. -/
inductive Fault where
  /-- Raised by a host memory access at or above the capacity of `DATA` or `STREAM`: 70_reset_and_hazards.md R320 lets
  the host access bytes below the capacities only, so the address does not exist. Safe: nothing is claimed of it. -/
  | noSuchAddress (sp : Space) (addr : Nat)
deriving DecidableEq, Repr

/-- Why a step has no meaning. -/
inductive Refusal where
  /-- Raised by `exec`'s arm of an instruction that has no meaning yet. Safe. -/
  | notModelled (mnemonic : String)
  /-- Raised where a rule needs the value of an unspecified byte: by ENC, RBITS and DEC when a launch premise of
  70_reset_and_hazards.md R316 does not hold, and by a host read (00_scope.md R18; 93_implementation_defined.md U1:
  "refuse"). Safe: the model has no value to give, and claims nothing. -/
  | unspecifiedByte (sp : Space) (addr : Nat)
deriving DecidableEq, Repr

/-- What a step or a meaning answers. -/
abbrev Result := Host.Outcome State Fault Refusal

/-- The machine right after power-on (10_state.md R47, 70_reset_and_hazards.md R310, R311): every register 0, every byte
of the memories unspecified. The default capacities are those of 00_scope.md R7 (log 1); the host has asked for nothing
(log 6); the working registers hold their idle zeros (log 9). -/
def State.reset : State where
  fault := false
  cause := 0
  bsmode := .none
  underrun := false
  skip := 0
  strip := 0
  block := 0
  dlen := 0
  slen := 0
  bitlen := 0
  acc := 0
  fill := 0
  spos := 0
  rpos := 0
  result := 0
  data := []
  stream := []
  scratch := []
  enc := {}
  dec := {}
  phase := .idle
  inputs := []
  responses := []
  hostReads := []
  cfg := Config.default

end Sys2Proof.Machine
end

