-- ==== Sys2Proof/Machine/Flags.lean ====
section
/-! DEFINITION. The `STATUS` register: its assembled word, the codes of its fields, and the rule of `UNDERRUN`. -/

namespace Sys2Proof.Machine

/-- The code of a cause in `STATUS.CAUSE` (60_exceptions.md R270). -/
def Cause.code (c : Cause) : BitVec 3 :=
  match c with
  | .illegalCommand => 1
  | .badOperand => 2
  | .badSequence => 3
  | .allocation => 4
  | .truncatedStream => 5

/-- The code of a mode in `STATUS.BSMODE` (10_state.md R22). -/
def BsMode.code (m : BsMode) : BitVec 2 :=
  match m with
  | .none => 0
  | .write => 1
  | .read => 2
  | .closed => 3

/-- The `STATUS` register: bit 0 `FAULT`, 3:1 `CAUSE`, 5:4 `BSMODE`, 6 `UNDERRUN`, 31:7 zero (10_state.md R22). -/
def State.status (s : State) : BitVec 32 :=
  (0 : BitVec 25) ++ BitVec.ofBool s.underrun ++ s.bsmode.code ++ s.cause ++ BitVec.ofBool s.fault

/-- A read of `n` bits at cursor `pos` asks for a bit at or beyond `8 * SLEN` (40_bitstream.md R137, R138). -/
def runsOff (pos n slen : Nat) : Bool := decide (1 ≤ n) && decide (8 * slen < pos + n)

end Sys2Proof.Machine
end

