-- ==== Sys2Proof/Machine/Operands.lean ====
section
/-! DEFINITION. The operand forms: register addresses, and the width, code and bias of a chunk's value fields
(30_encoding.md section 4). -/

namespace Sys2Proof.Machine

/-- The register at an address; `none` for the 244 unimplemented ones (10_state.md R21). -/
def Reg.ofAddr (a : BitVec 8) : Option Reg :=
  if a = 0x00 then some .status
  else if a = 0x01 then some .skip
  else if a = 0x02 then some .strip
  else if a = 0x03 then some .block
  else if a = 0x04 then some .dlen
  else if a = 0x05 then some .slen
  else if a = 0x06 then some .bitlen
  else if a = 0x07 then some .acc
  else if a = 0x08 then some .fill
  else if a = 0x09 then some .spos
  else if a = 0x0A then some .rpos
  else if a = 0x0B then some .result
  else none

/-- `bias(b) = 2^b div 2` (30_encoding.md R104). -/
def bias (b : Nat) : Nat := 2 ^ b / 2

/-- `v` has a biased `b`-bit form: `-bias(b) <= v <= 2^b - 1 - bias(b)` (30_encoding.md R100). -/
def fits (b : Nat) (v : Int) : Bool :=
  decide (-(bias b : Int) ≤ v) && decide (v ≤ (2 ^ b : Nat) - 1 - (bias b : Int))

/-- The smallest width from `b` on that holds `v`, looking at `k` widths. -/
def leastWidth (v : Int) : Nat → Nat → Nat
  | 0, b => b
  | k + 1, b => if fits b v then b else leastWidth v k (b + 1)

/-- `W(v)`: the smallest `b >= 0` for which `v` is representable in the biased `b`-bit form (30_encoding.md R100).
For a residual, in `-128 .. 127`, it is at most 8. -/
def width (v : Int) : Nat := leastWidth v 8 0

/-- `code(b)`: the 3-bit name of a width (30_encoding.md R101). -/
def code (b : Nat) : Nat := if b > 1 then b - 1 else b

/-- `decode(c)`: the run width that a code names (30_encoding.md R102). -/
def codeWidth (c : Nat) : Nat := if c ≥ 1 then c + 1 else c

/-- `norm(b)`: the run width used for a minimum width (30_encoding.md R103). -/
def norm (b : Nat) : Nat := codeWidth (code b)

/-- `skip = SKIP + 1` (10_state.md R25). -/
def State.stride (s : State) : Nat := s.skip.toNat + 1

/-- `strip = STRIP + 1` (10_state.md R26). -/
def State.stripLen (s : State) : Nat := s.strip.toNat + 1

end Sys2Proof.Machine
end

