-- ==== Sys2Proof/Machine/Ops.lean ====
section
/-! DEFINITION. The named operations over memories and registers, and the taking of a fault (`raise`). -/

namespace Sys2Proof.Machine

/-! ## Memory -/

/-- The addresses rise strictly: the one canonical form. Every listed byte holds a value and an unlisted one holds none,
so no entry equals what an unlisted address reads as. -/
abbrev Memory.wf (m : Memory) : Prop := m.Pairwise (fun a b => a.1 < b.1)

/-- The byte at an address; `none` where it is unspecified (00_scope.md R14, 10_state.md R45). -/
def Memory.read : Memory → Nat → Option Byte
  | [], _ => none
  | (k, b) :: rest, a => if k = a then some b else Memory.read rest a

/-- Store one byte (00_scope.md R14). -/
def Memory.write : Memory → Nat → Byte → Memory
  | [], a, b => [(a, b)]
  | (k, c) :: rest, a, b =>
    if a < k then (a, b) :: (k, c) :: rest
    else if a = k then (a, b) :: rest
    else (k, c) :: Memory.write rest a b

/-- Make one byte unspecified. -/
def Memory.clear (m : Memory) (a : Nat) : Memory := m.filter (fun c => decide (c.1 ≠ a))

/-- Store what a byte holds, a value or none: how the transposer moves a byte (41_transposer.md R169; log 5). -/
def Memory.put (m : Memory) (a : Nat) (b : Option Byte) : Memory :=
  match b with
  | some v => m.write a v
  | none => m.clear a

/-- Store bytes from an address on (00_scope.md R14 `MemWrite`). -/
def Memory.writeAll : Memory → Nat → List Byte → Memory
  | m, _, [] => m
  | m, a, b :: bs => Memory.writeAll (m.write a b) (a + 1) bs

/-- Make every byte at or above an address unspecified. -/
def Memory.below (m : Memory) (n : Nat) : Memory := m.filter (fun c => decide (c.1 < n))

/-- Make the bytes from `lo` up to but not including `hi` unspecified. -/
def Memory.forget (m : Memory) (lo hi : Nat) : Memory :=
  m.filter (fun c => !(decide (lo ≤ c.1) && decide (c.1 < hi)))

/-- The value of a byte that a rule needs, or the refusal that the spec asks for (70_reset_and_hazards.md R316: "the model
refuses the read"; 00_scope.md R18; 93_implementation_defined.md U1). -/
def Memory.value (m : Memory) (sp : Space) (a : Nat) : Except Refusal Byte :=
  match m.read a with
  | some b => .ok b
  | none => .error (.unspecifiedByte sp a)

/-! ## How a sub-operation ends -/

/-- A sub-operation ends with a state, raises one of the spec's faults in the state it has reached, or needs the value of
an unspecified byte. -/
inductive Res where
  | ok (s : State)
  | raise (c : Cause) (s : State)
  | refuse (r : Refusal)
deriving DecidableEq, Repr

/-- The next line of the pseudocode, which runs only if no earlier one raised (00_scope.md R15). -/
def Res.andThen (r : Res) (f : State → Res) : Res :=
  match r with
  | .ok s => f s
  | .raise c s => .raise c s
  | .refuse e => .refuse e

/-! ## The length registers -/

/-- Write `DLEN`. Lowering it makes every byte of `DATA` at or above the new length unspecified; raising it makes no
byte valid (70_reset_and_hazards.md R316, R317; log 3). -/
def State.setDlen (s : State) (n : Nat) : State :=
  { s with
    dlen := BitVec.ofNat 32 n
    data := if n < s.dlen.toNat then s.data.below n else s.data }

/-- How much of `STREAM` a lowered `SLEN` leaves alone: the bytes below it, and in an open write session the bytes that
the packer has stored in it, since a write of `SLEN` then has no lasting effect (44_host_commands.md R252 (c); log 4). -/
def State.slenKeeps (s : State) (n : Nat) : Nat :=
  if s.bsmode = .write then max n s.spos.toNat else n

/-- Write `SLEN`, with the same rule for `STREAM` (70_reset_and_hazards.md R316, R317; log 3). Raising `SLEN` takes no
value away: a byte that the packer has stored at or above the old length, in a session not yet flushed, is readable once
`SLEN` covers it. The spec leaves that open, and it is the model's choice (log 20, DESIGN CHOICE). -/
def State.setSlen (s : State) (n : Nat) : State :=
  { s with
    slen := BitVec.ofNat 32 n
    stream := if n < s.slen.toNat then s.stream.below (s.slenKeeps n) else s.stream }

/-! ## Taking a fault, and the end of a command -/

/-- The command is over: its working registers and `SCRATCH` hold no value any more (10_state.md R20;
93_implementation_defined.md U3; log 9, log 12). -/
def State.endCommand (s : State) : State :=
  { s with phase := .idle, enc := {}, dec := {}, scratch := [] }

/-- Where a fault is raised: the rows of the table of 60_exceptions.md R280. -/
inductive RaisedIn where
  /-- command decode -/
  | commandDecode
  /-- WREG, RREG (and RESET, which has no fault of its own) -/
  | hostCommand
  /-- WBITS, WFLUSH -/
  | packer
  /-- RBITS -/
  | unpacker
  /-- DEINT, INT -/
  | transposer
  /-- ENC, in `deint`'s scratch check -/
  | encScratch
  /-- ENC, in `emit_word` -/
  | encPacker
  /-- DEC, wherever -/
  | decoder
deriving DecidableEq, Repr

/-- Step (3) of a raise: the outputs of the faulting command are invalidated, by command (60_exceptions.md R280,
R281). -/
def State.invalidate (s : State) (site : RaisedIn) : State :=
  match site with
  | .commandDecode => s
  | .hostCommand => s
  | .packer => { s with slen := 0, stream := [] }
  | .unpacker => s
  | .transposer => s
  | .encScratch => { s with slen := 0, stream := [] }
  | .encPacker => { s with slen := 0, stream := [], dlen := 0, data := [] }
  | .decoder => { s with dlen := 0, data := [] }

/-- Step (1) and (2) of a raise: latch the fault and its cause, lose the open session (60_exceptions.md R280). -/
def State.latch (s : State) (c : Cause) : State :=
  { s with fault := true, cause := c.code, bsmode := .none }

/-- `raise c`: TAKING A FAULT (60_exceptions.md R280). While a fault is latched a raise changes nothing (R282 (c)).
Everything not named keeps the value it has in `s`, and the command is over. -/
def State.raise (s : State) (c : Cause) (site : RaisedIn) : State :=
  if s.fault then s.endCommand else ((s.latch c).invalidate site).endCommand

/-- RETURN FROM A FAULT: there is only the reset state (60_exceptions.md R284, 44_host_commands.md R251). Every register
is 0, and with `DLEN` and `SLEN` every byte of the memories is unspecified (70_reset_and_hazards.md R310, R311). What is
outside the block stays: the host's queue, what it was told, and the capacities (log 17). -/
def State.toReset (s : State) : State :=
  { State.reset with
    inputs := s.inputs
    responses := s.responses
    hostReads := s.hostReads
    cfg := s.cfg }

/-- A command's answer from how its pseudocode ended. -/
def Res.answer (r : Res) (site : RaisedIn) : Result :=
  match r with
  | .ok s => .next s
  | .raise c s => .next (s.raise c site)
  | .refuse e => .refused e

/-- The fault gate: while `FAULT = 1` every command but RESET and RREG is dropped, and no state changes
(44_host_commands.md R250 (1), 60_exceptions.md R282 (a); log 14). -/
def gate (s : State) (body : Result) : Result :=
  if s.fault then .next s else body

/-! ## The register file and the response port -/

/-- `reg[r]` zero-extended to 64 bits; `RPOS` modulo `2^64` (10_state.md R21, R33; 44_host_commands.md R253). -/
def State.regValue (s : State) (r : Reg) : Response :=
  match r with
  | .status => s.status.setWidth 64
  | .skip => s.skip.setWidth 64
  | .strip => s.strip.setWidth 64
  | .block => s.block.setWidth 64
  | .dlen => s.dlen.setWidth 64
  | .slen => s.slen.setWidth 64
  | .bitlen => s.bitlen
  | .acc => s.acc.setWidth 64
  | .fill => s.fill.setWidth 64
  | .spos => s.spos.setWidth 64
  | .rpos => BitVec.ofNat 64 s.rpos
  | .result => s.result.setWidth 64

/-- `respond v`: return a value on the response port (30_encoding.md R93; log 7). -/
def State.respond (s : State) (v : Response) : State :=
  { s with responses := s.responses ++ [v] }

end Sys2Proof.Machine
end

