-- ==== Sys2Proof/Machine/Bitstream.lean ====
section
/-! DEFINITION. BitStream (40_bitstream.md): the packer and unpacker sub-operations, and WINIT, WBITS, WFLUSH, RINIT,
RBITS. -/

namespace Sys2Proof.Machine

/-! ## Packer -/

/-- `bs_winit()` (R131). The bytes of `STREAM` become unspecified because `SLEN = 0`. -/
def bsWinit (s : State) : State :=
  { s with acc := 0, fill := 0, spos := 0, bitlen := 0, slen := 0, stream := [] }

/-- `emit_word(w)` (R133): one 32-bit word, big-endian, at the packer position. -/
def emitWord (w : Nat) (s : State) : Res :=
  if s.cfg.streamBytes < s.spos.toNat + 4 then .raise .allocation s
  else
    .ok { s with
      stream := s.stream.writeAll s.spos.toNat (be32 (BitVec.ofNat 32 w))
      spos := BitVec.ofNat 32 (s.spos.toNat + 4) }

/-- The packer's registers after a `bs_write` of `n` bits. -/
def State.setPacker (s : State) (acc fill n : Nat) : State :=
  { s with
    acc := BitVec.ofNat 32 acc
    fill := BitVec.ofNat 5 fill
    bitlen := s.bitlen + BitVec.ofNat 64 n }

/-- `bs_write(v, n)` (R132): append the low `n` bits of `v`, most significant first. -/
def bsWrite (v n : Nat) (s : State) : Res :=
  let v1 := v % 2 ^ n
  let fill := s.fill.toNat
  if fill + n < Config.accWidth then .ok (s.setPacker (s.acc.toNat * 2 ^ n + v1) (fill + n) n)
  else
    let k := fill + n - Config.accWidth
    (emitWord (s.acc.toNat * 2 ^ (Config.accWidth - fill) + v1 / 2 ^ k) s).andThen fun t =>
      .ok (t.setPacker (v1 % 2 ^ k) k n)

/-- The trim of `bs_flush()` (R134): `SPOS` drops the `pad` whole pad bytes of the word just stored, which are
unspecified from then on (10_state.md R45, 93_implementation_defined.md U4; log 19). -/
def State.trimPad (s : State) (pad : Nat) : State :=
  { s with
    spos := BitVec.ofNat 32 (s.spos.toNat - pad)
    acc := 0
    fill := 0
    stream := s.stream.forget (s.spos.toNat - pad) s.spos.toNat }

/-- `bs_flush()` (R134): pad, store the last partial word, trim. -/
def bsFlush (s : State) : Res :=
  let f := s.fill.toNat
  if 0 < f then
    (emitWord (s.acc.toNat * 2 ^ (Config.accWidth - f)) s).andThen fun t =>
      let u := t.trimPad ((Config.accWidth - f) / 8)
      .ok (u.setSlen u.spos.toNat)
  else .ok (s.setSlen s.spos.toNat)

/-! ## Unpacker -/

/-- `bs_rinit()` (R136). -/
def bsRinit (s : State) : State := { s with rpos := 0, underrun := false }

/-- `sbit(STREAM, SLEN, k)`: stream bit `k` is bit `7 - (k mod 8)` of byte `k div 8`, and 0 from `8 * SLEN` on
(00_scope.md R11). -/
def sbit (s : State) (k : Nat) : Except Refusal Bool :=
  if k < 8 * s.slen.toNat then
    match s.stream.value .stream (k / 8) with
    | .ok b => .ok (b.getLsbD (7 - k % 8))
    | .error e => .error e
  else .ok false

/-- The `n` stream bits from position `p` on, first bit first. -/
def peekBits (s : State) : Nat → Nat → Except Refusal (List Bool)
  | 0, _ => .ok []
  | n + 1, p =>
    match sbit s p with
    | .error e => .error e
    | .ok b =>
      match peekBits s n (p + 1) with
      | .error e => .error e
      | .ok bs => .ok (b :: bs)

/-- What a `bs_read(n)` does to the state (R137, R138): the cursor advances, and `UNDERRUN` is set if the read asked for
a bit at or beyond `8 * SLEN`. -/
def consume (n : Nat) (s : State) : State :=
  { s with
    underrun := s.underrun || runsOff s.rpos n s.slen.toNat
    rpos := s.rpos + n }

/-- `bs_read(n)` (R137): the value, and the state after. -/
def bsRead (n : Nat) (s : State) : Except Refusal (Nat × State) :=
  match peekBits s n s.rpos with
  | .error e => .error e
  | .ok bs => .ok (ofBits bs, consume n s)

/-! ## Commands -/

/-- WINIT (R140). -/
def execWinit (s : State) : Result :=
  gate s (.next { bsWinit s with bsmode := .write })

/-- WBITS n, imm (R141): the checks in the order written. -/
def execWbits (n : BitVec 8) (imm : BitVec 32) (s : State) : Result :=
  gate s (Res.answer
    (if s.bsmode ≠ .write then .raise .badSequence s
     else if 32 < n.toNat then .raise .badOperand s
     else bsWrite imm.toNat n.toNat s) .packer)

/-- WFLUSH (R142). -/
def execWflush (s : State) : Result :=
  gate s (Res.answer
    (if s.bsmode ≠ .write then .raise .badSequence s
     else (bsFlush s).andThen fun t => .ok { t with bsmode := .closed }) .packer)

/-- RINIT (R143). -/
def execRinit (s : State) : Result :=
  gate s (.next { bsRinit s with bsmode := .read })

/-- The result of RBITS: `RESULT`, and the response (R144). -/
def State.returnBits (s : State) (v : Nat) : State :=
  { s with result := BitVec.ofNat 32 v }.respond (BitVec.ofNat 64 v)

/-- RBITS n (R144): the checks in the order written. -/
def execRbits (n : BitVec 8) (s : State) : Result :=
  gate s (Res.answer
    (if s.bsmode ≠ .read then .raise .badSequence s
     else if 32 < n.toNat then .raise .badOperand s
     else
       match bsRead n.toNat s with
       | .error e => .refuse e
       | .ok (v, t) => .ok (t.returnBits v)) .unpacker)

end Sys2Proof.Machine
end

