-- ==== Sys2Proof/Machine/Transposer.lean ====
section
/-! DEFINITION. PlaneTransposer (41_transposer.md): windows, the permutation of a window, `deint`, `reint`, and DEINT,
INT. -/

namespace Sys2Proof.Machine

/-- `windows(L, s, b)`: (offset, length) of each transposition window (R161). -/
def windows (len stride block : Nat) : List (Nat × Nat) :=
  if block = 0 then [(0, len)]
  else
    let size := stride * block
    let full := len / size
    (List.range full).map (fun q => (q * size, size)) ++ [(full * size, len - full * size)]

/-- `pl(c)`: how many positions below `len` channel `c` has (R162). -/
def planeLen (len stride c : Nat) : Nat := (len + stride - 1 - c) / stride

/-- `off(c) = pl(0) + ... + pl(c-1)`: where plane `c` starts (R162). -/
def planeOff (len stride : Nat) : Nat → Nat
  | 0 => 0
  | c + 1 => planeOff len stride c + planeLen len stride c

/-- `dest(len, s, j)`: the deinterleaved position of window position `j` (R162). -/
def dest (len stride j : Nat) : Nat := planeOff len stride (j % stride) + j / stride

/-- `SCRATCH[target j] <- DATA[source j]` for `j` in `0 .. len-1`, in order; a byte moves as it is, a value or none (R164, R165;
R169; log 5). -/
def gather (target source : Nat → Nat) (len : Nat) (data scratch : Memory) : Memory :=
  (List.range len).foldl (fun m j => m.put (target j) (data.read (source j))) scratch

/-- `DATA[o + j] <- SCRATCH[j]` for `j` in `0 .. len-1`, in order (R164, R165). -/
def copyBack (o len : Nat) (scratch data : Memory) : Memory :=
  (List.range len).foldl (fun m j => m.put (o + j) (scratch.read j)) data

/-- One window: `SCRATCH` is filled by `target` and `source`, and copied back. -/
def State.moveWindow (s : State) (o len : Nat) (target source : Nat → Nat) : State :=
  let scratch := gather target source len s.data s.scratch
  { s with scratch := scratch, data := copyBack o len scratch s.data }

/-- One window of `deint` (R164). -/
def deintWindow (stride : Nat) (s : State) (win : Nat × Nat) : State :=
  s.moveWindow win.1 win.2 (fun j => dest win.2 stride j) (fun j => win.1 + j)

/-- One window of `reint` (R165). -/
def reintWindow (stride : Nat) (s : State) (win : Nat × Nat) : State :=
  s.moveWindow win.1 win.2 (fun j => j) (fun j => win.1 + dest win.2 stride j)

/-- The scratch bytes that a transposition needs: the length of its largest window (R163, 20_memory.md R66). -/
def scratchNeed (len stride block : Nat) : Nat := if block = 0 then len else min len (stride * block)

/-- A transposition with its scratch check, made before any byte moves (R163): nothing for a stride of 1; afterwards
`SCRATCH` is unspecified (93_implementation_defined.md U3; log 12). -/
def transpose (move : Nat → State → Nat × Nat → State) (stride block len : Nat) (s : State) : Res :=
  if stride ≤ 1 then .ok s
  else if s.cfg.scratchBytes < scratchNeed len stride block then .raise .allocation s
  else .ok { (windows len stride block).foldl (move stride) s with scratch := [] }

/-- `deint(L)` (R164). -/
def deint (stride block len : Nat) (s : State) : Res := transpose deintWindow stride block len s

/-- `reint(L)` (R165). -/
def reint (stride block len : Nat) (s : State) : Res := transpose reintWindow stride block len s

/-- DEINT (R166). -/
def execDeint (s : State) : Result :=
  gate s (Res.answer (deint s.stride s.block.toNat s.dlen.toNat s) .transposer)

/-- INT (R167). -/
def execInt (s : State) : Result :=
  gate s (Res.answer (reint s.stride s.block.toNat s.dlen.toNat s) .transposer)

end Sys2Proof.Machine
end

