-- ==== Sys2Proof/Machine/Encoder.lean ====
section
/-! DEFINITION. DeltaRunCodec, encode (42_encode.md): prediction, the scan, the merge rule, and ENC. -/

namespace Sys2Proof.Machine

/-- `P[i]` as an integer. -/
def sample (m : Memory) (i : Nat) : Except Refusal Int :=
  match m.value .data i with
  | .ok b => .ok b.toNat
  | .error e => .error e

/-- `P[x] - P[y]`. -/
def sampleDiff (m : Memory) (x y : Nat) : Except Refusal Int :=
  match sample m x with
  | .error e => .error e
  | .ok a =>
    match sample m y with
    | .error e => .error e
    | .ok b => .ok (a - b)

/-- `pred1(P, i)`: the previous byte, 0 before the first (R181). -/
def pred1 (m : Memory) (i : Nat) : Except Refusal Int :=
  if 1 ≤ i then sample m (i - 1) else .ok 0

/-- `grad(P, i, t)`: the second-order term (R181). -/
def grad (m : Memory) (i t : Nat) : Except Refusal Int :=
  if 1 < t ∧ t < i then sampleDiff m (i - t) (i - t - 1) else .ok 0

/-- `pred(P, i, t)` (R181). -/
def pred (m : Memory) (i t : Nat) : Except Refusal Int :=
  match pred1 m i with
  | .error e => .error e
  | .ok p =>
    match grad m i t with
    | .error e => .error e
    | .ok g => .ok (p + g)

/-- `resid(P, i, t)`, in `-128 .. 127` (R182). -/
def resid (m : Memory) (i t : Nat) : Except Refusal Int :=
  match sample m i with
  | .error e => .error e
  | .ok x =>
    match pred m i t with
    | .error e => .error e
    | .ok p => .ok (wrapS8 (x - p))

/-- The value loop of `flush_pending()` (R189): `count` residuals from position `q` on, biased, `width` bits each. -/
def writeValues (t width : Nat) : Nat → Nat → State → Res
  | 0, _, s => .ok s
  | count + 1, q, s =>
    match resid s.data q t with
    | .error e => .refuse e
    | .ok r => (bsWrite (r + bias width).toNat width s).andThen (writeValues t width count (q + 1))

/-- `e <- e + cnt2`. -/
def State.emitted (s : State) : State := { s with enc := { s.enc with e := s.enc.e + s.enc.cnt2 } }

/-- `flush_pending()`: the pending run as one RUN token (R189). -/
def flushPending (t : Nat) (s : State) : Res :=
  (((bsWrite s.enc.cnt2 7 s).andThen
    (bsWrite (code s.enc.bits2) 3)).andThen
    (writeValues t s.enc.bits2 s.enc.cnt2 s.enc.e)).andThen fun u => .ok u.emitted

/-- The merge test of `close_current()` (R187, R190): merged strictly cheaper, and the count still fits. -/
def mergesWell (r : EncRegs) : Bool :=
  decide (r.cnt1 + r.cnt2 ≤ Config.runMax) &&
    decide ((r.cnt1 + r.cnt2) * max r.bits1 r.bits2
      < r.cnt2 * r.bits2 + r.cnt1 * r.bits1 + Config.tokenOverhead)

/-- Merge current into pending (R190). -/
def State.mergeRuns (s : State) : State :=
  { s with enc := { s.enc with cnt2 := s.enc.cnt1 + s.enc.cnt2, bits2 := max s.enc.bits1 s.enc.bits2 } }

/-- Rotate current into pending (R190). -/
def State.rotateRuns (s : State) : State :=
  { s with enc := { s.enc with cnt2 := s.enc.cnt1, bits2 := s.enc.bits1 } }

/-- `close_current()` (R190). -/
def closeCurrent (t : Nat) (s : State) : Res :=
  if mergesWell s.enc then .ok s.mergeRuns
  else (flushPending t s).andThen fun u => .ok u.rotateRuns

/-- `cnt1 <- c; bits1 <- w`. -/
def State.setCurrent (s : State) (c w : Nat) : State :=
  { s with enc := { s.enc with cnt1 := c, bits1 := w } }

/-- `i <- i + 1`. -/
def State.scanned (s : State) : State := { s with enc := { s.enc with i := s.enc.i + 1 } }

/-- One turn of the scan loop (R180, R186). -/
def scanStep (t : Nat) (s : State) : Res :=
  match resid s.data s.enc.i t with
  | .error e => .refuse e
  | .ok r =>
    let w := norm (width r)
    let u := s.scanned
    if u.enc.cnt1 = 0 then .ok (u.setCurrent 1 w)
    else if u.enc.cnt1 < Config.runMax ∧ w = u.enc.bits1 then .ok (u.setCurrent (u.enc.cnt1 + 1) w)
    else (closeCurrent t u).andThen fun v => .ok (v.setCurrent 1 w)

/-- The scan loop: `k` more residuals (R180, R186). -/
def scan (t : Nat) : Nat → State → Res
  | 0, s => .ok s
  | k + 1, s => (scanStep t s).andThen (scan t k)

/-- `if cnt2 != 0: flush_pending()` (R180, R191). -/
def flushRest (t : Nat) (s : State) : Res :=
  if s.enc.cnt2 = 0 then .ok s else flushPending t s

/-- Steps 2 to 4: the header, the scan, and the end of the stream (R185, R186, R191). -/
def encodeBody (stride t len : Nat) (s : State) : Res :=
  (((((bsWrite (stride - 1) 2 (bsWinit s)).andThen
    (bsWrite (t - 1) 16)).andThen fun u =>
    .ok { u with enc := {} }).andThen
    (scan t len)).andThen
    (closeCurrent t)).andThen
    (flushRest t)

/-- ENC's last line: the chunk is complete, and the working registers hold nothing more (R180). -/
def State.endEncode (s : State) : State := { s with bsmode := .closed }.endCommand

/-- ENC (R180). A raise in step 1's scratch check and one in the packer invalidate different outputs
(60_exceptions.md R280, R281). -/
def execEnc (s : State) : Result :=
  gate s
    (match deint s.stride s.block.toNat s.dlen.toNat s with
     | .raise c u => .next (u.raise c .encScratch)
     | .refuse e => .refused e
     | .ok u =>
       Res.answer
         ((((encodeBody s.stride s.stripLen s.dlen.toNat u).andThen
           (reint s.stride s.block.toNat s.dlen.toNat)).andThen
           bsFlush).andThen fun v => .ok v.endEncode) .encPacker)

end Sys2Proof.Machine
end

