-- ==== Sys2Proof/Machine/StreamElements.lean ====
section
/-! DEFINITION. The stream elements that DEC interprets (43_decode.md section 3): HDR, the eight RUN forms, END. Each
reads its own fields off the stream (the cursor advances, `UNDERRUN` follows) and works on DEC's registers; a raise is a
raise inside DEC (60_exceptions.md R280). -/

namespace Sys2Proof.Machine

/-- `if UNDERRUN: raise TruncatedStream` (R220, R227). -/
def checkUnderrun (s : State) : Res :=
  if s.underrun then .raise .truncatedStream s else .ok s

/-- The lines of R220 after the header's read: the registers `SKIP` and `STRIP`, and the decoder's start (R221, R222). -/
def State.openTokens (s : State) (skipm1 : BitVec 2) (stripm1 : BitVec 16) : State :=
  { s with
    skip := skipm1
    strip := stripm1
    dec := { hs := skipm1.toNat + 1, ht := stripm1.toNat + 1 }
    phase := .tokens }

/-- `DATA[n] <- act; n <- n + 1` (R220). -/
def State.append (s : State) (b : Byte) : State :=
  { s with
    data := s.data.write s.dec.n b
    dec := { s.dec with act := b, n := s.dec.n + 1 } }

/-- The reconstructed byte: `wrap_u8(act + grad + u - bias(bits))` (R225). -/
def reconstruct (act : Byte) (g : Int) (u bits : Nat) : Byte :=
  wrapU8 ((act.toNat : Int) + g + (u : Int) - (bias bits : Int))

/-- One value of a token, after its bits are read (R220, R224 to R226). -/
def expandValue (u : Nat) (s : State) : Res :=
  if s.cfg.dataBytes ≤ s.dec.n then .raise .allocation s
  else
    match grad s.data s.dec.n s.dec.ht with
    | .error e => .refuse e
    | .ok g => .ok (s.append (reconstruct s.dec.act g u s.dec.bits))

/-- The value loop of a token (R220, R224). -/
def expandValues : List Nat → State → Res
  | [], s => .ok s
  | u :: us, s =>
    ((checkUnderrun (consume s.dec.bits s)).andThen (expandValue u)).andThen (expandValues us)

/-- `cnt` and `bits` of the token being expanded (10_state.md R38). -/
def State.startToken (s : State) (count bits : Nat) : State :=
  { s with dec := { s.dec with cnt := count, bits := bits } }

/-- A RUN token of a run width with its value fields `us`, one for each of its count: count field, code field, values,
with the check after each (R220, R227). -/
def runToken (bits : Nat) (us : List Nat) (s : State) : Result :=
  Res.answer
    (((checkUnderrun (consume 7 s)).andThen fun t =>
      checkUnderrun (consume 3 t)).andThen fun t =>
      expandValues us (t.startToken us.length bits)) .decoder

/-- HDR (R222). -/
def execHdr (skipm1 : BitVec 2) (stripm1 : BitVec 16) (s : State) : Result :=
  Res.answer
    ((checkUnderrun (consume 16 (consume 2 s))).andThen fun t =>
      .ok (t.openTokens skipm1 stripm1)) .decoder

/-- RUN.W0: no value bits, every residual 0 (R230). -/
def execRunW0 (count : BitVec 7) (s : State) : Result := runToken 0 (List.replicate count.toNat 0) s

/-- RUN.W2 (R231). -/
def execRunW2 (values : List (BitVec 2)) (s : State) : Result := runToken 2 (values.map BitVec.toNat) s

/-- RUN.W3 (R232). -/
def execRunW3 (values : List (BitVec 3)) (s : State) : Result := runToken 3 (values.map BitVec.toNat) s

/-- RUN.W4 (R233). -/
def execRunW4 (values : List (BitVec 4)) (s : State) : Result := runToken 4 (values.map BitVec.toNat) s

/-- RUN.W5 (R234). -/
def execRunW5 (values : List (BitVec 5)) (s : State) : Result := runToken 5 (values.map BitVec.toNat) s

/-- RUN.W6 (R235). -/
def execRunW6 (values : List (BitVec 6)) (s : State) : Result := runToken 6 (values.map BitVec.toNat) s

/-- RUN.W7 (R236). -/
def execRunW7 (values : List (BitVec 7)) (s : State) : Result := runToken 7 (values.map BitVec.toNat) s

/-- RUN.W8 (R237). -/
def execRunW8 (values : List (BitVec 8)) (s : State) : Result := runToken 8 (values.map BitVec.toNat) s

/-- END: its seven bits are read, and the loop is over; it never faults (R227 (a), R238). -/
def execEndMark (s : State) : Result := .next { consume 7 s with phase := .finish }

end Sys2Proof.Machine
end

