-- ==== Sys2Proof/Machine/Decoder.lean ====
section
/-! DEFINITION. DeltaRunCodec, decode (43_decode.md): the reading of stream elements out of `STREAM`, the token loop, and
DEC. -/

namespace Sys2Proof.Machine

/-- What lies in the stream at the cursor. -/
inductive Element where
  /-- a stream element -/
  | found (el : StreamElement)
  /-- its bits include an unspecified byte of `STREAM` -/
  | refused (r : Refusal)
  /-- its bits end inside it: no cursor has this, since a stream is read on with zeros (00_scope.md R11) -/
  | cutShort
deriving DecidableEq, Repr

/-- A decoder's answer on the bits of one element. -/
def Element.ofDecode (r : Except DecodeError (StreamElement × List Bool)) : Element :=
  match r with
  | .ok (el, _) => .found el
  | .error _ => .cutShort

/-- The header at the cursor: 18 bits (30_encoding.md R98). -/
def fetchHeader (s : State) : Element :=
  match peekBits s 18 s.rpos with
  | .error e => .refused e
  | .ok bs => Element.ofDecode (decodeHeader bs)

/-- How many of a token's `count` values DEC reads at most: R220 raises `Allocation` right after it has read the first
value that does not fit in `DATA`, and reads none behind it (R226; 60_exceptions.md R283). -/
def valuesReached (s : State) (count : Nat) : Nat := min count (s.cfg.dataBytes - s.dec.n + 1)

/-- The RUN token at the cursor whose count and code fields are `prefixBits`. Only the values that DEC reaches are read.
Those behind them are not read, and stand as zeros in the token: they have no effect (log 10). -/
def fetchRun (s : State) (prefixBits : List Bool) (count width : Nat) : Element :=
  match peekBits s (width * valuesReached s count) (s.rpos + 10) with
  | .error e => .refused e
  | .ok values =>
    Element.ofDecode (decodeToken
      (prefixBits ++ (values ++ List.replicate (width * (count - valuesReached s count)) false)))

/-- The token or END at the cursor, by the fields that R220 reads, in its order: the count; if it is not 0 the code, which
names the width of the values; then the values. A count of 0 is the END, and no code field is read (30_encoding.md
R108). -/
def fetchToken (s : State) : Element :=
  match peekBits s 7 s.rpos with
  | .error e => .refused e
  | .ok count =>
    if ofBits count = 0 then .found .endMark
    else
      match peekBits s 3 (s.rpos + 7) with
      | .error e => .refused e
      | .ok c => fetchRun s (count ++ c) (ofBits count) (codeWidth (ofBits c))

/-- The meaning of a stream element. -/
def execElement (el : StreamElement) (s : State) : Result :=
  match el with
  | .hdr skipm1 stripm1 => execHdr skipm1 stripm1 s
  | .runW0 count => execRunW0 count s
  | .runW2 values => execRunW2 values s
  | .runW3 values => execRunW3 values s
  | .runW4 values => execRunW4 values s
  | .runW5 values => execRunW5 values s
  | .runW6 values => execRunW6 values s
  | .runW7 values => execRunW7 values s
  | .runW8 values => execRunW8 values s
  | .endMark => execEndMark s

/-- DEC's last lines: `DLEN <- n`, `BSMODE <- READ` (R220). -/
def State.endDecode (s : State) : State :=
  { s.setDlen s.dec.n with bsmode := .read }.endCommand

/-- After the END: re-interleave with the header's skip, and finish (R220, R228). -/
def finishDecode (s : State) : Result :=
  Res.answer
    ((reint s.dec.hs s.block.toNat s.dec.n s).andThen fun t => .ok t.endDecode) .decoder

/-- The meaning of what lies at the cursor. -/
def runElement (el : Element) (s : State) : Result :=
  match el with
  | .found el => execElement el s
  | .refused r => .refused r
  | .cutShort => .next (s.raise .truncatedStream .decoder)

/-- What DEC does next, by where it stands (R220). -/
def decodeStep (s : State) : Result :=
  match s.phase with
  | .idle => .next s
  | .header => runElement (fetchHeader s) s
  | .tokens => runElement (fetchToken s) s
  | .finish => finishDecode s

/-- DEC's control flow: until the command is over, at most `k` turns. -/
def decodeRun : Nat → State → Result
  | 0, s => .next s
  | k + 1, s =>
    if s.phase = .idle then .next s
    else
      match decodeStep s with
      | .next t => decodeRun k t
      | .fault e => .fault e
      | .refused e => .refused e

/-- More turns than DEC has: every token takes at least 10 stream bits, and a count field at or beyond `8 * SLEN` reads 0
(R220; 45_arithmetic_control_access.md R264; log 13). -/
def decodeTurns (s : State) : Nat := 8 * s.slen.toNat + 4

/-- DEC (R220). -/
def execDec (s : State) : Result :=
  gate s (decodeRun (decodeTurns s) { bsRinit s with phase := .header })

end Sys2Proof.Machine
end

