-- ==== Sys2Proof/Machine/HostCommands.lean ====
section
/-! DEFINITION. Host control commands (44_host_commands.md): RESET, WREG, RREG. -/

namespace Sys2Proof.Machine

/-- RESET (R251): legal in every state, and the only exit from the fault state (60_exceptions.md R284). -/
def execReset (s : State) : Result := .next s.toReset

/-- The write of one register, with its range or capacity check (R252). A read-only register is `BadOperand`. -/
def writeReg (r : Reg) (imm : BitVec 32) (s : State) : Res :=
  match r with
  | .skip => if 3 < imm.toNat then .raise .badOperand s else .ok { s with skip := imm.setWidth 2 }
  | .strip => if 65535 < imm.toNat then .raise .badOperand s else .ok { s with strip := imm.setWidth 16 }
  | .block => .ok { s with block := imm }
  | .dlen => if s.cfg.dataBytes < imm.toNat then .raise .allocation s else .ok (s.setDlen imm.toNat)
  | .slen => if s.cfg.streamBytes < imm.toNat then .raise .allocation s else .ok (s.setSlen imm.toNat)
  | .status => .raise .badOperand s
  | .bitlen => .raise .badOperand s
  | .acc => .raise .badOperand s
  | .fill => .raise .badOperand s
  | .spos => .raise .badOperand s
  | .rpos => .raise .badOperand s
  | .result => .raise .badOperand s

/-- WREG reg, imm (R252). -/
def execWreg (reg : BitVec 8) (imm : BitVec 32) (s : State) : Result :=
  gate s (Res.answer
    (match Reg.ofAddr reg with
     | none => .raise .badOperand s
     | some r => writeReg r imm s) .hostCommand)

/-- RREG reg (R253): accepted in the fault state too (60_exceptions.md R282 (b)). -/
def execRreg (reg : BitVec 8) (s : State) : Result :=
  Res.answer
    (match Reg.ofAddr reg with
     | none => .raise .badOperand s
     | some r => .ok (s.respond (s.regValue r))) .hostCommand

end Sys2Proof.Machine
end

