-- ==== Sys2Proof/Machine/Dispatch.lean ====
section
/-! DEFINITION. One arm per instruction: the meaning of each. -/

namespace Sys2Proof.Machine
open Sys2Proof

def exec (i : Instr) (s : State) : Host.Outcome State Fault Refusal :=
  match i with
  | .reset => Sys2Proof.Machine.execReset s
  | .wreg reg imm => Sys2Proof.Machine.execWreg reg imm s
  | .rreg reg => Sys2Proof.Machine.execRreg reg s
  | .winit => Sys2Proof.Machine.execWinit s
  | .wbits n imm => Sys2Proof.Machine.execWbits n imm s
  | .wflush => Sys2Proof.Machine.execWflush s
  | .rinit => Sys2Proof.Machine.execRinit s
  | .rbits n => Sys2Proof.Machine.execRbits n s
  | .deint => Sys2Proof.Machine.execDeint s
  | .int => Sys2Proof.Machine.execInt s
  | .enc => Sys2Proof.Machine.execEnc s
  | .dec => Sys2Proof.Machine.execDec s
  | .hdr skipm1 stripm1 => Sys2Proof.Machine.execHdr skipm1 stripm1 s
  | .runW0 count => Sys2Proof.Machine.execRunW0 count s
  | .runW2 values => Sys2Proof.Machine.execRunW2 values s
  | .runW3 values => Sys2Proof.Machine.execRunW3 values s
  | .runW4 values => Sys2Proof.Machine.execRunW4 values s
  | .runW5 values => Sys2Proof.Machine.execRunW5 values s
  | .runW6 values => Sys2Proof.Machine.execRunW6 values s
  | .runW7 values => Sys2Proof.Machine.execRunW7 values s
  | .runW8 values => Sys2Proof.Machine.execRunW8 values s
  | .endMark => Sys2Proof.Machine.execEndMark s

end Sys2Proof.Machine
end

