-- ==== Sys2Proof/Machine/Fetch.lean ====
section
/-! DEFINITION. What the block does next: the host's next action, or, in a DEC that has begun, the next stream element;
and the placing of one instruction there. -/

namespace Sys2Proof.Machine

/-- What the next step does, and the state it does it in. -/
inductive Fetched where
  /-- the host has asked for nothing: the block waits -/
  | idle
  /-- an instruction, and the state with its word taken from the command port -/
  | instr (i : Instr) (s : State)
  /-- anything else the host or DEC's control flow does: its answer -/
  | other (r : Result)

/-- A command word is accepted (44_host_commands.md R250, 30_encoding.md R94): it is a command, or it raises
`IllegalCommand`. The fault gate is in the commands' meanings, and a raise changes nothing while a fault is latched
(60_exceptions.md R282 (c); log 14). -/
def acceptCommand (w : CommandWord) (s : State) : Fetched :=
  match decodeCommand w with
  | .ok i => .instr i s
  | .error _ => .other (.next (s.raise .illegalCommand .commandDecode))

/-- The host writes bytes of a memory, below its capacity (70_reset_and_hazards.md R320; 20_memory.md R67). -/
def hostWrite (sp : Space) (cap addr : Nat) (bytes : List Byte) (after : Result) : Result :=
  if cap < addr + bytes.length then .fault (.noSuchAddress sp addr) else after

/-- The host reads a byte of a memory: only a byte of the valid part holds a value (10_state.md R45). Of any other, "a host
read of it is refused" (00_scope.md R18; 93_implementation_defined.md U1). -/
def hostRead (sp : Space) (m : Memory) (cap len addr : Nat) (s : State) : Result :=
  if cap ≤ addr then .fault (.noSuchAddress sp addr)
  else if len ≤ addr then .refused (.unspecifiedByte sp addr)
  else
    match m.value sp addr with
    | .ok b => .next { s with hostReads := s.hostReads ++ [b] }
    | .error e => .refused e

/-- One action of the host, taken between commands (70_reset_and_hazards.md R320; log 8). -/
def hostAction (a : HostAction) (s : State) : Fetched :=
  match a with
  | .command w => acceptCommand w s
  | .writeData addr bytes =>
    .other (hostWrite .data s.cfg.dataBytes addr bytes (.next { s with data := s.data.writeAll addr bytes }))
  | .writeStream addr bytes =>
    .other (hostWrite .stream s.cfg.streamBytes addr bytes (.next { s with stream := s.stream.writeAll addr bytes }))
  | .readData addr => .other (hostRead .data s.data s.cfg.dataBytes s.dlen.toNat addr s)
  | .readStream addr => .other (hostRead .stream s.stream s.cfg.streamBytes s.slen.toNat addr s)
  | .resetInput => .other (.next s.toReset)

/-- The element at the cursor as the instruction it is. -/
def elementFetched (el : Element) (s : State) : Fetched :=
  match el with
  | .found el => .instr el.toInstr s
  | .refused r => .other (.refused r)
  | .cutShort => .other (.next (s.raise .truncatedStream .decoder))

/-- What the next step does (log 6). -/
def fetch (s : State) : Fetched :=
  match s.phase with
  | .idle =>
    match s.inputs with
    | [] => .idle
    | a :: rest => hostAction a { s with inputs := rest }
  | .header => elementFetched (fetchHeader s) s
  | .tokens => elementFetched (fetchToken s) s
  | .finish => .other (finishDecode s)

/-- The state with a command word next at the command port. -/
def State.withCommand (s : State) (w : CommandWord) : State :=
  { s with phase := .idle, inputs := .command w :: s.inputs }

/-- How many bytes hold the longest token: `ceil(1026 / 8)` (30_encoding.md R106). -/
def longestTokenBytes : Nat := 129

/-- The state with the bits of a stream element at the front of the stream, zeros after them, and a DEC standing there. -/
def State.withElement (s : State) (phase : Phase) (bits : List Bool) : State :=
  { s with
    phase := phase
    rpos := 0
    underrun := false
    slen := BitVec.ofNat 32 longestTokenBytes
    stream := s.stream.writeAll 0 (packBytes longestTokenBytes bits) }

/-- The state in which the next step fetches the instruction whose bits are `w`, numbered as `spec/opcode_table.json`
numbers them (log 6, log 11). -/
def placeTableWord (s : State) (nbits w : Nat) : State :=
  if nbits = 48 then s.withCommand (BitVec.ofNat 48 w)
  else if nbits ≤ 16 then s.withElement .tokens (tableBits nbits w)
  else s.withElement .header (tableBits nbits w)

end Sys2Proof.Machine
end

