-- ==== Sys2Proof/Safety.lean ====
section
/-! DEFINITION. What counts as a sound state between commands, and the terms the claims are written in: reads of one
byte, frames, the state a fault leaves, and the chunk as a bit string. -/

namespace Sys2Proof.Machine

/-! ## The invariant between commands -/

/-- What holds between any two commands, whatever the host does. -/
structure State.Inv (s : State) : Prop where
  /-- the memories have their canonical form -/
  data_wf : s.data.wf
  stream_wf : s.stream.wf
  /-- no byte at or above a capacity (45_arithmetic_control_access.md R266) -/
  data_below : ∀ c ∈ s.data, c.1 < s.cfg.dataBytes
  stream_below : ∀ c ∈ s.stream, c.1 < s.cfg.streamBytes
  /-- no command is running: the working registers and `SCRATCH` hold nothing (10_state.md R20) -/
  idle : s.phase = .idle
  enc_idle : s.enc = {}
  dec_idle : s.dec = {}
  scratch_empty : s.scratch = []
  /-- `CAUSE` is 0 exactly without a fault, and never 6 or 7 (10_state.md R22, 60_exceptions.md R270) -/
  cause_zero : s.fault = false ↔ s.cause = 0
  cause_legal : s.cause.toNat ≤ 5
  /-- a fault has lost the session (R280 (2)) -/
  fault_mode : s.fault = true → s.bsmode = .none
  /-- the length registers and the packer position are within the capacities (R261) -/
  dlen_cap : s.dlen.toNat ≤ s.cfg.dataBytes
  slen_cap : s.slen.toNat ≤ s.cfg.streamBytes
  spos_cap : s.spos.toNat ≤ s.cfg.streamBytes
  /-- the bits of `ACC` above bit `FILL - 1` are 0 (10_state.md R31) -/
  acc_below : s.acc.toNat < 2 ^ s.fill.toNat
  /-- in a write session `SPOS` is a multiple of 4 and `BITLEN = 8 * SPOS + FILL` (10_state.md R32) -/
  session : s.bsmode = .write → s.spos.toNat % 4 = 0 ∧ s.bitlen.toNat = 8 * s.spos.toNat + s.fill.toNat
  /-- after a flush nothing is pending and `SPOS` is the chunk's length in bytes (10_state.md R30, R32) -/
  closed : s.bsmode = .closed → s.fill = 0 ∧ s.spos.toNat = (s.bitlen.toNat + 7) / 8

/-! ## Reads of one byte -/

/-- Every byte of `lo .. hi-1` holds a value (70_reset_and_hazards.md R316: "written every byte"). -/
def written (m : Memory) (lo hi : Nat) : Prop := ∀ a, lo ≤ a → a < hi → (m.read a).isSome = true

/-- Every address reads as before. -/
def sameBytes (m m' : Memory) : Prop := ∀ a, m'.read a = m.read a

/-- No byte holds a value. -/
def unspecified (m : Memory) : Prop := ∀ a, m.read a = none

/-- The byte at an address as an integer (0 where it holds none: used only where it holds one). -/
def byteAt (m : Memory) (a : Nat) : Int := ((m.read a).getD 0).toNat

/-! ## Frames: groups of fields that stay -/

def sameFlags (s t : State) : Prop :=
  t.fault = s.fault ∧ t.cause = s.cause ∧ t.bsmode = s.bsmode ∧ t.underrun = s.underrun

def sameParams (s t : State) : Prop := t.skip = s.skip ∧ t.strip = s.strip ∧ t.block = s.block

def samePacker (s t : State) : Prop :=
  t.bitlen = s.bitlen ∧ t.acc = s.acc ∧ t.fill = s.fill ∧ t.spos = s.spos

/-- The host's side of the block and the capacities. -/
def samePorts (s t : State) : Prop :=
  t.inputs = s.inputs ∧ t.responses = s.responses ∧ t.hostReads = s.hostReads ∧ t.cfg = s.cfg

/-! ## The states that faults leave -/

/-- The command is over and nothing else has changed. -/
def commandOver (s : State) : State := { s with phase := .idle, enc := {}, dec := {}, scratch := [] }

/-- A fault of cause `c` is latched, the session is lost, the command is over, and nothing is invalidated
(60_exceptions.md R280 (1), (2)). -/
def faulted (s : State) (c : BitVec 3) : State :=
  { commandOver s with fault := true, cause := c, bsmode := .none }

/-- The packer's outputs are invalidated as well (R280: WBITS, WFLUSH, ENC in the scratch check). -/
def faultedPacker (s : State) (c : BitVec 3) : State := { faulted s c with slen := 0, stream := [] }

/-! ## Command words -/

/-- The twelve operation codes (30_encoding.md R91). -/
def legalOps : List (BitVec 8) := [0x01, 0x02, 0x03, 0x10, 0x11, 0x12, 0x13, 0x14, 0x20, 0x21, 0x30, 0x31]

/-- The operation codes of format Z (R90, R91). -/
def formatZOps : List (BitVec 8) := [0x01, 0x10, 0x12, 0x13, 0x20, 0x21, 0x30, 0x31]

/-- `op` is none of the twelve, or a field that the format requires to be zero is not (R92). -/
def illegalWord (w : CommandWord) : Prop :=
  commandOp w ∉ legalOps ∨
  (commandOp w ∈ formatZOps ∧ (commandA w ≠ 0 ∨ commandImm w ≠ 0)) ∨
  ((commandOp w = 0x03 ∨ commandOp w = 0x14) ∧ commandImm w ≠ 0)

/-- The instruction is a host command, not a stream element. -/
def isCommand (i : Instr) : Bool :=
  match encode i with
  | .command _ => true
  | .header _ => false
  | .token _ => false

/-- What RREG of an address returns, as a number; `none` for an unimplemented address (10_state.md R21;
44_host_commands.md R253). -/
def registerNat (s : State) (addr : Nat) : Option Nat :=
  match addr with
  | 0x00 => some (s.fault.toNat + 2 * s.cause.toNat + 16 * s.bsmode.code.toNat + 64 * s.underrun.toNat)
  | 0x01 => some s.skip.toNat
  | 0x02 => some s.strip.toNat
  | 0x03 => some s.block.toNat
  | 0x04 => some s.dlen.toNat
  | 0x05 => some s.slen.toNat
  | 0x06 => some s.bitlen.toNat
  | 0x07 => some s.acc.toNat
  | 0x08 => some s.fill.toNat
  | 0x09 => some s.spos.toNat
  | 0x0A => some (s.rpos % 2 ^ 64)
  | 0x0B => some s.result.toNat
  | _ => none

/-! ## The stream as bits -/

/-- Stream bit `k` of the zero-extended stream, where its byte holds a value (00_scope.md R11). -/
def streamBit (s : State) (k : Nat) : Bool :=
  decide (k < 8 * s.slen.toNat) && ((s.stream.read (k / 8)).getD 0).getLsbD (7 - k % 8)

/-- Every byte of the valid stream that holds one of the bits `p .. p+n-1` holds a value. -/
def bitsWritten (s : State) (p n : Nat) : Prop :=
  ∀ k, p ≤ k → k < p + n → k < 8 * s.slen.toNat → (s.stream.read (k / 8)).isSome = true

/-- The bits of the zero-extended stream from `p` on are `bs`. -/
def streamHolds (s : State) (p : Nat) (bs : List Bool) : Prop :=
  ∀ j, (h : j < bs.length) → sbit s (p + j) = .ok bs[j]

/-- The bit string of a write session's fields `(v, n)` (40_bitstream.md R135). -/
def sessionBits : List (Nat × Nat) → List Bool
  | [] => []
  | f :: fs => toBits f.2 f.1 ++ sessionBits fs

/-- The `bs_write`s of a session, in order (R135). -/
def writeFields : List (Nat × Nat) → State → Res
  | [], s => .ok s
  | f :: fs, s => (bsWrite f.1 f.2 s).andThen (writeFields fs)

/-- `bs_read` of each of the widths, in order: the values, and the state after (R145). -/
def readFields : List Nat → State → Except Refusal (List Nat × State)
  | [], s => .ok ([], s)
  | n :: ns, s =>
    match bsRead n s with
    | .error e => .error e
    | .ok (v, t) =>
      match readFields ns t with
      | .error e => .error e
      | .ok (vs, u) => .ok (v :: vs, u)

/-! ## Tokens -/

/-- The run width and the value fields of a RUN token. -/
def runFields (i : Instr) : Option (Nat × List Nat) :=
  match i with
  | .runW0 count => some (0, List.replicate count.toNat 0)
  | .runW2 values => some (2, values.map BitVec.toNat)
  | .runW3 values => some (3, values.map BitVec.toNat)
  | .runW4 values => some (4, values.map BitVec.toNat)
  | .runW5 values => some (5, values.map BitVec.toNat)
  | .runW6 values => some (6, values.map BitVec.toNat)
  | .runW7 values => some (7, values.map BitVec.toNat)
  | .runW8 values => some (8, values.map BitVec.toNat)
  | .reset => none
  | .wreg _ _ => none
  | .rreg _ => none
  | .winit => none
  | .wbits _ _ => none
  | .wflush => none
  | .rinit => none
  | .rbits _ => none
  | .deint => none
  | .int => none
  | .enc => none
  | .dec => none
  | .hdr _ _ => none
  | .endMark => none

/-- Of the bits of an element, those that DEC reads at a state: all of them, but for the values of a RUN token behind the
first one that does not fit in `DATA`, where it raises `Allocation` (43_decode.md R220, R226). -/
def bitsReached (s : State) (i : Instr) (bits : List Bool) : List Bool :=
  match runFields i with
  | some (width, values) => bits.take (10 + width * min values.length (s.cfg.dataBytes - s.dec.n + 1))
  | none => bits

/-- One RUN token as (run width, value fields): the width is a run width, the count is `1 .. 127`, each field fits. -/
def tokenOk (tok : Nat × List Nat) : Prop :=
  tok.1 ∈ [0, 2, 3, 4, 5, 6, 7, 8] ∧ 1 ≤ tok.2.length ∧ tok.2.length ≤ 127 ∧ ∀ u ∈ tok.2, u < 2 ^ tok.1

/-- The value fields of a token as bits. -/
def valueBits (width : Nat) : List Nat → List Bool
  | [] => []
  | u :: us => toBits width u ++ valueBits width us

/-- A token as bits: count, code, values (30_encoding.md R99). -/
def tokenCode (tok : Nat × List Nat) : List Bool :=
  toBits 7 tok.2.length ++ toBits 3 (code tok.1) ++ valueBits tok.1 tok.2

/-- Tokens back to back (R97). -/
def tokensCode : List (Nat × List Nat) → List Bool
  | [] => []
  | tok :: toks => tokenCode tok ++ tokensCode toks

/-- A chunk without its pad: the header and the tokens (R97, R98). -/
def chunkBits (skipm1 : BitVec 2) (stripm1 : BitVec 16) (toks : List (Nat × List Nat)) : List Bool :=
  toBits 2 skipm1.toNat ++ toBits 16 stripm1.toNat ++ tokensCode toks

/-- How many bytes tokens decode to. -/
def tokensCount : List (Nat × List Nat) → Nat
  | [] => 0
  | tok :: toks => tok.2.length + tokensCount toks

/-- The gradient term over a list of bytes (42_encode.md R181). -/
def listGrad (q : List Byte) (t : Nat) : Int :=
  if 1 < t ∧ t < q.length then
    ((q.getD (q.length - t) 0).toNat : Int) - ((q.getD (q.length - t - 1) 0).toNat : Int)
  else 0

/-- The output after one more value: the byte of 43_decode.md R225 at its end. -/
def listAppend (t width : Nat) (q : List Byte) (u : Nat) : List Byte :=
  q ++ [wrapU8 (((q.getLastD 0).toNat : Int) + listGrad q t + (u : Int) - (bias width : Int))]

/-- The decoded bytes of tokens, still deinterleaved, after the bytes `q`. -/
def listDecode (t : Nat) : List (Nat × List Nat) → List Byte → List Byte
  | [], q => q
  | tok :: toks, q => listDecode t toks (tok.2.foldl (listAppend t tok.1) q)

/-- The transposition of `len` bytes moves nothing, or `SCRATCH` holds its largest window: `len` bytes for `BLOCK = 0`,
else `min(len, stride * BLOCK)` (20_memory.md R66, 41_transposer.md R163). -/
def scratchFits (s : State) (stride len : Nat) : Prop :=
  stride ≤ 1 ∨ (if s.block = 0 then len else min len (stride * s.block.toNat)) ≤ s.cfg.scratchBytes

/-- Where the cursor stands after a RUN token of width `width` at `pos` has been found to run off a stream of `slen` bytes:
just behind its count field, its code field, or the first value that reaches a bit at or beyond `8 * slen`
(60_exceptions.md R275). -/
def truncatedAt (pos width slen : Nat) : Nat :=
  if 8 * slen < pos + 7 then pos + 7
  else if 8 * slen < pos + 10 then pos + 10
  else pos + 10 + ((8 * slen - (pos + 10)) / width + 1) * width

end Sys2Proof.Machine
end

