-- ==== Sys2Proof/Certificates/Slice0/Obligations.lean ====
section
/-! DEFINITION. The statements for the provers: each formalises rules of the spec about the model. Their titles, texts and
citations are in OBLIGATIONS.json. -/

open Sys2Proof Sys2Proof.Machine

/-! ## Encoding -/

/-- A few words written out from 30_encoding.md R91 and 95_test_vectors.md decode to their instructions. -/
def Obligations.SampleWordsDecode : Prop :=
  decodeTableWord 48 0x010000000000 = some .reset ∧
  decodeTableWord 48 0x0202000000FF = some (.wreg 0x02 255) ∧
  decodeTableWord 48 0x030A00000000 = some (.rreg 0x0A) ∧
  decodeTableWord 48 0x110300000005 = some (.wbits 3 5) ∧
  decodeTableWord 48 0x142100000000 = some (.rbits 33) ∧
  decodeTableWord 48 0x210000000000 = some .int ∧
  decodeTableWord 48 0x310000000000 = some .dec ∧
  decodeTableWord 48 0x300000000001 = none ∧
  decodeTableWord 48 0xFF0000000000 = none ∧
  decodeTableWord 24 0b100000001010111011 = some (.hdr 2 699) ∧
  decodeTableWord 16 0b0001001000 = some (.runW0 9) ∧
  decodeTableWord 16 0b0000011001 = some (.runW2 [0, 0, 0]) ∧
  decodeTableWord 8 0b0000000 = some .endMark

/-- Decoding the encoding of a well-formed instruction gives it back, with every operand (R90, R91, R98, R99). -/
def Obligations.DecodeOfEncode : Prop :=
  ∀ i : Instr, wellFormed i = true → decode (encode i) = .ok i

/-- A word that is a command is that command's one encoding: no two words are one command's, no two rows overlap
(R94). -/
def Obligations.CommandWordIsItsEncoding : Prop :=
  ∀ (w : CommandWord) (i : Instr), decodeCommand w = .ok i → encode i = .command w

/-- The words that are no command are exactly those of R92. -/
def Obligations.RejectedWordsAreTheIllegalOnes : Prop :=
  ∀ w : CommandWord, (∃ e, decodeCommand w = .error e) ↔ illegalWord w

/-! ## Width, code, bias, wrap -/

/-- `W(v)` is the smallest width whose biased form holds the residual `v`, and at most 8; and its two explicit forms
(R100). -/
def Obligations.WidthIsTheSmallestThatFits : Prop :=
  ∀ v : Int, -128 ≤ v → v ≤ 127 →
    width v ≤ 8 ∧ fits (width v) v = true ∧ (∀ b, b < width v → fits b v = false) ∧
    (v = 0 → width v = 0) ∧
    (v < 0 → 1 ≤ width v ∧ -v ≤ 2 ^ (width v - 1) ∧ ∀ b : Nat, 1 ≤ b → b < width v → (2 : Int) ^ (b - 1) < -v) ∧
    (0 < v → 1 ≤ width v ∧ v < 2 ^ (width v - 1) ∧ ∀ b : Nat, 1 ≤ b → b < width v → (2 : Int) ^ (b - 1) ≤ v)

/-- Adding the wrapped residual to the prediction and wrapping gives the byte back, whatever the prediction (R262 (a)). -/
def Obligations.WrappedResidualRecoversByte : Prop :=
  ∀ (y : Byte) (p : Int), wrapU8 (p + wrapS8 ((y.toNat : Int) - p)) = y

/-! ## The step and the host -/

/-- A step on a command word at the port runs the command it decodes to, the word taken from the port (R94, R250). -/
def Obligations.StepRunsIssuedCommand : Prop :=
  ∀ (s : State) (w : CommandWord) (rest : List HostAction) (i : Instr),
    s.phase = .idle → s.inputs = .command w :: rest → decodeCommand w = .ok i →
    step s = exec i { s with inputs := rest }

/-- A step inside a DEC runs the element whose bits lie at the cursor (R222, R223). Only the bits that DEC reads need be
there: what lies behind the first value that does not fit in `DATA` is not read (R220, R226). -/
def Obligations.StepRunsStreamElement : Prop :=
  ∀ (s : State) (i : Instr) (bits : List Bool), wellFormed i = true →
    (s.phase = .header ∧ encode i = .header bits) ∨ (s.phase = .tokens ∧ encode i = .token bits) →
    streamHolds s s.rpos (bitsReached s i bits) → step s = exec i s

/-- `withFetchWord` places a command word where the next step takes it, and a stream element's bits where the next step
reads them (log 6, log 11: the model's interface). -/
def Obligations.PlacedWordRunsNext : Prop :=
  ∀ (s : State) (nbits w : Nat) (i : Instr), decodeTableWord nbits w = some i →
    (nbits = 48 → step (s.withFetchWord nbits w) = exec i { s with phase := .idle }) ∧
    (nbits ≤ 24 → step (s.withFetchWord nbits w) = exec i (s.withFetchWord nbits w))

/-- An illegal word latches `IllegalCommand`, no command body runs and no output is invalidated (R271, R280); while a
fault is latched it changes nothing (R282 (a), (c)). -/
def Obligations.IllegalWordRaises : Prop :=
  ∀ (s : State) (w : CommandWord) (rest : List HostAction),
    s.phase = .idle → s.inputs = .command w :: rest → illegalWord w →
    (s.fault = false → step s = .next { faulted s 1 with inputs := rest }) ∧
    (s.fault = true → step s = .next { commandOver s with inputs := rest })

/-- The fault gate: while a fault is latched every command but RESET and RREG is dropped (R250 (1), R282 (a)). -/
def Obligations.FaultGateDropsCommands : Prop :=
  ∀ (i : Instr) (s : State), isCommand i = true → i ≠ .reset → (∀ r, i ≠ .rreg r) → s.fault = true →
    exec i s = .next s

/-- The only ways out of the fault state are the RESET command and the reset input (R284, R310). -/
def Obligations.OnlyResetLeavesTheFaultState : Prop :=
  ∀ s t : State, s.phase = .idle → s.fault = true → step s = .next t → t.fault = false →
    ∃ rest, s.inputs = .command 0x010000000000 :: rest ∨ s.inputs = .resetInput :: rest

/-- While a fault is latched no instruction but RESET changes `FAULT` or `CAUSE` (R22, R282 (c)). -/
def Obligations.FirstCauseIsKept : Prop :=
  ∀ (i : Instr) (s t : State), s.fault = true → i ≠ .reset → exec i s = .next t →
    t.fault = true ∧ t.cause = s.cause

/-- The host writes bytes below the capacity: they hold the values written, and nothing else changes (R67, R320). -/
def Obligations.HostWritesHoldTheirBytes : Prop :=
  ∀ (s : State) (addr : Nat) (bytes : List Byte) (rest : List HostAction), s.phase = .idle →
    (s.inputs = .writeData addr bytes :: rest → addr + bytes.length ≤ s.cfg.dataBytes →
      ∃ t, step s = .next t ∧ t = { s with inputs := rest, data := t.data } ∧
        (∀ j, (h : j < bytes.length) → t.data.read (addr + j) = some bytes[j]) ∧
        ∀ a, a < addr ∨ addr + bytes.length ≤ a → t.data.read a = s.data.read a) ∧
    (s.inputs = .writeStream addr bytes :: rest → addr + bytes.length ≤ s.cfg.streamBytes →
      ∃ t, step s = .next t ∧ t = { s with inputs := rest, stream := t.stream } ∧
        (∀ j, (h : j < bytes.length) → t.stream.read (addr + j) = some bytes[j]) ∧
        ∀ a, a < addr ∨ addr + bytes.length ≤ a → t.stream.read a = s.stream.read a)

/-- A host read of a valid byte returns it (R320). Of an unspecified one it is refused (R18; its form: log 2). Beyond the
capacity it is a fault: the model's choice (log 8). -/
def Obligations.HostReadsOnlyValidBytes : Prop :=
  ∀ (s : State) (addr : Nat) (rest : List HostAction), s.phase = .idle →
    (s.inputs = .readData addr :: rest →
      (∀ b, addr < s.cfg.dataBytes → addr < s.dlen.toNat → s.data.read addr = some b →
        step s = .next { s with inputs := rest, hostReads := s.hostReads ++ [b] }) ∧
      (addr < s.cfg.dataBytes → (s.dlen.toNat ≤ addr ∨ s.data.read addr = none) →
        step s = .refused (.unspecifiedByte .data addr)) ∧
      (s.cfg.dataBytes ≤ addr → step s = .fault (.noSuchAddress .data addr))) ∧
    (s.inputs = .readStream addr :: rest →
      (∀ b, addr < s.cfg.streamBytes → addr < s.slen.toNat → s.stream.read addr = some b →
        step s = .next { s with inputs := rest, hostReads := s.hostReads ++ [b] }) ∧
      (addr < s.cfg.streamBytes → (s.slen.toNat ≤ addr ∨ s.stream.read addr = none) →
        step s = .refused (.unspecifiedByte .stream addr)) ∧
      (s.cfg.streamBytes ≤ addr → step s = .fault (.noSuchAddress .stream addr)))

/-! ## Reset -/

/-- RESET gives the reset state from every state, a latched fault or not: every register reads 0 and every byte of the
memories is unspecified; the working registers are idle (log 9) and the host's side stays (log 17). The reset input,
between commands, does the same (R251, R310, R311; log 8). -/
def Obligations.ResetCommandGivesResetState : Prop :=
  (∀ s : State, ∃ t, exec .reset s = .next t ∧
    (∀ a n, registerNat t a = some n → n = 0) ∧ t.rpos = 0 ∧ t.bsmode = .none ∧
    unspecified t.data ∧ unspecified t.stream ∧ unspecified t.scratch ∧
    t.phase = .idle ∧ t.enc = {} ∧ t.dec = {} ∧ samePorts s t) ∧
  ∀ (s : State) (rest : List HostAction), s.phase = .idle → s.inputs = .resetInput :: rest →
    step s = exec .reset { s with inputs := rest }

/-- After power-on every register of R21 is 0 and every byte of the memories is unspecified (R47, R310, R311). -/
def Obligations.PowerOnState : Prop :=
  (∀ a n, registerNat State.reset a = some n → n = 0) ∧ State.reset.rpos = 0 ∧
  unspecified State.reset.data ∧ unspecified State.reset.stream ∧ unspecified State.reset.scratch

/-! ## WREG, RREG -/

/-- WREG of `SKIP`, `STRIP`, `BLOCK` stores the value as given and changes nothing else (R25, R26, R27, R252). -/
def Obligations.WregStoresParameters : Prop :=
  ∀ (s : State) (imm : BitVec 32), s.fault = false →
    (imm.toNat ≤ 3 → ∃ v, v.toNat = imm.toNat ∧ exec (.wreg 0x01 imm) s = .next { s with skip := v }) ∧
    (imm.toNat ≤ 65535 → ∃ v, v.toNat = imm.toNat ∧ exec (.wreg 0x02 imm) s = .next { s with strip := v }) ∧
    exec (.wreg 0x03 imm) s = .next { s with block := imm }

/-- WREG of `DLEN` and `SLEN` up to the capacity stores the length (R28, R29, R252). Which bytes hold a value after it is
the model's reading: lowering a length makes the bytes at or above it unspecified, but for those that an open write
session has stored (log 3, log 4), and raising it takes no value away (log 20). -/
def Obligations.WregStoresLengths : Prop :=
  ∀ (s : State) (imm : BitVec 32), s.fault = false →
    (imm.toNat ≤ s.cfg.dataBytes →
      ∃ t, exec (.wreg 0x04 imm) s = .next t ∧ t = { s with dlen := imm, data := t.data } ∧
        ∀ a, t.data.read a =
          if imm.toNat < s.dlen.toNat ∧ imm.toNat ≤ a then none else s.data.read a) ∧
    (imm.toNat ≤ s.cfg.streamBytes →
      ∃ t, exec (.wreg 0x05 imm) s = .next t ∧ t = { s with slen := imm, stream := t.stream } ∧
        ∀ a, t.stream.read a =
          if imm.toNat < s.slen.toNat ∧ imm.toNat ≤ a ∧ ¬(s.bsmode = .write ∧ a < s.spos.toNat) then none
          else s.stream.read a)

/-- WREG of a read-only register or an unimplemented address, and of a value out of range, faults and writes nothing
(R252, R272, R274, R280). -/
def Obligations.WregRefusesBadOperands : Prop :=
  ∀ (s : State) (reg : BitVec 8) (imm : BitVec 32), s.fault = false →
    (reg ∉ ([0x01, 0x02, 0x03, 0x04, 0x05] : List (BitVec 8)) → exec (.wreg reg imm) s = .next (faulted s 2)) ∧
    (3 < imm.toNat → exec (.wreg 0x01 imm) s = .next (faulted s 2)) ∧
    (65535 < imm.toNat → exec (.wreg 0x02 imm) s = .next (faulted s 2)) ∧
    (s.cfg.dataBytes < imm.toNat → exec (.wreg 0x04 imm) s = .next (faulted s 4)) ∧
    (s.cfg.streamBytes < imm.toNat → exec (.wreg 0x05 imm) s = .next (faulted s 4))

/-- RREG returns the register's value on the response port, a latched fault or not, and changes nothing else; of an
unimplemented address it is `BadOperand`, and while a fault is latched changes nothing but that the command is over (R21, R22, R33, R253, R272,
R282 (b), (c)). -/
def Obligations.RregReturnsTheRegister : Prop :=
  ∀ (s : State) (reg : BitVec 8),
    (∀ n, registerNat s reg.toNat = some n →
      n < 2 ^ 64 ∧ exec (.rreg reg) s = .next { s with responses := s.responses ++ [BitVec.ofNat 64 n] }) ∧
    (0x0B < reg.toNat → s.fault = false → exec (.rreg reg) s = .next (faulted s 2)) ∧
    (0x0B < reg.toNat → s.fault = true → exec (.rreg reg) s = .next (commandOver s))

/-! ## BitStream -/

/-- WINIT opens an empty write session and touches nothing but the packer, `SLEN` and `BSMODE`; the bytes of `STREAM`
become unspecified (R131, R140). -/
def Obligations.WinitOpensEmptySession : Prop :=
  ∀ s : State, s.fault = false →
    exec .winit s = .next { s with
      acc := 0, fill := 0, spos := 0, bitlen := 0, slen := 0, stream := [], bsmode := .write }

/-- RINIT puts the cursor at the first stream bit, clears `UNDERRUN`, opens a read session, and touches nothing else
(R136, R143). -/
def Obligations.RinitOpensReadSession : Prop :=
  ∀ s : State, s.fault = false →
    exec .rinit s = .next { s with rpos := 0, underrun := false, bsmode := .read }

/-- WBITS with room left in the accumulator appends the low `n` bits of `imm` to it and stores nothing (R132, R141). -/
def Obligations.WbitsFillsTheAccumulator : Prop :=
  ∀ (s : State) (n : BitVec 8) (imm : BitVec 32), s.fault = false → s.bsmode = .write →
    s.acc.toNat < 2 ^ s.fill.toNat → s.fill.toNat + n.toNat < 32 →
    ∃ t, exec (.wbits n imm) s = .next t ∧
      t = { s with acc := t.acc, fill := t.fill, bitlen := s.bitlen + BitVec.ofNat 64 n.toNat } ∧
      t.acc.toNat = s.acc.toNat * 2 ^ n.toNat + imm.toNat % 2 ^ n.toNat ∧
      t.fill.toNat = s.fill.toNat + n.toNat

/-- WBITS that fills the accumulator stores one word, most significant byte at the lowest address, and keeps the bits
that did not fit; every other byte of `STREAM` reads as before (R60, R132, R133, R141). -/
def Obligations.WbitsStoresAFullWord : Prop :=
  ∀ (s : State) (n : BitVec 8) (imm : BitVec 32), s.fault = false → s.bsmode = .write →
    s.acc.toNat < 2 ^ s.fill.toNat → n.toNat ≤ 32 → 32 ≤ s.fill.toNat + n.toNat →
    s.spos.toNat + 4 ≤ s.cfg.streamBytes →
    ∃ t, exec (.wbits n imm) s = .next t ∧
      t = { s with acc := t.acc, fill := t.fill, spos := t.spos, stream := t.stream,
                   bitlen := s.bitlen + BitVec.ofNat 64 n.toNat } ∧
      t.fill.toNat = s.fill.toNat + n.toNat - 32 ∧
      t.acc.toNat = imm.toNat % 2 ^ n.toNat % 2 ^ (s.fill.toNat + n.toNat - 32) ∧
      t.spos.toNat = s.spos.toNat + 4 ∧
      (∀ j, j < 4 → t.stream.read (s.spos.toNat + j) = some (BitVec.ofNat 8
        ((s.acc.toNat * 2 ^ (32 - s.fill.toNat)
          + imm.toNat % 2 ^ n.toNat / 2 ^ (s.fill.toNat + n.toNat - 32)) / 2 ^ (24 - 8 * j)))) ∧
      ∀ a, a < s.spos.toNat ∨ s.spos.toNat + 4 ≤ a → t.stream.read a = s.stream.read a

/-- The faults of WBITS, WFLUSH and RBITS, in the order of R283: a `BSMODE` that does not allow the command is
`BadSequence`, then a bit count above 32 is `BadOperand`, then a word store beyond `STREAM_CAP` is `Allocation`. A fault
inside WBITS or WFLUSH leaves `SLEN` 0 and `STREAM` unspecified, and the packer's registers as before (R23, R133, R272,
R273, R274, R280). -/
def Obligations.BitCommandFaults : Prop :=
  ∀ (s : State) (n : BitVec 8) (imm : BitVec 32), s.fault = false →
    (s.bsmode ≠ .write → exec (.wbits n imm) s = .next (faultedPacker s 3)) ∧
    (s.bsmode ≠ .write → exec .wflush s = .next (faultedPacker s 3)) ∧
    (s.bsmode ≠ .read → exec (.rbits n) s = .next (faulted s 3)) ∧
    (s.bsmode = .write → 32 < n.toNat → exec (.wbits n imm) s = .next (faultedPacker s 2)) ∧
    (s.bsmode = .read → 32 < n.toNat → exec (.rbits n) s = .next (faulted s 2)) ∧
    (s.bsmode = .write → n.toNat ≤ 32 → 32 ≤ s.fill.toNat + n.toNat → s.cfg.streamBytes < s.spos.toNat + 4 →
      exec (.wbits n imm) s = .next (faultedPacker s 4)) ∧
    (s.bsmode = .write → 0 < s.fill.toNat → s.cfg.streamBytes < s.spos.toNat + 4 →
      exec .wflush s = .next (faultedPacker s 4))

/-- WFLUSH with bits pending stores them in `ceil(FILL / 8)` bytes, zeros after them, closes the session and sets the
length; the pad bytes are unspecified, and so is what a lowered `SLEN` leaves above it (R134, R142, R45; log 3, log 19). -/
def Obligations.WflushStoresThePendingBits : Prop :=
  ∀ s : State, s.fault = false → s.bsmode = .write → s.acc.toNat < 2 ^ s.fill.toNat → 0 < s.fill.toNat →
    s.spos.toNat + 4 ≤ s.cfg.streamBytes →
    ∃ t, exec .wflush s = .next t ∧
      t = { s with acc := 0, fill := 0, spos := t.spos, slen := t.spos, stream := t.stream, bsmode := .closed } ∧
      t.spos.toNat = s.spos.toNat + (s.fill.toNat + 7) / 8 ∧
      (∀ j, j < (s.fill.toNat + 7) / 8 → t.stream.read (s.spos.toNat + j) = some (BitVec.ofNat 8
        (s.acc.toNat * 2 ^ (32 - s.fill.toNat) / 2 ^ (24 - 8 * j)))) ∧
      (∀ a, t.spos.toNat ≤ a → a < s.spos.toNat + 4 → t.stream.read a = none) ∧
      (∀ a, a < s.spos.toNat → t.stream.read a = s.stream.read a) ∧
      ∀ a, s.spos.toNat + 4 ≤ a →
        t.stream.read a = if t.spos.toNat < s.slen.toNat then none else s.stream.read a

/-- WFLUSH with nothing pending stores nothing, closes the session and sets the length (R134, R142; log 3). -/
def Obligations.WflushWithNothingPending : Prop :=
  ∀ s : State, s.fault = false → s.bsmode = .write → s.fill = 0 →
    ∃ t, exec .wflush s = .next t ∧ t = { s with slen := s.spos, stream := t.stream, bsmode := .closed } ∧
      ∀ a, t.stream.read a =
        if s.spos.toNat < s.slen.toNat ∧ s.spos.toNat ≤ a then none else s.stream.read a

/-- RBITS returns the next `n` stream bits, the first most significant, zeros from `8 * SLEN` on, advances the cursor, and
sets `UNDERRUN` exactly by R138 (R137, R138, R144, R34). -/
def Obligations.RbitsReturnsTheNextBits : Prop :=
  ∀ (s : State) (n : BitVec 8), s.fault = false → s.bsmode = .read → n.toNat ≤ 32 →
    bitsWritten s s.rpos n.toNat →
    ∃ v, v < 2 ^ n.toNat ∧ (∀ j, j < n.toNat → v.testBit (n.toNat - 1 - j) = streamBit s (s.rpos + j)) ∧
      exec (.rbits n) s = .next { s with
        result := BitVec.ofNat 32 v
        responses := s.responses ++ [BitVec.ofNat 64 v]
        rpos := s.rpos + n.toNat
        underrun := s.underrun || (decide (1 ≤ n.toNat) && decide (8 * s.slen.toNat < s.rpos + n.toNat)) }

/-- RBITS that touches an unspecified byte below `SLEN` is refused (R316, U1). -/
def Obligations.RbitsNeedsWrittenBytes : Prop :=
  ∀ (s : State) (n : BitVec 8), s.fault = false → s.bsmode = .read → n.toNat ≤ 32 →
    ¬ bitsWritten s s.rpos n.toNat →
    ∃ a, s.stream.read a = none ∧ a < s.slen.toNat ∧ exec (.rbits n) s = .refused (.unspecifiedByte .stream a)

/-- The packing law: after a write session the stream is the session's bit string, padded with zeros to whole bytes
(R135). -/
def Obligations.PackingLaw : Prop :=
  ∀ (s t : State) (fs : List (Nat × Nat)), (∀ f ∈ fs, f.2 ≤ 32) →
    (writeFields fs (bsWinit s)).andThen bsFlush = .ok t →
    t.bitlen.toNat = (sessionBits fs).length ∧
    t.slen.toNat = ((sessionBits fs).length + 7) / 8 ∧
    ∀ k, k < 8 * t.slen.toNat → sbit t k = .ok ((sessionBits fs).getD k false)

/-- The mirror law: reads of the same widths return the fields, and none sets `UNDERRUN`; reads of any other widths
return the corresponding pieces of the bit string, the pad zeros and the zeros beyond the end (R145). -/
def Obligations.MirrorLaw : Prop :=
  ∀ (s t : State) (fs : List (Nat × Nat)), (∀ f ∈ fs, f.2 ≤ 32) →
    (writeFields fs (bsWinit s)).andThen bsFlush = .ok t →
    (∃ u, readFields (fs.map (fun f => f.2)) (bsRinit t) = .ok (fs.map (fun f => f.1 % 2 ^ f.2), u) ∧
      u.underrun = false ∧ u.rpos = t.bitlen.toNat) ∧
    ∀ ns : List Nat, (∀ n ∈ ns, n ≤ 32) →
      ∃ vs u, readFields ns (bsRinit t) = .ok (vs, u) ∧ vs.length = ns.length ∧ u.rpos = ns.sum ∧
        (∀ f ∈ vs.zip ns, f.1 < 2 ^ f.2) ∧
        sessionBits (vs.zip ns) = (sessionBits fs ++ List.replicate ns.sum false).take ns.sum

/-! ## PlaneTransposer -/

/-- Channel `c` has `pl(c)` positions, one more for the first `len mod s` channels; `dest(len, s, .)` is a bijection of
`0 .. len-1` onto itself, puts the planes one after another in channel order, keeps the order within a channel, and is
the identity where every channel has at most one element (R162). -/
def Obligations.DestPermutesTheWindow : Prop :=
  ∀ len stride : Nat, 0 < stride →
    (∀ c, c < stride →
      planeLen len stride c = ((List.range len).filter (fun j => decide (j % stride = c))).length ∧
      planeLen len stride c = len / stride + if c < len % stride then 1 else 0) ∧
    (∀ j, j < len → dest len stride j < len) ∧
    (∀ j j', j < len → j' < len → dest len stride j = dest len stride j' → j = j') ∧
    (∀ p, p < len → ∃ j, j < len ∧ dest len stride j = p) ∧
    (∀ j j', j < len → j' < len → j % stride < j' % stride → dest len stride j < dest len stride j') ∧
    (∀ j j', j < j' → j' < len → j % stride = j' % stride → dest len stride j < dest len stride j') ∧
    (len ≤ stride → ∀ j, j < len → dest len stride j = j)

/-- The windows (R161): with `block = 0` the one window is the whole buffer; else window `q` is the `stride * block` bytes
from `q * stride * block` on, as many as fit, and the last is what is left, possibly nothing. They start at multiples of
the stride, lie inside the buffer, and every byte of it is in exactly one. -/
def Obligations.WindowsPartitionTheBuffer : Prop :=
  ∀ len stride block : Nat, 0 < stride →
    (block = 0 → windows len stride block = [(0, len)]) ∧
    (0 < block →
      (windows len stride block).length = len / (stride * block) + 1 ∧
      (∀ q, q < len / (stride * block) →
        (windows len stride block)[q]? = some (q * (stride * block), stride * block)) ∧
      (windows len stride block)[len / (stride * block)]? =
        some (len / (stride * block) * (stride * block), len % (stride * block))) ∧
    (∀ win ∈ windows len stride block, stride ∣ win.1 ∧ win.1 + win.2 ≤ len) ∧
    ∀ a, a < len → ∃ win ∈ windows len stride block, win.1 ≤ a ∧ a < win.1 + win.2 ∧
      ∀ win' ∈ windows len stride block, win'.1 ≤ a → a < win'.1 + win'.2 → win' = win

/-- DEINT moves each byte of each window to its place, INT moves it back, and they touch nothing but `DATA` and `SCRATCH`; with `skip = 1`
nothing moves (R164 to R167; log 5). -/
def Obligations.TransposerMovesEachByte : Prop :=
  ∀ s : State, s.fault = false → scratchFits s s.stride s.dlen.toNat →
    (∃ t, exec .deint s = .next t ∧ t = { s with data := t.data, scratch := t.scratch } ∧
      (∀ win ∈ windows s.dlen.toNat s.stride s.block.toNat, ∀ j, j < win.2 →
        t.data.read (win.1 + dest win.2 s.stride j) = s.data.read (win.1 + j)) ∧
      (∀ a, s.dlen.toNat ≤ a → t.data.read a = s.data.read a) ∧
      (s.stride = 1 → sameBytes s.data t.data)) ∧
    (∃ t, exec .int s = .next t ∧ t = { s with data := t.data, scratch := t.scratch } ∧
      (∀ win ∈ windows s.dlen.toNat s.stride s.block.toNat, ∀ j, j < win.2 →
        t.data.read (win.1 + j) = s.data.read (win.1 + dest win.2 s.stride j)) ∧
      (∀ a, s.dlen.toNat ≤ a → t.data.read a = s.data.read a) ∧
      (s.stride = 1 → sameBytes s.data t.data))

/-- The inverse law: DEINT then INT, and INT then DEINT, restore every byte, provided neither faults (R168). -/
def Obligations.TransposerInverseLaw : Prop :=
  ∀ s t u : State, s.fault = false → t.fault = false → u.fault = false →
    (exec .deint s = .next t → exec .int t = .next u → sameBytes s.data u.data) ∧
    (exec .int s = .next t → exec .deint t = .next u → sameBytes s.data u.data)

/-- The transposer never changes a byte's value: what `DATA[0 .. DLEN-1]` holds is permuted (R169). -/
def Obligations.TransposerKeepsTheBytes : Prop :=
  ∀ s t : State, s.fault = false → (exec .deint s = .next t ∨ exec .int s = .next t) →
    ((List.range s.dlen.toNat).map t.data.read).Perm ((List.range s.dlen.toNat).map s.data.read)

/-- The scratch need is the length of the largest window: the whole length for `BLOCK = 0`, else
`min(len, stride * BLOCK)`. A transposition of two or more channels that needs more than `SCRATCH_CAP` raises `Allocation`
before any byte moves, and one that does not raises nothing (R66, R163, R166, R167, R274, R280). -/
def Obligations.TransposerScratchFault : Prop :=
  (∀ len stride block : Nat, 0 < stride →
    (∀ win ∈ windows len stride block, win.2 ≤ scratchNeed len stride block) ∧
    (∃ win ∈ windows len stride block, win.2 = scratchNeed len stride block) ∧
    scratchNeed len stride block = if block = 0 then len else min len (stride * block)) ∧
  ∀ s : State, s.fault = false →
    (1 < s.stride →
      s.cfg.scratchBytes < (if s.block = 0 then s.dlen.toNat else min s.dlen.toNat (s.stride * s.block.toNat)) →
      exec .deint s = .next (faulted s 4) ∧ exec .int s = .next (faulted s 4)) ∧
    (s.stride = 1 ∨
        (if s.block = 0 then s.dlen.toNat else min s.dlen.toNat (s.stride * s.block.toNat)) ≤ s.cfg.scratchBytes →
      (∃ t, exec .deint s = .next t ∧ t.fault = false) ∧ ∃ t, exec .int s = .next t ∧ t.fault = false)

/-! ## Encoder -/

/-- `close_current()` merges exactly when the merged count fits and the merged cost is strictly lower (R187, R190). -/
def Obligations.MergeOnlyWhenStrictlyCheaper : Prop :=
  ∀ (s : State) (t : Nat),
    let c := s.enc.cnt1 + s.enc.cnt2
    let m := max s.enc.bits1 s.enc.bits2
    (c ≤ 127 ∧ c * m < s.enc.cnt2 * s.enc.bits2 + s.enc.cnt1 * s.enc.bits1 + 10 →
      closeCurrent t s = .ok { s with enc := { s.enc with cnt2 := c, bits2 := m } }) ∧
    (¬(c ≤ 127 ∧ c * m < s.enc.cnt2 * s.enc.bits2 + s.enc.cnt1 * s.enc.bits1 + 10) →
      closeCurrent t s = (flushPending t s).andThen fun u =>
        .ok { u with enc := { u.enc with cnt2 := u.enc.cnt1, bits2 := u.enc.bits1 } })

/-- ENC with room in `SCRATCH` and `STREAM` runs to its end when its input is written: what it leaves in the registers,
`DATA` as before, and the bound on the chunk (R180, R192, R193 (e)). When a byte of its input is unspecified it is
refused (R316, U1). -/
def Obligations.EncCompletes : Prop :=
  ∀ s : State, s.fault = false → scratchFits s s.stride s.dlen.toNat →
    4 * ((18 + 18 * s.dlen.toNat + 31) / 32) ≤ s.cfg.streamBytes →
    (written s.data 0 s.dlen.toNat →
      ∃ t, exec .enc s = .next t ∧
        t = { s with bsmode := .closed, slen := t.slen, bitlen := t.bitlen, acc := 0, fill := 0, spos := t.slen,
                     data := t.data, stream := t.stream, scratch := [], enc := {}, dec := {}, phase := .idle } ∧
        sameBytes s.data t.data ∧
        t.bitlen.toNat ≤ 18 + 18 * s.dlen.toNat ∧ t.slen.toNat = (t.bitlen.toNat + 7) / 8 ∧
        written t.stream 0 t.slen.toNat) ∧
    (¬ written s.data 0 s.dlen.toNat →
      ∃ a, a < s.dlen.toNat ∧ exec .enc s = .refused (.unspecifiedByte .data a))

/-- What the chunk says: the header, then tokens of counts `1 .. 127` that carry the residuals of the deinterleaved
buffer in order, each at the largest run width its residuals need (R97, R193 (a) to (d)). -/
def Obligations.EncWritesTheResiduals : Prop :=
  ∀ s t u : State, s.fault = false → exec .enc s = .next t → t.fault = false →
    deint s.stride s.block.toNat s.dlen.toNat s = .ok u →
    ∃ runs : List (Nat × List Int),
      (∀ run ∈ runs, 1 ≤ run.2.length ∧ run.2.length ≤ 127 ∧
        run.1 = (run.2.map (fun r => norm (width r))).foldl max 0) ∧
      (runs.map (fun run => run.2)).flatten.length = s.dlen.toNat ∧
      (∀ i r, (runs.map (fun run => run.2)).flatten[i]? = some r → resid u.data i s.stripLen = .ok r) ∧
      let toks := runs.map (fun (run : Nat × List Int) => (run.1, run.2.map (fun (r : Int) => (r + (bias run.1 : Int)).toNat)))
      t.bitlen.toNat = (chunkBits s.skip s.strip toks).length ∧
      t.slen.toNat = (t.bitlen.toNat + 7) / 8 ∧
      ∀ k, k < 8 * t.slen.toNat → sbit t k = .ok ((chunkBits s.skip s.strip toks).getD k false)

/-- ENC leaves the parameters, the unpacker's registers and the host's side alone; and without a fault the length and
every byte of `DATA` (R180, R192). -/
def Obligations.EncFrame : Prop :=
  ∀ s t : State, exec .enc s = .next t →
    sameParams s t ∧ t.rpos = s.rpos ∧ t.result = s.result ∧ t.underrun = s.underrun ∧ samePorts s t ∧
    (t.fault = false → t.dlen = s.dlen ∧ sameBytes s.data t.data)

/-- How ENC ends (R163, R180, R274, R280, R281, R283). Without the scratch it needs it raises `Allocation` in the scratch
check, before any byte of `DATA` moves, and loses `SLEN` and `STREAM`. With it, and a written input, it always answers a
next state: a normal end, whose chunk has room in whole words, or `Allocation` in the packer. A fault of ENC is
`Allocation`, and one in the packer loses `DLEN` and `DATA` as well. -/
def Obligations.EncFaultInvalidatesOutputs : Prop :=
  ∀ s : State, s.fault = false →
    (¬ scratchFits s s.stride s.dlen.toNat → exec .enc s = .next (faultedPacker s 4)) ∧
    (scratchFits s s.stride s.dlen.toNat → written s.data 0 s.dlen.toNat →
      ∃ t, exec .enc s = .next t ∧
        ((t.fault = false ∧ t.bsmode = .closed ∧ 4 * ((t.slen.toNat + 3) / 4) ≤ s.cfg.streamBytes) ∨
          (t.fault = true ∧ t.cause = 4))) ∧
    ∀ t : State, exec .enc s = .next t → t.fault = true →
      t.cause = 4 ∧ t.bsmode = .none ∧ t.slen = 0 ∧ unspecified t.stream ∧
      (scratchFits s s.stride s.dlen.toNat → t.dlen = 0 ∧ unspecified t.data)

/-! ## Stream elements and DEC -/

/-- HDR read wholly inside the valid bytes sets `SKIP`, `STRIP` and the decoder's start; across their end it is
`TruncatedStream`, and `SKIP` and `STRIP` are not written (R98, R221, R222, R227 (c), R280). -/
def Obligations.HdrSetsTheParameters : Prop :=
  ∀ (s : State) (a : BitVec 2) (b : BitVec 16),
    (s.underrun = false → s.rpos + 18 ≤ 8 * s.slen.toNat →
      exec (.hdr a b) s = .next { s with
        skip := a, strip := b, rpos := s.rpos + 18, phase := .tokens
        dec := { n := 0, act := 0, cnt := 0, bits := 0, hs := a.toNat + 1, ht := b.toNat + 1 } }) ∧
    (s.fault = false → 8 * s.slen.toNat < s.rpos + 18 →
      exec (.hdr a b) s = .next { faulted s 5 with
        rpos := s.rpos + 18, underrun := true, dlen := 0, data := [] })

/-- END reads its seven bits, wherever they lie, ends the token loop and never faults (R108, R227 (a), R238). -/
def Obligations.EndEndsTheLoop : Prop :=
  ∀ s : State, exec .endMark s = .next { s with
    rpos := s.rpos + 7
    underrun := s.underrun || decide (8 * s.slen.toNat < s.rpos + 7)
    phase := .finish }

/-- Each RUN form (RUN.W0, RUN.W2 to RUN.W8), read wholly inside the valid bytes and with room in `DATA`, appends one
byte for each value: previous byte plus gradient plus the value less its bias, modulo 256; every other byte of `DATA`
and everything else is as before (R224 to R226, R230 to R237). -/
def Obligations.RunTokenAppendsItsValues : Prop :=
  ∀ (s : State) (i : Instr) (w : Nat) (us : List Nat), runFields i = some (w, us) → wellFormed i = true →
    s.underrun = false → s.rpos + 10 + us.length * w ≤ 8 * s.slen.toNat →
    s.dec.n + us.length ≤ s.cfg.dataBytes → written s.data 0 s.dec.n →
    ∃ t, exec i s = .next t ∧
      t = { s with rpos := s.rpos + 10 + us.length * w, data := t.data, dec := t.dec } ∧
      t.dec = { s.dec with n := s.dec.n + us.length, act := t.dec.act, cnt := us.length, bits := w } ∧
      (∀ a, a < s.dec.n ∨ s.dec.n + us.length ≤ a → t.data.read a = s.data.read a) ∧
      t.data.read (s.dec.n + us.length - 1) = some t.dec.act ∧
      ∀ j, (h : j < us.length) → ∃ b, t.data.read (s.dec.n + j) = some b ∧
        (b.toNat : Int) =
          ((if j = 0 then (s.dec.act.toNat : Int) else byteAt t.data (s.dec.n + j - 1))
            + (if 1 < s.dec.ht ∧ s.dec.ht < s.dec.n + j then
                byteAt t.data (s.dec.n + j - s.dec.ht) - byteAt t.data (s.dec.n + j - s.dec.ht - 1) else 0)
            + (us[j] : Int) - (bias w : Int)) % 256

/-- Which fault a RUN form raises, and where the cursor then stands. DEC reaches `m` of its values: all, or as many as fit
in `DATA` and one more. If one of the fields up to value `m` runs off the valid bytes, it is `TruncatedStream`, just behind
that field. If none does and the output outgrows `DATA_CAP`, it is `Allocation`, just behind value `m`, the one that does
not fit. The output is invalidated in both (R68 (c), R226, R227 (b), R275, R280, R283). -/
def Obligations.RunTokenFaults : Prop :=
  ∀ (s : State) (i : Instr) (w : Nat) (us : List Nat), runFields i = some (w, us) → wellFormed i = true →
    s.fault = false → s.underrun = false → written s.data 0 s.dec.n →
    let m := min us.length (s.cfg.dataBytes - s.dec.n + 1)
    (8 * s.slen.toNat < s.rpos + 10 + m * w →
      exec i s = .next { faulted s 5 with
        rpos := truncatedAt s.rpos w s.slen.toNat, underrun := true, dlen := 0, data := [] }) ∧
    (s.rpos + 10 + m * w ≤ 8 * s.slen.toNat → s.cfg.dataBytes < s.dec.n + us.length →
      exec i s = .next { faulted s 4 with rpos := s.rpos + 10 + m * w, dlen := 0, data := [] })

/-- DEC of a chunk shorter than its header is `TruncatedStream`; `SKIP` and `STRIP` keep their values (R222, R240 (a),
R280). -/
def Obligations.DecOfAShortChunk : Prop :=
  ∀ s : State, s.fault = false → s.slen.toNat < 3 → written s.stream 0 s.slen.toNat →
    exec .dec s = .next { faulted s 5 with rpos := 18, underrun := true, dlen := 0, data := [] }


/-- DEC decodes every sequence of tokens, canonical or not, up to the first END, wherever the END's bits lie: the bytes
are those of R225, re-interleaved with the header's skip and `BLOCK`; what it leaves in the registers; what it does not
write. Where the re-interleave lacks scratch it raises `Allocation` behind the END, with the header's `SKIP` and `STRIP`
written and the output invalidated (R107, R108, R163, R220, R222 to R228, R280, R283). -/
def Obligations.DecDecodesEveryTokenSequence : Prop :=
  ∀ (s : State) (a : BitVec 2) (b : BitVec 16) (toks : List (Nat × List Nat)), s.fault = false →
    (∀ tok ∈ toks, tokenOk tok) →
    streamHolds s 0 (chunkBits a b toks ++ toBits 7 0) →
    (chunkBits a b toks).length ≤ 8 * s.slen.toNat →
    tokensCount toks ≤ s.cfg.dataBytes →
    (scratchFits s (a.toNat + 1) (tokensCount toks) →
      ∃ t, exec .dec s = .next t ∧
        t = { commandOver s with
          skip := a, strip := b, dlen := t.dlen, rpos := (chunkBits a b toks).length + 7
          underrun := decide (8 * s.slen.toNat < (chunkBits a b toks).length + 7)
          bsmode := .read, data := t.data } ∧
        t.dlen.toNat = tokensCount toks ∧
        ∀ win ∈ windows (tokensCount toks) (a.toNat + 1) s.block.toNat, ∀ j, j < win.2 →
          t.data.read (win.1 + j) =
            (listDecode (b.toNat + 1) toks [])[win.1 + dest win.2 (a.toNat + 1) j]?) ∧
    (¬ scratchFits s (a.toNat + 1) (tokensCount toks) →
      exec .dec s = .next { faulted s 4 with
        skip := a, strip := b, dlen := 0, data := [], rpos := (chunkBits a b toks).length + 7
        underrun := decide (8 * s.slen.toNat < (chunkBits a b toks).length + 7) })

/-- DEC is its stream elements: what it answers is what the machine's steps answer from the opened stream on, one element
a step (R220, R222, R223; the places between the elements are the model's, log 9). -/
def Obligations.DecRunsItsElements : Prop :=
  ∀ s : State, s.fault = false →
    ∃ k, Host.Core.run Sys2Proof.core k { s with rpos := 0, underrun := false, phase := .header } = exec .dec s

/-- DEC on a written stream always ends, normally or with exactly one fault, `TruncatedStream` or `Allocation` (R220,
R239, R283). It is refused only for an unspecified byte of `STREAM` below `SLEN` (R316, R266, U1). -/
def Obligations.DecAlwaysEnds : Prop :=
  ∀ s : State, s.fault = false →
    (written s.stream 0 s.slen.toNat →
      ∃ t, exec .dec s = .next t ∧ t.phase = .idle ∧
        ((t.fault = false ∧ t.bsmode = .read ∧ written t.data 0 t.dlen.toNat) ∨
          (t.fault = true ∧ (t.cause = 4 ∨ t.cause = 5) ∧ t.bsmode = .none ∧ t.dlen = 0 ∧ unspecified t.data))) ∧
    ∀ r : Refusal, exec .dec s = .refused r →
      ∃ a, a < s.slen.toNat ∧ s.stream.read a = none ∧ r = .unspecifiedByte .stream a

/-- Whatever DEC does, it leaves `BLOCK`, `SLEN`, the packer, `RESULT`, `STREAM` and the host's side alone (R220, R73,
R280). -/
def Obligations.DecFrame : Prop :=
  ∀ s t : State, exec .dec s = .next t →
    t.block = s.block ∧ t.slen = s.slen ∧ samePacker s t ∧ t.result = s.result ∧ t.stream = s.stream ∧ samePorts s t

/-- DEC is a function of the valid stream, `SLEN`, `BLOCK` and the capacities: two states that agree on these get the
same answer, the same status, length and cursor, and the same bytes below the length (R239). -/
def Obligations.DecDependsOnTheStreamAlone : Prop :=
  ∀ s s' t : State, s.fault = false → s'.fault = false → s'.slen = s.slen → s'.block = s.block → s'.cfg = s.cfg →
    (∀ a, a < s.slen.toNat → s'.stream.read a = s.stream.read a) → exec .dec s = .next t →
    ∃ t', exec .dec s' = .next t' ∧ t'.fault = t.fault ∧ (t.fault = true → t'.cause = t.cause) ∧
      t'.bsmode = t.bsmode ∧ t'.underrun = t.underrun ∧ t'.dlen = t.dlen ∧ t'.rpos = t.rpos ∧
      (t.fault = false → t'.skip = t.skip ∧ t'.strip = t.strip) ∧
      ∀ a, a < t.dlen.toNat → t'.data.read a = t.data.read a

/-- The round trip: after an ENC that ended without a fault, DEC with the same `BLOCK` ends without one and restores the
length, the bytes, `SKIP` and `STRIP`; it never raises `TruncatedStream` (R194). -/
def Obligations.EncodeDecodeRoundTrip : Prop :=
  ∀ s t : State, s.fault = false → s.dlen.toNat ≤ s.cfg.dataBytes →
    exec .enc s = .next t → t.fault = false →
    ∃ u, exec .dec t = .next u ∧ u.fault = false ∧ u.dlen = s.dlen ∧
      (∀ a, a < s.dlen.toNat → u.data.read a = s.data.read a) ∧
      u.skip = s.skip ∧ u.strip = s.strip ∧ u.rpos = t.bitlen.toNat + 7

/-! ## Whole-machine rules -/

/-- `BSMODE` after any instruction: RESET gives `NONE`; while a fault is latched nothing else changes it; a fault gives
`NONE`; and otherwise it is by the table of R24. -/
def Obligations.BsmodeTransitions : Prop :=
  ∀ (i : Instr) (s t : State), exec i s = .next t →
    t.bsmode =
      if i = .reset then BsMode.none
      else if s.fault then s.bsmode
      else if t.fault then BsMode.none
      else if i = .winit then BsMode.write
      else if i = .wflush ∨ i = .enc then BsMode.closed
      else if i = .rinit ∨ i = .dec then BsMode.read
      else s.bsmode

/-- `RESULT`: no instruction but RBITS and RESET changes it; RESET makes it 0; an RBITS that ends without a fault leaves
in it the value it has returned, and one that faults or is dropped leaves it alone (R34). -/
def Obligations.ResultHoldsTheLastBitsRead : Prop :=
  ∀ (i : Instr) (s t : State), exec i s = .next t →
    (i ≠ .reset → (∀ n, i ≠ .rbits n) → t.result = s.result) ∧
    (i = .reset → t.result = 0) ∧
    ∀ n, i = .rbits n →
      (t.fault = true → t.result = s.result) ∧
      (t.fault = false → t.responses = s.responses ++ [t.result.setWidth 64])

/-- Only RREG and RBITS return a value, one, and none when they fault (R93). -/
def Obligations.OnlyReadsRespond : Prop :=
  ∀ (i : Instr) (s t : State), exec i s = .next t →
    t.responses = s.responses ∨
    (((∃ r, i = .rreg r) ∨ (∃ n, i = .rbits n)) ∧ t.fault = s.fault ∧ ∃ v, t.responses = s.responses ++ [v])

/-- No instruction stops the machine with a fault: every fault of the spec is taken (R280). -/
def Obligations.NoInstructionStopsWithAFault : Prop :=
  ∀ (i : Instr) (s : State) (f : Fault), exec i s ≠ .fault f

/-- Every step keeps the invariant between commands: the memories are canonical and hold nothing at or above a capacity;
no command is running and the working registers are idle (log 9); `CAUSE` is legal, and 0 exactly without a fault; a
fault has no session; the lengths and `SPOS` are within the capacities; `ACC` is below `2^FILL`; and `SPOS`, `BITLEN` and
`FILL` agree in an open session and after a flush (R22, R30 to R32, R45, R261, R266, R270, R280). -/
def Obligations.StepKeepsTheInvariant : Prop :=
  ∀ s t : State, s.Inv → step s = .next t → t.Inv

/-- The invariant between commands holds right after power-on (R47, R310; log 9). -/
def Obligations.InvariantHoldsAtReset : Prop := State.reset.Inv
end

