-- ==== Sys2Proof/Laws/Memory.lean ====
section
/-! SUPPORT. The memory operations keep the canonical form, and what each leaves to be read. -/

namespace Sys2Proof.Machine

/-! ## The canonical form -/

theorem Memory.mem_write {m : Memory} {a : Nat} {b : Byte} {c : Host.Cell} (h : c ∈ m.write a b) :
    c.1 = a ∨ c ∈ m := by
  induction m with
  | nil => simp [Memory.write] at h; simp [h]
  | cons x xs ih =>
    obtain ⟨k, v⟩ := x
    simp only [Memory.write] at h
    split at h
    · rcases List.mem_cons.mp h with h | h
      · simp [h]
      · exact .inr h
    · split at h
      · rcases List.mem_cons.mp h with h | h
        · simp [h]
        · exact .inr (List.mem_cons_of_mem _ h)
      · rcases List.mem_cons.mp h with h | h
        · exact .inr (h ▸ List.mem_cons_self)
        · exact (ih h).imp id (List.mem_cons_of_mem _)

theorem Memory.write_wf {m : Memory} (h : m.wf) (a : Nat) (b : Byte) : (m.write a b).wf := by
  induction m with
  | nil => simp [Memory.write, Memory.wf]
  | cons x xs ih =>
    obtain ⟨k, v⟩ := x
    obtain ⟨hk, hxs⟩ := List.pairwise_cons.mp h
    simp only [Memory.write]
    split
    case isTrue hlt =>
      refine List.pairwise_cons.mpr ⟨fun c hc => ?_, h⟩
      rcases List.mem_cons.mp hc with rfl | hc
      · exact hlt
      · exact Nat.lt_trans hlt (hk c hc)
    case isFalse hge =>
      split
      case isTrue heq => exact List.pairwise_cons.mpr ⟨fun c hc => heq ▸ hk c hc, hxs⟩
      case isFalse hne =>
        refine List.pairwise_cons.mpr ⟨fun c hc => ?_, ih hxs⟩
        rcases Memory.mem_write hc with hc | hc
        · simp only at *; omega
        · exact hk c hc

theorem Memory.clear_wf {m : Memory} (h : m.wf) (a : Nat) : (m.clear a).wf := h.filter _

theorem Memory.put_wf {m : Memory} (h : m.wf) (a : Nat) (b : Option Byte) : (m.put a b).wf := by
  cases b with
  | none => exact Memory.clear_wf h a
  | some v => exact Memory.write_wf h a v

theorem Memory.below_wf {m : Memory} (h : m.wf) (n : Nat) : (m.below n).wf := h.filter _

theorem Memory.forget_wf {m : Memory} (h : m.wf) (lo hi : Nat) : (m.forget lo hi).wf := h.filter _

theorem Memory.writeAll_wf {m : Memory} (h : m.wf) (a : Nat) (bs : List Byte) : (m.writeAll a bs).wf := by
  induction bs generalizing m a with
  | nil => exact h
  | cons b bs ih => exact ih (Memory.write_wf h a b) _

theorem gather_wf {scratch : Memory} (h : scratch.wf) (target source : Nat → Nat) (len : Nat) (data : Memory) :
    (gather target source len data scratch).wf := by
  unfold gather
  generalize List.range len = js
  induction js generalizing scratch with
  | nil => exact h
  | cons j js ih => exact ih (Memory.put_wf h _ _)

theorem copyBack_wf {data : Memory} (h : data.wf) (o len : Nat) (scratch : Memory) :
    (copyBack o len scratch data).wf := by
  unfold copyBack
  generalize List.range len = js
  induction js generalizing data with
  | nil => exact h
  | cons j js ih => exact ih (Memory.put_wf h _ _)

theorem reset_memories_wf : State.reset.data.wf ∧ State.reset.stream.wf ∧ State.reset.scratch.wf := by
  simp [State.reset, Memory.wf]

/-! ## Reads -/

@[simp] theorem Memory.read_nil (a : Nat) : Memory.read [] a = none := rfl

@[simp] theorem Memory.read_write_same (m : Memory) (a : Nat) (b : Byte) : (m.write a b).read a = some b := by
  induction m with
  | nil => simp [Memory.write, Memory.read]
  | cons x xs ih =>
    obtain ⟨k, v⟩ := x
    simp only [Memory.write]
    split
    · simp [Memory.read]
    · split
      · simp [Memory.read]
      · have : k ≠ a := by omega
        simp [Memory.read, this, ih]

theorem Memory.read_write_other {m : Memory} {a a' : Nat} (b : Byte) (h : a' ≠ a) :
    (m.write a b).read a' = m.read a' := by
  induction m with
  | nil => simp [Memory.write, Memory.read, h.symm]
  | cons x xs ih =>
    obtain ⟨k, v⟩ := x
    simp only [Memory.write]
    split
    · simp [Memory.read, h.symm]
    · split
      · rename_i _ hk
        have : k ≠ a' := by omega
        simp [Memory.read, this, h.symm]
      · by_cases hk : k = a' <;> simp [Memory.read, hk, ih]

/-- What a read gives after a write. -/
theorem Memory.read_write (m : Memory) (a a' : Nat) (b : Byte) :
    (m.write a b).read a' = if a' = a then some b else m.read a' := by
  split
  case isTrue h => subst h; simp
  case isFalse h => exact Memory.read_write_other b h

/-- What a read gives after some bytes were made unspecified. -/
theorem Memory.read_filter (m : Memory) (keep : Nat → Bool) (a : Nat) :
    Memory.read (m.filter (fun c => keep c.1)) a = if keep a then m.read a else none := by
  induction m with
  | nil => simp [Memory.read]
  | cons x xs ih =>
    obtain ⟨k, v⟩ := x
    by_cases hk : keep k
    · by_cases ha : k = a
      · subst ha; simp [hk, Memory.read]
      · simp [hk, Memory.read, ha, ih]
    · by_cases ha : k = a
      · subst ha; simp [hk, ih]
      · simp [hk, Memory.read, ha, ih]

theorem Memory.read_clear (m : Memory) (a a' : Nat) :
    (m.clear a).read a' = if a' = a then none else m.read a' := by
  rw [Memory.clear, Memory.read_filter m (fun k => decide (k ≠ a))]
  by_cases h : a' = a <;> simp [h]

theorem Memory.read_put (m : Memory) (a a' : Nat) (b : Option Byte) :
    (m.put a b).read a' = if a' = a then b else m.read a' := by
  cases b with
  | none => exact Memory.read_clear m a a'
  | some v => exact Memory.read_write m a a' v

theorem Memory.read_below (m : Memory) (n a : Nat) :
    (m.below n).read a = if a < n then m.read a else none := by
  rw [Memory.below, Memory.read_filter m (fun k => decide (k < n))]
  by_cases h : a < n <;> simp [h]

theorem Memory.read_forget (m : Memory) (lo hi a : Nat) :
    (m.forget lo hi).read a = if lo ≤ a ∧ a < hi then none else m.read a := by
  rw [Memory.forget, Memory.read_filter m (fun k => !(decide (lo ≤ k) && decide (k < hi)))]
  by_cases h : lo ≤ a ∧ a < hi
  · simp [h]
  · simp only [h, if_false]
    have h' : a < lo ∨ hi ≤ a := by omega
    rw [if_pos (by simpa using h')]

theorem Memory.read_writeAll_other {m : Memory} {a a' : Nat} {bs : List Byte}
    (h : a' < a ∨ a + bs.length ≤ a') : (m.writeAll a bs).read a' = m.read a' := by
  induction bs generalizing m a with
  | nil => rfl
  | cons b bs ih =>
    simp only [List.length_cons] at h
    rw [Memory.writeAll, ih (by omega), Memory.read_write_other b (by omega)]

theorem Memory.read_writeAll_same {m : Memory} {a j : Nat} {bs : List Byte} (h : j < bs.length) :
    (m.writeAll a bs).read (a + j) = some bs[j] := by
  induction bs generalizing m a j with
  | nil => simp at h
  | cons b bs ih =>
    cases j with
    | zero => rw [Memory.writeAll, Memory.read_writeAll_other (by omega)]; simp
    | succ j =>
      have := ih (m := m.write a b) (a := a + 1) (j := j) (by simpa using h)
      rw [show a + 1 + j = a + (j + 1) by omega] at this
      simpa [Memory.writeAll] using this

/-- Two memories in canonical form that read alike are equal data. -/
theorem Memory.ext_of_wf {m m' : Memory} (h : m.wf) (h' : m'.wf) (heq : ∀ a, m.read a = m'.read a) : m = m' := by
  have low : ∀ {xs : Memory} {k : Nat}, (∀ c ∈ xs, k < c.1) → ∀ a, a ≤ k → Memory.read xs a = none := by
    intro xs k hx a ha
    induction xs with
    | nil => rfl
    | cons x xs ih =>
      have := hx x List.mem_cons_self
      rw [Memory.read, if_neg (by omega)]
      exact ih fun c hc => hx c (List.mem_cons_of_mem _ hc)
  induction m generalizing m' with
  | nil =>
    cases m' with
    | nil => rfl
    | cons y ys => have := heq y.1; simp [Memory.read] at this
  | cons x xs ih =>
    obtain ⟨k, v⟩ := x
    cases m' with
    | nil => have := heq k; simp [Memory.read] at this
    | cons y ys =>
      obtain ⟨k', v'⟩ := y
      obtain ⟨hx, hxs⟩ := List.pairwise_cons.mp h
      obtain ⟨hy, hys⟩ := List.pairwise_cons.mp h'
      have hk : k = k' := by
        rcases Nat.lt_trichotomy k k' with hlt | heq' | hlt
        · have := heq k
          rw [Memory.read, if_pos rfl, Memory.read, if_neg (by omega), low hy k (by omega)] at this
          simp at this
        · exact heq'
        · have := heq k'
          rw [Memory.read, if_neg (by omega), low hx k' (by omega), Memory.read, if_pos rfl] at this
          simp at this
      subst hk
      have hv := heq k
      simp only [Memory.read, if_true, Option.some.injEq] at hv
      subst hv
      have : xs = ys := ih hxs hys fun a => by
        by_cases ha : k = a
        · subst ha; rw [low hx k (Nat.le_refl k), low hy k (Nat.le_refl k)]
        · simpa [Memory.read, ha] using heq a
      rw [this]

end Sys2Proof.Machine
end

