-- ==== Sys2Proof/Laws/State.lean ====
section
/-! SUPPORT. One lemma per field per update of the state. -/

namespace Sys2Proof.Machine

/-! ### `endCommand` -/

@[simp] theorem State.endCommand_fault (s : State) : (s.endCommand).fault = s.fault := rfl
@[simp] theorem State.endCommand_cause (s : State) : (s.endCommand).cause = s.cause := rfl
@[simp] theorem State.endCommand_bsmode (s : State) : (s.endCommand).bsmode = s.bsmode := rfl
@[simp] theorem State.endCommand_underrun (s : State) : (s.endCommand).underrun = s.underrun := rfl
@[simp] theorem State.endCommand_skip (s : State) : (s.endCommand).skip = s.skip := rfl
@[simp] theorem State.endCommand_strip (s : State) : (s.endCommand).strip = s.strip := rfl
@[simp] theorem State.endCommand_block (s : State) : (s.endCommand).block = s.block := rfl
@[simp] theorem State.endCommand_dlen (s : State) : (s.endCommand).dlen = s.dlen := rfl
@[simp] theorem State.endCommand_slen (s : State) : (s.endCommand).slen = s.slen := rfl
@[simp] theorem State.endCommand_bitlen (s : State) : (s.endCommand).bitlen = s.bitlen := rfl
@[simp] theorem State.endCommand_acc (s : State) : (s.endCommand).acc = s.acc := rfl
@[simp] theorem State.endCommand_fill (s : State) : (s.endCommand).fill = s.fill := rfl
@[simp] theorem State.endCommand_spos (s : State) : (s.endCommand).spos = s.spos := rfl
@[simp] theorem State.endCommand_rpos (s : State) : (s.endCommand).rpos = s.rpos := rfl
@[simp] theorem State.endCommand_result (s : State) : (s.endCommand).result = s.result := rfl
@[simp] theorem State.endCommand_data (s : State) : (s.endCommand).data = s.data := rfl
@[simp] theorem State.endCommand_stream (s : State) : (s.endCommand).stream = s.stream := rfl
@[simp] theorem State.endCommand_scratch (s : State) : (s.endCommand).scratch = [] := rfl
@[simp] theorem State.endCommand_enc (s : State) : (s.endCommand).enc = {} := rfl
@[simp] theorem State.endCommand_dec (s : State) : (s.endCommand).dec = {} := rfl
@[simp] theorem State.endCommand_phase (s : State) : (s.endCommand).phase = .idle := rfl
@[simp] theorem State.endCommand_inputs (s : State) : (s.endCommand).inputs = s.inputs := rfl
@[simp] theorem State.endCommand_responses (s : State) : (s.endCommand).responses = s.responses := rfl
@[simp] theorem State.endCommand_hostReads (s : State) : (s.endCommand).hostReads = s.hostReads := rfl
@[simp] theorem State.endCommand_cfg (s : State) : (s.endCommand).cfg = s.cfg := rfl

/-! ### `latch` -/

@[simp] theorem State.latch_fault (s : State) (c : Cause) : (s.latch c).fault = true := rfl
@[simp] theorem State.latch_cause (s : State) (c : Cause) : (s.latch c).cause = c.code := rfl
@[simp] theorem State.latch_bsmode (s : State) (c : Cause) : (s.latch c).bsmode = .none := rfl
@[simp] theorem State.latch_underrun (s : State) (c : Cause) : (s.latch c).underrun = s.underrun := rfl
@[simp] theorem State.latch_skip (s : State) (c : Cause) : (s.latch c).skip = s.skip := rfl
@[simp] theorem State.latch_strip (s : State) (c : Cause) : (s.latch c).strip = s.strip := rfl
@[simp] theorem State.latch_block (s : State) (c : Cause) : (s.latch c).block = s.block := rfl
@[simp] theorem State.latch_dlen (s : State) (c : Cause) : (s.latch c).dlen = s.dlen := rfl
@[simp] theorem State.latch_slen (s : State) (c : Cause) : (s.latch c).slen = s.slen := rfl
@[simp] theorem State.latch_bitlen (s : State) (c : Cause) : (s.latch c).bitlen = s.bitlen := rfl
@[simp] theorem State.latch_acc (s : State) (c : Cause) : (s.latch c).acc = s.acc := rfl
@[simp] theorem State.latch_fill (s : State) (c : Cause) : (s.latch c).fill = s.fill := rfl
@[simp] theorem State.latch_spos (s : State) (c : Cause) : (s.latch c).spos = s.spos := rfl
@[simp] theorem State.latch_rpos (s : State) (c : Cause) : (s.latch c).rpos = s.rpos := rfl
@[simp] theorem State.latch_result (s : State) (c : Cause) : (s.latch c).result = s.result := rfl
@[simp] theorem State.latch_data (s : State) (c : Cause) : (s.latch c).data = s.data := rfl
@[simp] theorem State.latch_stream (s : State) (c : Cause) : (s.latch c).stream = s.stream := rfl
@[simp] theorem State.latch_scratch (s : State) (c : Cause) : (s.latch c).scratch = s.scratch := rfl
@[simp] theorem State.latch_enc (s : State) (c : Cause) : (s.latch c).enc = s.enc := rfl
@[simp] theorem State.latch_dec (s : State) (c : Cause) : (s.latch c).dec = s.dec := rfl
@[simp] theorem State.latch_phase (s : State) (c : Cause) : (s.latch c).phase = s.phase := rfl
@[simp] theorem State.latch_inputs (s : State) (c : Cause) : (s.latch c).inputs = s.inputs := rfl
@[simp] theorem State.latch_responses (s : State) (c : Cause) : (s.latch c).responses = s.responses := rfl
@[simp] theorem State.latch_hostReads (s : State) (c : Cause) : (s.latch c).hostReads = s.hostReads := rfl
@[simp] theorem State.latch_cfg (s : State) (c : Cause) : (s.latch c).cfg = s.cfg := rfl

/-! ### `respond` -/

@[simp] theorem State.respond_fault (s : State) (v : Response) : (s.respond v).fault = s.fault := rfl
@[simp] theorem State.respond_cause (s : State) (v : Response) : (s.respond v).cause = s.cause := rfl
@[simp] theorem State.respond_bsmode (s : State) (v : Response) : (s.respond v).bsmode = s.bsmode := rfl
@[simp] theorem State.respond_underrun (s : State) (v : Response) : (s.respond v).underrun = s.underrun := rfl
@[simp] theorem State.respond_skip (s : State) (v : Response) : (s.respond v).skip = s.skip := rfl
@[simp] theorem State.respond_strip (s : State) (v : Response) : (s.respond v).strip = s.strip := rfl
@[simp] theorem State.respond_block (s : State) (v : Response) : (s.respond v).block = s.block := rfl
@[simp] theorem State.respond_dlen (s : State) (v : Response) : (s.respond v).dlen = s.dlen := rfl
@[simp] theorem State.respond_slen (s : State) (v : Response) : (s.respond v).slen = s.slen := rfl
@[simp] theorem State.respond_bitlen (s : State) (v : Response) : (s.respond v).bitlen = s.bitlen := rfl
@[simp] theorem State.respond_acc (s : State) (v : Response) : (s.respond v).acc = s.acc := rfl
@[simp] theorem State.respond_fill (s : State) (v : Response) : (s.respond v).fill = s.fill := rfl
@[simp] theorem State.respond_spos (s : State) (v : Response) : (s.respond v).spos = s.spos := rfl
@[simp] theorem State.respond_rpos (s : State) (v : Response) : (s.respond v).rpos = s.rpos := rfl
@[simp] theorem State.respond_result (s : State) (v : Response) : (s.respond v).result = s.result := rfl
@[simp] theorem State.respond_data (s : State) (v : Response) : (s.respond v).data = s.data := rfl
@[simp] theorem State.respond_stream (s : State) (v : Response) : (s.respond v).stream = s.stream := rfl
@[simp] theorem State.respond_scratch (s : State) (v : Response) : (s.respond v).scratch = s.scratch := rfl
@[simp] theorem State.respond_enc (s : State) (v : Response) : (s.respond v).enc = s.enc := rfl
@[simp] theorem State.respond_dec (s : State) (v : Response) : (s.respond v).dec = s.dec := rfl
@[simp] theorem State.respond_phase (s : State) (v : Response) : (s.respond v).phase = s.phase := rfl
@[simp] theorem State.respond_inputs (s : State) (v : Response) : (s.respond v).inputs = s.inputs := rfl
@[simp] theorem State.respond_responses (s : State) (v : Response) : (s.respond v).responses = s.responses ++ [v] := rfl
@[simp] theorem State.respond_hostReads (s : State) (v : Response) : (s.respond v).hostReads = s.hostReads := rfl
@[simp] theorem State.respond_cfg (s : State) (v : Response) : (s.respond v).cfg = s.cfg := rfl

/-! ### `setDlen` -/

@[simp] theorem State.setDlen_fault (s : State) (n : Nat) : (s.setDlen n).fault = s.fault := rfl
@[simp] theorem State.setDlen_cause (s : State) (n : Nat) : (s.setDlen n).cause = s.cause := rfl
@[simp] theorem State.setDlen_bsmode (s : State) (n : Nat) : (s.setDlen n).bsmode = s.bsmode := rfl
@[simp] theorem State.setDlen_underrun (s : State) (n : Nat) : (s.setDlen n).underrun = s.underrun := rfl
@[simp] theorem State.setDlen_skip (s : State) (n : Nat) : (s.setDlen n).skip = s.skip := rfl
@[simp] theorem State.setDlen_strip (s : State) (n : Nat) : (s.setDlen n).strip = s.strip := rfl
@[simp] theorem State.setDlen_block (s : State) (n : Nat) : (s.setDlen n).block = s.block := rfl
@[simp] theorem State.setDlen_dlen (s : State) (n : Nat) : (s.setDlen n).dlen = BitVec.ofNat 32 n := rfl
@[simp] theorem State.setDlen_slen (s : State) (n : Nat) : (s.setDlen n).slen = s.slen := rfl
@[simp] theorem State.setDlen_bitlen (s : State) (n : Nat) : (s.setDlen n).bitlen = s.bitlen := rfl
@[simp] theorem State.setDlen_acc (s : State) (n : Nat) : (s.setDlen n).acc = s.acc := rfl
@[simp] theorem State.setDlen_fill (s : State) (n : Nat) : (s.setDlen n).fill = s.fill := rfl
@[simp] theorem State.setDlen_spos (s : State) (n : Nat) : (s.setDlen n).spos = s.spos := rfl
@[simp] theorem State.setDlen_rpos (s : State) (n : Nat) : (s.setDlen n).rpos = s.rpos := rfl
@[simp] theorem State.setDlen_result (s : State) (n : Nat) : (s.setDlen n).result = s.result := rfl
@[simp] theorem State.setDlen_data (s : State) (n : Nat) : (s.setDlen n).data = if n < s.dlen.toNat then s.data.below n else s.data := rfl
@[simp] theorem State.setDlen_stream (s : State) (n : Nat) : (s.setDlen n).stream = s.stream := rfl
@[simp] theorem State.setDlen_scratch (s : State) (n : Nat) : (s.setDlen n).scratch = s.scratch := rfl
@[simp] theorem State.setDlen_enc (s : State) (n : Nat) : (s.setDlen n).enc = s.enc := rfl
@[simp] theorem State.setDlen_dec (s : State) (n : Nat) : (s.setDlen n).dec = s.dec := rfl
@[simp] theorem State.setDlen_phase (s : State) (n : Nat) : (s.setDlen n).phase = s.phase := rfl
@[simp] theorem State.setDlen_inputs (s : State) (n : Nat) : (s.setDlen n).inputs = s.inputs := rfl
@[simp] theorem State.setDlen_responses (s : State) (n : Nat) : (s.setDlen n).responses = s.responses := rfl
@[simp] theorem State.setDlen_hostReads (s : State) (n : Nat) : (s.setDlen n).hostReads = s.hostReads := rfl
@[simp] theorem State.setDlen_cfg (s : State) (n : Nat) : (s.setDlen n).cfg = s.cfg := rfl

/-! ### `setSlen` -/

@[simp] theorem State.setSlen_fault (s : State) (n : Nat) : (s.setSlen n).fault = s.fault := rfl
@[simp] theorem State.setSlen_cause (s : State) (n : Nat) : (s.setSlen n).cause = s.cause := rfl
@[simp] theorem State.setSlen_bsmode (s : State) (n : Nat) : (s.setSlen n).bsmode = s.bsmode := rfl
@[simp] theorem State.setSlen_underrun (s : State) (n : Nat) : (s.setSlen n).underrun = s.underrun := rfl
@[simp] theorem State.setSlen_skip (s : State) (n : Nat) : (s.setSlen n).skip = s.skip := rfl
@[simp] theorem State.setSlen_strip (s : State) (n : Nat) : (s.setSlen n).strip = s.strip := rfl
@[simp] theorem State.setSlen_block (s : State) (n : Nat) : (s.setSlen n).block = s.block := rfl
@[simp] theorem State.setSlen_dlen (s : State) (n : Nat) : (s.setSlen n).dlen = s.dlen := rfl
@[simp] theorem State.setSlen_slen (s : State) (n : Nat) : (s.setSlen n).slen = BitVec.ofNat 32 n := rfl
@[simp] theorem State.setSlen_bitlen (s : State) (n : Nat) : (s.setSlen n).bitlen = s.bitlen := rfl
@[simp] theorem State.setSlen_acc (s : State) (n : Nat) : (s.setSlen n).acc = s.acc := rfl
@[simp] theorem State.setSlen_fill (s : State) (n : Nat) : (s.setSlen n).fill = s.fill := rfl
@[simp] theorem State.setSlen_spos (s : State) (n : Nat) : (s.setSlen n).spos = s.spos := rfl
@[simp] theorem State.setSlen_rpos (s : State) (n : Nat) : (s.setSlen n).rpos = s.rpos := rfl
@[simp] theorem State.setSlen_result (s : State) (n : Nat) : (s.setSlen n).result = s.result := rfl
@[simp] theorem State.setSlen_data (s : State) (n : Nat) : (s.setSlen n).data = s.data := rfl
@[simp] theorem State.setSlen_stream (s : State) (n : Nat) : (s.setSlen n).stream = if n < s.slen.toNat then s.stream.below (s.slenKeeps n) else s.stream := rfl
@[simp] theorem State.setSlen_scratch (s : State) (n : Nat) : (s.setSlen n).scratch = s.scratch := rfl
@[simp] theorem State.setSlen_enc (s : State) (n : Nat) : (s.setSlen n).enc = s.enc := rfl
@[simp] theorem State.setSlen_dec (s : State) (n : Nat) : (s.setSlen n).dec = s.dec := rfl
@[simp] theorem State.setSlen_phase (s : State) (n : Nat) : (s.setSlen n).phase = s.phase := rfl
@[simp] theorem State.setSlen_inputs (s : State) (n : Nat) : (s.setSlen n).inputs = s.inputs := rfl
@[simp] theorem State.setSlen_responses (s : State) (n : Nat) : (s.setSlen n).responses = s.responses := rfl
@[simp] theorem State.setSlen_hostReads (s : State) (n : Nat) : (s.setSlen n).hostReads = s.hostReads := rfl
@[simp] theorem State.setSlen_cfg (s : State) (n : Nat) : (s.setSlen n).cfg = s.cfg := rfl

/-! ### `setPacker` -/

@[simp] theorem State.setPacker_fault (s : State) (acc fill n : Nat) : (s.setPacker acc fill n).fault = s.fault := rfl
@[simp] theorem State.setPacker_cause (s : State) (acc fill n : Nat) : (s.setPacker acc fill n).cause = s.cause := rfl
@[simp] theorem State.setPacker_bsmode (s : State) (acc fill n : Nat) : (s.setPacker acc fill n).bsmode = s.bsmode := rfl
@[simp] theorem State.setPacker_underrun (s : State) (acc fill n : Nat) : (s.setPacker acc fill n).underrun = s.underrun := rfl
@[simp] theorem State.setPacker_skip (s : State) (acc fill n : Nat) : (s.setPacker acc fill n).skip = s.skip := rfl
@[simp] theorem State.setPacker_strip (s : State) (acc fill n : Nat) : (s.setPacker acc fill n).strip = s.strip := rfl
@[simp] theorem State.setPacker_block (s : State) (acc fill n : Nat) : (s.setPacker acc fill n).block = s.block := rfl
@[simp] theorem State.setPacker_dlen (s : State) (acc fill n : Nat) : (s.setPacker acc fill n).dlen = s.dlen := rfl
@[simp] theorem State.setPacker_slen (s : State) (acc fill n : Nat) : (s.setPacker acc fill n).slen = s.slen := rfl
@[simp] theorem State.setPacker_bitlen (s : State) (acc fill n : Nat) : (s.setPacker acc fill n).bitlen = s.bitlen + BitVec.ofNat 64 n := rfl
@[simp] theorem State.setPacker_acc (s : State) (acc fill n : Nat) : (s.setPacker acc fill n).acc = BitVec.ofNat 32 acc := rfl
@[simp] theorem State.setPacker_fill (s : State) (acc fill n : Nat) : (s.setPacker acc fill n).fill = BitVec.ofNat 5 fill := rfl
@[simp] theorem State.setPacker_spos (s : State) (acc fill n : Nat) : (s.setPacker acc fill n).spos = s.spos := rfl
@[simp] theorem State.setPacker_rpos (s : State) (acc fill n : Nat) : (s.setPacker acc fill n).rpos = s.rpos := rfl
@[simp] theorem State.setPacker_result (s : State) (acc fill n : Nat) : (s.setPacker acc fill n).result = s.result := rfl
@[simp] theorem State.setPacker_data (s : State) (acc fill n : Nat) : (s.setPacker acc fill n).data = s.data := rfl
@[simp] theorem State.setPacker_stream (s : State) (acc fill n : Nat) : (s.setPacker acc fill n).stream = s.stream := rfl
@[simp] theorem State.setPacker_scratch (s : State) (acc fill n : Nat) : (s.setPacker acc fill n).scratch = s.scratch := rfl
@[simp] theorem State.setPacker_enc (s : State) (acc fill n : Nat) : (s.setPacker acc fill n).enc = s.enc := rfl
@[simp] theorem State.setPacker_dec (s : State) (acc fill n : Nat) : (s.setPacker acc fill n).dec = s.dec := rfl
@[simp] theorem State.setPacker_phase (s : State) (acc fill n : Nat) : (s.setPacker acc fill n).phase = s.phase := rfl
@[simp] theorem State.setPacker_inputs (s : State) (acc fill n : Nat) : (s.setPacker acc fill n).inputs = s.inputs := rfl
@[simp] theorem State.setPacker_responses (s : State) (acc fill n : Nat) : (s.setPacker acc fill n).responses = s.responses := rfl
@[simp] theorem State.setPacker_hostReads (s : State) (acc fill n : Nat) : (s.setPacker acc fill n).hostReads = s.hostReads := rfl
@[simp] theorem State.setPacker_cfg (s : State) (acc fill n : Nat) : (s.setPacker acc fill n).cfg = s.cfg := rfl

/-! ### `trimPad` -/

@[simp] theorem State.trimPad_fault (s : State) (pad : Nat) : (s.trimPad pad).fault = s.fault := rfl
@[simp] theorem State.trimPad_cause (s : State) (pad : Nat) : (s.trimPad pad).cause = s.cause := rfl
@[simp] theorem State.trimPad_bsmode (s : State) (pad : Nat) : (s.trimPad pad).bsmode = s.bsmode := rfl
@[simp] theorem State.trimPad_underrun (s : State) (pad : Nat) : (s.trimPad pad).underrun = s.underrun := rfl
@[simp] theorem State.trimPad_skip (s : State) (pad : Nat) : (s.trimPad pad).skip = s.skip := rfl
@[simp] theorem State.trimPad_strip (s : State) (pad : Nat) : (s.trimPad pad).strip = s.strip := rfl
@[simp] theorem State.trimPad_block (s : State) (pad : Nat) : (s.trimPad pad).block = s.block := rfl
@[simp] theorem State.trimPad_dlen (s : State) (pad : Nat) : (s.trimPad pad).dlen = s.dlen := rfl
@[simp] theorem State.trimPad_slen (s : State) (pad : Nat) : (s.trimPad pad).slen = s.slen := rfl
@[simp] theorem State.trimPad_bitlen (s : State) (pad : Nat) : (s.trimPad pad).bitlen = s.bitlen := rfl
@[simp] theorem State.trimPad_acc (s : State) (pad : Nat) : (s.trimPad pad).acc = 0 := rfl
@[simp] theorem State.trimPad_fill (s : State) (pad : Nat) : (s.trimPad pad).fill = 0 := rfl
@[simp] theorem State.trimPad_spos (s : State) (pad : Nat) : (s.trimPad pad).spos = BitVec.ofNat 32 (s.spos.toNat - pad) := rfl
@[simp] theorem State.trimPad_rpos (s : State) (pad : Nat) : (s.trimPad pad).rpos = s.rpos := rfl
@[simp] theorem State.trimPad_result (s : State) (pad : Nat) : (s.trimPad pad).result = s.result := rfl
@[simp] theorem State.trimPad_data (s : State) (pad : Nat) : (s.trimPad pad).data = s.data := rfl
@[simp] theorem State.trimPad_stream (s : State) (pad : Nat) : (s.trimPad pad).stream = s.stream.forget (s.spos.toNat - pad) s.spos.toNat := rfl
@[simp] theorem State.trimPad_scratch (s : State) (pad : Nat) : (s.trimPad pad).scratch = s.scratch := rfl
@[simp] theorem State.trimPad_enc (s : State) (pad : Nat) : (s.trimPad pad).enc = s.enc := rfl
@[simp] theorem State.trimPad_dec (s : State) (pad : Nat) : (s.trimPad pad).dec = s.dec := rfl
@[simp] theorem State.trimPad_phase (s : State) (pad : Nat) : (s.trimPad pad).phase = s.phase := rfl
@[simp] theorem State.trimPad_inputs (s : State) (pad : Nat) : (s.trimPad pad).inputs = s.inputs := rfl
@[simp] theorem State.trimPad_responses (s : State) (pad : Nat) : (s.trimPad pad).responses = s.responses := rfl
@[simp] theorem State.trimPad_hostReads (s : State) (pad : Nat) : (s.trimPad pad).hostReads = s.hostReads := rfl
@[simp] theorem State.trimPad_cfg (s : State) (pad : Nat) : (s.trimPad pad).cfg = s.cfg := rfl

/-! ### `bsWinit` -/

@[simp] theorem bsWinit_fault (s : State) : (bsWinit s).fault = s.fault := rfl
@[simp] theorem bsWinit_cause (s : State) : (bsWinit s).cause = s.cause := rfl
@[simp] theorem bsWinit_bsmode (s : State) : (bsWinit s).bsmode = s.bsmode := rfl
@[simp] theorem bsWinit_underrun (s : State) : (bsWinit s).underrun = s.underrun := rfl
@[simp] theorem bsWinit_skip (s : State) : (bsWinit s).skip = s.skip := rfl
@[simp] theorem bsWinit_strip (s : State) : (bsWinit s).strip = s.strip := rfl
@[simp] theorem bsWinit_block (s : State) : (bsWinit s).block = s.block := rfl
@[simp] theorem bsWinit_dlen (s : State) : (bsWinit s).dlen = s.dlen := rfl
@[simp] theorem bsWinit_slen (s : State) : (bsWinit s).slen = 0 := rfl
@[simp] theorem bsWinit_bitlen (s : State) : (bsWinit s).bitlen = 0 := rfl
@[simp] theorem bsWinit_acc (s : State) : (bsWinit s).acc = 0 := rfl
@[simp] theorem bsWinit_fill (s : State) : (bsWinit s).fill = 0 := rfl
@[simp] theorem bsWinit_spos (s : State) : (bsWinit s).spos = 0 := rfl
@[simp] theorem bsWinit_rpos (s : State) : (bsWinit s).rpos = s.rpos := rfl
@[simp] theorem bsWinit_result (s : State) : (bsWinit s).result = s.result := rfl
@[simp] theorem bsWinit_data (s : State) : (bsWinit s).data = s.data := rfl
@[simp] theorem bsWinit_stream (s : State) : (bsWinit s).stream = [] := rfl
@[simp] theorem bsWinit_scratch (s : State) : (bsWinit s).scratch = s.scratch := rfl
@[simp] theorem bsWinit_enc (s : State) : (bsWinit s).enc = s.enc := rfl
@[simp] theorem bsWinit_dec (s : State) : (bsWinit s).dec = s.dec := rfl
@[simp] theorem bsWinit_phase (s : State) : (bsWinit s).phase = s.phase := rfl
@[simp] theorem bsWinit_inputs (s : State) : (bsWinit s).inputs = s.inputs := rfl
@[simp] theorem bsWinit_responses (s : State) : (bsWinit s).responses = s.responses := rfl
@[simp] theorem bsWinit_hostReads (s : State) : (bsWinit s).hostReads = s.hostReads := rfl
@[simp] theorem bsWinit_cfg (s : State) : (bsWinit s).cfg = s.cfg := rfl

/-! ### `bsRinit` -/

@[simp] theorem bsRinit_fault (s : State) : (bsRinit s).fault = s.fault := rfl
@[simp] theorem bsRinit_cause (s : State) : (bsRinit s).cause = s.cause := rfl
@[simp] theorem bsRinit_bsmode (s : State) : (bsRinit s).bsmode = s.bsmode := rfl
@[simp] theorem bsRinit_underrun (s : State) : (bsRinit s).underrun = false := rfl
@[simp] theorem bsRinit_skip (s : State) : (bsRinit s).skip = s.skip := rfl
@[simp] theorem bsRinit_strip (s : State) : (bsRinit s).strip = s.strip := rfl
@[simp] theorem bsRinit_block (s : State) : (bsRinit s).block = s.block := rfl
@[simp] theorem bsRinit_dlen (s : State) : (bsRinit s).dlen = s.dlen := rfl
@[simp] theorem bsRinit_slen (s : State) : (bsRinit s).slen = s.slen := rfl
@[simp] theorem bsRinit_bitlen (s : State) : (bsRinit s).bitlen = s.bitlen := rfl
@[simp] theorem bsRinit_acc (s : State) : (bsRinit s).acc = s.acc := rfl
@[simp] theorem bsRinit_fill (s : State) : (bsRinit s).fill = s.fill := rfl
@[simp] theorem bsRinit_spos (s : State) : (bsRinit s).spos = s.spos := rfl
@[simp] theorem bsRinit_rpos (s : State) : (bsRinit s).rpos = 0 := rfl
@[simp] theorem bsRinit_result (s : State) : (bsRinit s).result = s.result := rfl
@[simp] theorem bsRinit_data (s : State) : (bsRinit s).data = s.data := rfl
@[simp] theorem bsRinit_stream (s : State) : (bsRinit s).stream = s.stream := rfl
@[simp] theorem bsRinit_scratch (s : State) : (bsRinit s).scratch = s.scratch := rfl
@[simp] theorem bsRinit_enc (s : State) : (bsRinit s).enc = s.enc := rfl
@[simp] theorem bsRinit_dec (s : State) : (bsRinit s).dec = s.dec := rfl
@[simp] theorem bsRinit_phase (s : State) : (bsRinit s).phase = s.phase := rfl
@[simp] theorem bsRinit_inputs (s : State) : (bsRinit s).inputs = s.inputs := rfl
@[simp] theorem bsRinit_responses (s : State) : (bsRinit s).responses = s.responses := rfl
@[simp] theorem bsRinit_hostReads (s : State) : (bsRinit s).hostReads = s.hostReads := rfl
@[simp] theorem bsRinit_cfg (s : State) : (bsRinit s).cfg = s.cfg := rfl

/-! ### `consume` -/

@[simp] theorem consume_fault (s : State) (n : Nat) : (consume n s).fault = s.fault := rfl
@[simp] theorem consume_cause (s : State) (n : Nat) : (consume n s).cause = s.cause := rfl
@[simp] theorem consume_bsmode (s : State) (n : Nat) : (consume n s).bsmode = s.bsmode := rfl
@[simp] theorem consume_underrun (s : State) (n : Nat) : (consume n s).underrun = (s.underrun || runsOff s.rpos n s.slen.toNat) := rfl
@[simp] theorem consume_skip (s : State) (n : Nat) : (consume n s).skip = s.skip := rfl
@[simp] theorem consume_strip (s : State) (n : Nat) : (consume n s).strip = s.strip := rfl
@[simp] theorem consume_block (s : State) (n : Nat) : (consume n s).block = s.block := rfl
@[simp] theorem consume_dlen (s : State) (n : Nat) : (consume n s).dlen = s.dlen := rfl
@[simp] theorem consume_slen (s : State) (n : Nat) : (consume n s).slen = s.slen := rfl
@[simp] theorem consume_bitlen (s : State) (n : Nat) : (consume n s).bitlen = s.bitlen := rfl
@[simp] theorem consume_acc (s : State) (n : Nat) : (consume n s).acc = s.acc := rfl
@[simp] theorem consume_fill (s : State) (n : Nat) : (consume n s).fill = s.fill := rfl
@[simp] theorem consume_spos (s : State) (n : Nat) : (consume n s).spos = s.spos := rfl
@[simp] theorem consume_rpos (s : State) (n : Nat) : (consume n s).rpos = s.rpos + n := rfl
@[simp] theorem consume_result (s : State) (n : Nat) : (consume n s).result = s.result := rfl
@[simp] theorem consume_data (s : State) (n : Nat) : (consume n s).data = s.data := rfl
@[simp] theorem consume_stream (s : State) (n : Nat) : (consume n s).stream = s.stream := rfl
@[simp] theorem consume_scratch (s : State) (n : Nat) : (consume n s).scratch = s.scratch := rfl
@[simp] theorem consume_enc (s : State) (n : Nat) : (consume n s).enc = s.enc := rfl
@[simp] theorem consume_dec (s : State) (n : Nat) : (consume n s).dec = s.dec := rfl
@[simp] theorem consume_phase (s : State) (n : Nat) : (consume n s).phase = s.phase := rfl
@[simp] theorem consume_inputs (s : State) (n : Nat) : (consume n s).inputs = s.inputs := rfl
@[simp] theorem consume_responses (s : State) (n : Nat) : (consume n s).responses = s.responses := rfl
@[simp] theorem consume_hostReads (s : State) (n : Nat) : (consume n s).hostReads = s.hostReads := rfl
@[simp] theorem consume_cfg (s : State) (n : Nat) : (consume n s).cfg = s.cfg := rfl

/-! ### `returnBits` -/

@[simp] theorem State.returnBits_fault (s : State) (v : Nat) : (s.returnBits v).fault = s.fault := rfl
@[simp] theorem State.returnBits_cause (s : State) (v : Nat) : (s.returnBits v).cause = s.cause := rfl
@[simp] theorem State.returnBits_bsmode (s : State) (v : Nat) : (s.returnBits v).bsmode = s.bsmode := rfl
@[simp] theorem State.returnBits_underrun (s : State) (v : Nat) : (s.returnBits v).underrun = s.underrun := rfl
@[simp] theorem State.returnBits_skip (s : State) (v : Nat) : (s.returnBits v).skip = s.skip := rfl
@[simp] theorem State.returnBits_strip (s : State) (v : Nat) : (s.returnBits v).strip = s.strip := rfl
@[simp] theorem State.returnBits_block (s : State) (v : Nat) : (s.returnBits v).block = s.block := rfl
@[simp] theorem State.returnBits_dlen (s : State) (v : Nat) : (s.returnBits v).dlen = s.dlen := rfl
@[simp] theorem State.returnBits_slen (s : State) (v : Nat) : (s.returnBits v).slen = s.slen := rfl
@[simp] theorem State.returnBits_bitlen (s : State) (v : Nat) : (s.returnBits v).bitlen = s.bitlen := rfl
@[simp] theorem State.returnBits_acc (s : State) (v : Nat) : (s.returnBits v).acc = s.acc := rfl
@[simp] theorem State.returnBits_fill (s : State) (v : Nat) : (s.returnBits v).fill = s.fill := rfl
@[simp] theorem State.returnBits_spos (s : State) (v : Nat) : (s.returnBits v).spos = s.spos := rfl
@[simp] theorem State.returnBits_rpos (s : State) (v : Nat) : (s.returnBits v).rpos = s.rpos := rfl
@[simp] theorem State.returnBits_result (s : State) (v : Nat) : (s.returnBits v).result = BitVec.ofNat 32 v := rfl
@[simp] theorem State.returnBits_data (s : State) (v : Nat) : (s.returnBits v).data = s.data := rfl
@[simp] theorem State.returnBits_stream (s : State) (v : Nat) : (s.returnBits v).stream = s.stream := rfl
@[simp] theorem State.returnBits_scratch (s : State) (v : Nat) : (s.returnBits v).scratch = s.scratch := rfl
@[simp] theorem State.returnBits_enc (s : State) (v : Nat) : (s.returnBits v).enc = s.enc := rfl
@[simp] theorem State.returnBits_dec (s : State) (v : Nat) : (s.returnBits v).dec = s.dec := rfl
@[simp] theorem State.returnBits_phase (s : State) (v : Nat) : (s.returnBits v).phase = s.phase := rfl
@[simp] theorem State.returnBits_inputs (s : State) (v : Nat) : (s.returnBits v).inputs = s.inputs := rfl
@[simp] theorem State.returnBits_responses (s : State) (v : Nat) : (s.returnBits v).responses = s.responses ++ [BitVec.ofNat 64 v] := rfl
@[simp] theorem State.returnBits_hostReads (s : State) (v : Nat) : (s.returnBits v).hostReads = s.hostReads := rfl
@[simp] theorem State.returnBits_cfg (s : State) (v : Nat) : (s.returnBits v).cfg = s.cfg := rfl

/-! ### `emitted` -/

@[simp] theorem State.emitted_fault (s : State) : (s.emitted).fault = s.fault := rfl
@[simp] theorem State.emitted_cause (s : State) : (s.emitted).cause = s.cause := rfl
@[simp] theorem State.emitted_bsmode (s : State) : (s.emitted).bsmode = s.bsmode := rfl
@[simp] theorem State.emitted_underrun (s : State) : (s.emitted).underrun = s.underrun := rfl
@[simp] theorem State.emitted_skip (s : State) : (s.emitted).skip = s.skip := rfl
@[simp] theorem State.emitted_strip (s : State) : (s.emitted).strip = s.strip := rfl
@[simp] theorem State.emitted_block (s : State) : (s.emitted).block = s.block := rfl
@[simp] theorem State.emitted_dlen (s : State) : (s.emitted).dlen = s.dlen := rfl
@[simp] theorem State.emitted_slen (s : State) : (s.emitted).slen = s.slen := rfl
@[simp] theorem State.emitted_bitlen (s : State) : (s.emitted).bitlen = s.bitlen := rfl
@[simp] theorem State.emitted_acc (s : State) : (s.emitted).acc = s.acc := rfl
@[simp] theorem State.emitted_fill (s : State) : (s.emitted).fill = s.fill := rfl
@[simp] theorem State.emitted_spos (s : State) : (s.emitted).spos = s.spos := rfl
@[simp] theorem State.emitted_rpos (s : State) : (s.emitted).rpos = s.rpos := rfl
@[simp] theorem State.emitted_result (s : State) : (s.emitted).result = s.result := rfl
@[simp] theorem State.emitted_data (s : State) : (s.emitted).data = s.data := rfl
@[simp] theorem State.emitted_stream (s : State) : (s.emitted).stream = s.stream := rfl
@[simp] theorem State.emitted_scratch (s : State) : (s.emitted).scratch = s.scratch := rfl
@[simp] theorem State.emitted_enc (s : State) : (s.emitted).enc = { s.enc with e := s.enc.e + s.enc.cnt2 } := rfl
@[simp] theorem State.emitted_dec (s : State) : (s.emitted).dec = s.dec := rfl
@[simp] theorem State.emitted_phase (s : State) : (s.emitted).phase = s.phase := rfl
@[simp] theorem State.emitted_inputs (s : State) : (s.emitted).inputs = s.inputs := rfl
@[simp] theorem State.emitted_responses (s : State) : (s.emitted).responses = s.responses := rfl
@[simp] theorem State.emitted_hostReads (s : State) : (s.emitted).hostReads = s.hostReads := rfl
@[simp] theorem State.emitted_cfg (s : State) : (s.emitted).cfg = s.cfg := rfl

/-! ### `mergeRuns` -/

@[simp] theorem State.mergeRuns_fault (s : State) : (s.mergeRuns).fault = s.fault := rfl
@[simp] theorem State.mergeRuns_cause (s : State) : (s.mergeRuns).cause = s.cause := rfl
@[simp] theorem State.mergeRuns_bsmode (s : State) : (s.mergeRuns).bsmode = s.bsmode := rfl
@[simp] theorem State.mergeRuns_underrun (s : State) : (s.mergeRuns).underrun = s.underrun := rfl
@[simp] theorem State.mergeRuns_skip (s : State) : (s.mergeRuns).skip = s.skip := rfl
@[simp] theorem State.mergeRuns_strip (s : State) : (s.mergeRuns).strip = s.strip := rfl
@[simp] theorem State.mergeRuns_block (s : State) : (s.mergeRuns).block = s.block := rfl
@[simp] theorem State.mergeRuns_dlen (s : State) : (s.mergeRuns).dlen = s.dlen := rfl
@[simp] theorem State.mergeRuns_slen (s : State) : (s.mergeRuns).slen = s.slen := rfl
@[simp] theorem State.mergeRuns_bitlen (s : State) : (s.mergeRuns).bitlen = s.bitlen := rfl
@[simp] theorem State.mergeRuns_acc (s : State) : (s.mergeRuns).acc = s.acc := rfl
@[simp] theorem State.mergeRuns_fill (s : State) : (s.mergeRuns).fill = s.fill := rfl
@[simp] theorem State.mergeRuns_spos (s : State) : (s.mergeRuns).spos = s.spos := rfl
@[simp] theorem State.mergeRuns_rpos (s : State) : (s.mergeRuns).rpos = s.rpos := rfl
@[simp] theorem State.mergeRuns_result (s : State) : (s.mergeRuns).result = s.result := rfl
@[simp] theorem State.mergeRuns_data (s : State) : (s.mergeRuns).data = s.data := rfl
@[simp] theorem State.mergeRuns_stream (s : State) : (s.mergeRuns).stream = s.stream := rfl
@[simp] theorem State.mergeRuns_scratch (s : State) : (s.mergeRuns).scratch = s.scratch := rfl
@[simp] theorem State.mergeRuns_enc (s : State) : (s.mergeRuns).enc = { s.enc with cnt2 := s.enc.cnt1 + s.enc.cnt2, bits2 := max s.enc.bits1 s.enc.bits2 } := rfl
@[simp] theorem State.mergeRuns_dec (s : State) : (s.mergeRuns).dec = s.dec := rfl
@[simp] theorem State.mergeRuns_phase (s : State) : (s.mergeRuns).phase = s.phase := rfl
@[simp] theorem State.mergeRuns_inputs (s : State) : (s.mergeRuns).inputs = s.inputs := rfl
@[simp] theorem State.mergeRuns_responses (s : State) : (s.mergeRuns).responses = s.responses := rfl
@[simp] theorem State.mergeRuns_hostReads (s : State) : (s.mergeRuns).hostReads = s.hostReads := rfl
@[simp] theorem State.mergeRuns_cfg (s : State) : (s.mergeRuns).cfg = s.cfg := rfl

/-! ### `rotateRuns` -/

@[simp] theorem State.rotateRuns_fault (s : State) : (s.rotateRuns).fault = s.fault := rfl
@[simp] theorem State.rotateRuns_cause (s : State) : (s.rotateRuns).cause = s.cause := rfl
@[simp] theorem State.rotateRuns_bsmode (s : State) : (s.rotateRuns).bsmode = s.bsmode := rfl
@[simp] theorem State.rotateRuns_underrun (s : State) : (s.rotateRuns).underrun = s.underrun := rfl
@[simp] theorem State.rotateRuns_skip (s : State) : (s.rotateRuns).skip = s.skip := rfl
@[simp] theorem State.rotateRuns_strip (s : State) : (s.rotateRuns).strip = s.strip := rfl
@[simp] theorem State.rotateRuns_block (s : State) : (s.rotateRuns).block = s.block := rfl
@[simp] theorem State.rotateRuns_dlen (s : State) : (s.rotateRuns).dlen = s.dlen := rfl
@[simp] theorem State.rotateRuns_slen (s : State) : (s.rotateRuns).slen = s.slen := rfl
@[simp] theorem State.rotateRuns_bitlen (s : State) : (s.rotateRuns).bitlen = s.bitlen := rfl
@[simp] theorem State.rotateRuns_acc (s : State) : (s.rotateRuns).acc = s.acc := rfl
@[simp] theorem State.rotateRuns_fill (s : State) : (s.rotateRuns).fill = s.fill := rfl
@[simp] theorem State.rotateRuns_spos (s : State) : (s.rotateRuns).spos = s.spos := rfl
@[simp] theorem State.rotateRuns_rpos (s : State) : (s.rotateRuns).rpos = s.rpos := rfl
@[simp] theorem State.rotateRuns_result (s : State) : (s.rotateRuns).result = s.result := rfl
@[simp] theorem State.rotateRuns_data (s : State) : (s.rotateRuns).data = s.data := rfl
@[simp] theorem State.rotateRuns_stream (s : State) : (s.rotateRuns).stream = s.stream := rfl
@[simp] theorem State.rotateRuns_scratch (s : State) : (s.rotateRuns).scratch = s.scratch := rfl
@[simp] theorem State.rotateRuns_enc (s : State) : (s.rotateRuns).enc = { s.enc with cnt2 := s.enc.cnt1, bits2 := s.enc.bits1 } := rfl
@[simp] theorem State.rotateRuns_dec (s : State) : (s.rotateRuns).dec = s.dec := rfl
@[simp] theorem State.rotateRuns_phase (s : State) : (s.rotateRuns).phase = s.phase := rfl
@[simp] theorem State.rotateRuns_inputs (s : State) : (s.rotateRuns).inputs = s.inputs := rfl
@[simp] theorem State.rotateRuns_responses (s : State) : (s.rotateRuns).responses = s.responses := rfl
@[simp] theorem State.rotateRuns_hostReads (s : State) : (s.rotateRuns).hostReads = s.hostReads := rfl
@[simp] theorem State.rotateRuns_cfg (s : State) : (s.rotateRuns).cfg = s.cfg := rfl

/-! ### `setCurrent` -/

@[simp] theorem State.setCurrent_fault (s : State) (c w : Nat) : (s.setCurrent c w).fault = s.fault := rfl
@[simp] theorem State.setCurrent_cause (s : State) (c w : Nat) : (s.setCurrent c w).cause = s.cause := rfl
@[simp] theorem State.setCurrent_bsmode (s : State) (c w : Nat) : (s.setCurrent c w).bsmode = s.bsmode := rfl
@[simp] theorem State.setCurrent_underrun (s : State) (c w : Nat) : (s.setCurrent c w).underrun = s.underrun := rfl
@[simp] theorem State.setCurrent_skip (s : State) (c w : Nat) : (s.setCurrent c w).skip = s.skip := rfl
@[simp] theorem State.setCurrent_strip (s : State) (c w : Nat) : (s.setCurrent c w).strip = s.strip := rfl
@[simp] theorem State.setCurrent_block (s : State) (c w : Nat) : (s.setCurrent c w).block = s.block := rfl
@[simp] theorem State.setCurrent_dlen (s : State) (c w : Nat) : (s.setCurrent c w).dlen = s.dlen := rfl
@[simp] theorem State.setCurrent_slen (s : State) (c w : Nat) : (s.setCurrent c w).slen = s.slen := rfl
@[simp] theorem State.setCurrent_bitlen (s : State) (c w : Nat) : (s.setCurrent c w).bitlen = s.bitlen := rfl
@[simp] theorem State.setCurrent_acc (s : State) (c w : Nat) : (s.setCurrent c w).acc = s.acc := rfl
@[simp] theorem State.setCurrent_fill (s : State) (c w : Nat) : (s.setCurrent c w).fill = s.fill := rfl
@[simp] theorem State.setCurrent_spos (s : State) (c w : Nat) : (s.setCurrent c w).spos = s.spos := rfl
@[simp] theorem State.setCurrent_rpos (s : State) (c w : Nat) : (s.setCurrent c w).rpos = s.rpos := rfl
@[simp] theorem State.setCurrent_result (s : State) (c w : Nat) : (s.setCurrent c w).result = s.result := rfl
@[simp] theorem State.setCurrent_data (s : State) (c w : Nat) : (s.setCurrent c w).data = s.data := rfl
@[simp] theorem State.setCurrent_stream (s : State) (c w : Nat) : (s.setCurrent c w).stream = s.stream := rfl
@[simp] theorem State.setCurrent_scratch (s : State) (c w : Nat) : (s.setCurrent c w).scratch = s.scratch := rfl
@[simp] theorem State.setCurrent_enc (s : State) (c w : Nat) : (s.setCurrent c w).enc = { s.enc with cnt1 := c, bits1 := w } := rfl
@[simp] theorem State.setCurrent_dec (s : State) (c w : Nat) : (s.setCurrent c w).dec = s.dec := rfl
@[simp] theorem State.setCurrent_phase (s : State) (c w : Nat) : (s.setCurrent c w).phase = s.phase := rfl
@[simp] theorem State.setCurrent_inputs (s : State) (c w : Nat) : (s.setCurrent c w).inputs = s.inputs := rfl
@[simp] theorem State.setCurrent_responses (s : State) (c w : Nat) : (s.setCurrent c w).responses = s.responses := rfl
@[simp] theorem State.setCurrent_hostReads (s : State) (c w : Nat) : (s.setCurrent c w).hostReads = s.hostReads := rfl
@[simp] theorem State.setCurrent_cfg (s : State) (c w : Nat) : (s.setCurrent c w).cfg = s.cfg := rfl

/-! ### `scanned` -/

@[simp] theorem State.scanned_fault (s : State) : (s.scanned).fault = s.fault := rfl
@[simp] theorem State.scanned_cause (s : State) : (s.scanned).cause = s.cause := rfl
@[simp] theorem State.scanned_bsmode (s : State) : (s.scanned).bsmode = s.bsmode := rfl
@[simp] theorem State.scanned_underrun (s : State) : (s.scanned).underrun = s.underrun := rfl
@[simp] theorem State.scanned_skip (s : State) : (s.scanned).skip = s.skip := rfl
@[simp] theorem State.scanned_strip (s : State) : (s.scanned).strip = s.strip := rfl
@[simp] theorem State.scanned_block (s : State) : (s.scanned).block = s.block := rfl
@[simp] theorem State.scanned_dlen (s : State) : (s.scanned).dlen = s.dlen := rfl
@[simp] theorem State.scanned_slen (s : State) : (s.scanned).slen = s.slen := rfl
@[simp] theorem State.scanned_bitlen (s : State) : (s.scanned).bitlen = s.bitlen := rfl
@[simp] theorem State.scanned_acc (s : State) : (s.scanned).acc = s.acc := rfl
@[simp] theorem State.scanned_fill (s : State) : (s.scanned).fill = s.fill := rfl
@[simp] theorem State.scanned_spos (s : State) : (s.scanned).spos = s.spos := rfl
@[simp] theorem State.scanned_rpos (s : State) : (s.scanned).rpos = s.rpos := rfl
@[simp] theorem State.scanned_result (s : State) : (s.scanned).result = s.result := rfl
@[simp] theorem State.scanned_data (s : State) : (s.scanned).data = s.data := rfl
@[simp] theorem State.scanned_stream (s : State) : (s.scanned).stream = s.stream := rfl
@[simp] theorem State.scanned_scratch (s : State) : (s.scanned).scratch = s.scratch := rfl
@[simp] theorem State.scanned_enc (s : State) : (s.scanned).enc = { s.enc with i := s.enc.i + 1 } := rfl
@[simp] theorem State.scanned_dec (s : State) : (s.scanned).dec = s.dec := rfl
@[simp] theorem State.scanned_phase (s : State) : (s.scanned).phase = s.phase := rfl
@[simp] theorem State.scanned_inputs (s : State) : (s.scanned).inputs = s.inputs := rfl
@[simp] theorem State.scanned_responses (s : State) : (s.scanned).responses = s.responses := rfl
@[simp] theorem State.scanned_hostReads (s : State) : (s.scanned).hostReads = s.hostReads := rfl
@[simp] theorem State.scanned_cfg (s : State) : (s.scanned).cfg = s.cfg := rfl

/-! ### `endEncode` -/

@[simp] theorem State.endEncode_fault (s : State) : (s.endEncode).fault = s.fault := rfl
@[simp] theorem State.endEncode_cause (s : State) : (s.endEncode).cause = s.cause := rfl
@[simp] theorem State.endEncode_bsmode (s : State) : (s.endEncode).bsmode = .closed := rfl
@[simp] theorem State.endEncode_underrun (s : State) : (s.endEncode).underrun = s.underrun := rfl
@[simp] theorem State.endEncode_skip (s : State) : (s.endEncode).skip = s.skip := rfl
@[simp] theorem State.endEncode_strip (s : State) : (s.endEncode).strip = s.strip := rfl
@[simp] theorem State.endEncode_block (s : State) : (s.endEncode).block = s.block := rfl
@[simp] theorem State.endEncode_dlen (s : State) : (s.endEncode).dlen = s.dlen := rfl
@[simp] theorem State.endEncode_slen (s : State) : (s.endEncode).slen = s.slen := rfl
@[simp] theorem State.endEncode_bitlen (s : State) : (s.endEncode).bitlen = s.bitlen := rfl
@[simp] theorem State.endEncode_acc (s : State) : (s.endEncode).acc = s.acc := rfl
@[simp] theorem State.endEncode_fill (s : State) : (s.endEncode).fill = s.fill := rfl
@[simp] theorem State.endEncode_spos (s : State) : (s.endEncode).spos = s.spos := rfl
@[simp] theorem State.endEncode_rpos (s : State) : (s.endEncode).rpos = s.rpos := rfl
@[simp] theorem State.endEncode_result (s : State) : (s.endEncode).result = s.result := rfl
@[simp] theorem State.endEncode_data (s : State) : (s.endEncode).data = s.data := rfl
@[simp] theorem State.endEncode_stream (s : State) : (s.endEncode).stream = s.stream := rfl
@[simp] theorem State.endEncode_scratch (s : State) : (s.endEncode).scratch = [] := rfl
@[simp] theorem State.endEncode_enc (s : State) : (s.endEncode).enc = {} := rfl
@[simp] theorem State.endEncode_dec (s : State) : (s.endEncode).dec = {} := rfl
@[simp] theorem State.endEncode_phase (s : State) : (s.endEncode).phase = .idle := rfl
@[simp] theorem State.endEncode_inputs (s : State) : (s.endEncode).inputs = s.inputs := rfl
@[simp] theorem State.endEncode_responses (s : State) : (s.endEncode).responses = s.responses := rfl
@[simp] theorem State.endEncode_hostReads (s : State) : (s.endEncode).hostReads = s.hostReads := rfl
@[simp] theorem State.endEncode_cfg (s : State) : (s.endEncode).cfg = s.cfg := rfl

/-! ### `openTokens` -/

@[simp] theorem State.openTokens_fault (s : State) (a : BitVec 2) (b : BitVec 16) : (s.openTokens a b).fault = s.fault := rfl
@[simp] theorem State.openTokens_cause (s : State) (a : BitVec 2) (b : BitVec 16) : (s.openTokens a b).cause = s.cause := rfl
@[simp] theorem State.openTokens_bsmode (s : State) (a : BitVec 2) (b : BitVec 16) : (s.openTokens a b).bsmode = s.bsmode := rfl
@[simp] theorem State.openTokens_underrun (s : State) (a : BitVec 2) (b : BitVec 16) : (s.openTokens a b).underrun = s.underrun := rfl
@[simp] theorem State.openTokens_skip (s : State) (a : BitVec 2) (b : BitVec 16) : (s.openTokens a b).skip = a := rfl
@[simp] theorem State.openTokens_strip (s : State) (a : BitVec 2) (b : BitVec 16) : (s.openTokens a b).strip = b := rfl
@[simp] theorem State.openTokens_block (s : State) (a : BitVec 2) (b : BitVec 16) : (s.openTokens a b).block = s.block := rfl
@[simp] theorem State.openTokens_dlen (s : State) (a : BitVec 2) (b : BitVec 16) : (s.openTokens a b).dlen = s.dlen := rfl
@[simp] theorem State.openTokens_slen (s : State) (a : BitVec 2) (b : BitVec 16) : (s.openTokens a b).slen = s.slen := rfl
@[simp] theorem State.openTokens_bitlen (s : State) (a : BitVec 2) (b : BitVec 16) : (s.openTokens a b).bitlen = s.bitlen := rfl
@[simp] theorem State.openTokens_acc (s : State) (a : BitVec 2) (b : BitVec 16) : (s.openTokens a b).acc = s.acc := rfl
@[simp] theorem State.openTokens_fill (s : State) (a : BitVec 2) (b : BitVec 16) : (s.openTokens a b).fill = s.fill := rfl
@[simp] theorem State.openTokens_spos (s : State) (a : BitVec 2) (b : BitVec 16) : (s.openTokens a b).spos = s.spos := rfl
@[simp] theorem State.openTokens_rpos (s : State) (a : BitVec 2) (b : BitVec 16) : (s.openTokens a b).rpos = s.rpos := rfl
@[simp] theorem State.openTokens_result (s : State) (a : BitVec 2) (b : BitVec 16) : (s.openTokens a b).result = s.result := rfl
@[simp] theorem State.openTokens_data (s : State) (a : BitVec 2) (b : BitVec 16) : (s.openTokens a b).data = s.data := rfl
@[simp] theorem State.openTokens_stream (s : State) (a : BitVec 2) (b : BitVec 16) : (s.openTokens a b).stream = s.stream := rfl
@[simp] theorem State.openTokens_scratch (s : State) (a : BitVec 2) (b : BitVec 16) : (s.openTokens a b).scratch = s.scratch := rfl
@[simp] theorem State.openTokens_enc (s : State) (a : BitVec 2) (b : BitVec 16) : (s.openTokens a b).enc = s.enc := rfl
@[simp] theorem State.openTokens_dec (s : State) (a : BitVec 2) (b : BitVec 16) : (s.openTokens a b).dec = { hs := a.toNat + 1, ht := b.toNat + 1 } := rfl
@[simp] theorem State.openTokens_phase (s : State) (a : BitVec 2) (b : BitVec 16) : (s.openTokens a b).phase = .tokens := rfl
@[simp] theorem State.openTokens_inputs (s : State) (a : BitVec 2) (b : BitVec 16) : (s.openTokens a b).inputs = s.inputs := rfl
@[simp] theorem State.openTokens_responses (s : State) (a : BitVec 2) (b : BitVec 16) : (s.openTokens a b).responses = s.responses := rfl
@[simp] theorem State.openTokens_hostReads (s : State) (a : BitVec 2) (b : BitVec 16) : (s.openTokens a b).hostReads = s.hostReads := rfl
@[simp] theorem State.openTokens_cfg (s : State) (a : BitVec 2) (b : BitVec 16) : (s.openTokens a b).cfg = s.cfg := rfl

/-! ### `append` -/

@[simp] theorem State.append_fault (s : State) (b : Byte) : (s.append b).fault = s.fault := rfl
@[simp] theorem State.append_cause (s : State) (b : Byte) : (s.append b).cause = s.cause := rfl
@[simp] theorem State.append_bsmode (s : State) (b : Byte) : (s.append b).bsmode = s.bsmode := rfl
@[simp] theorem State.append_underrun (s : State) (b : Byte) : (s.append b).underrun = s.underrun := rfl
@[simp] theorem State.append_skip (s : State) (b : Byte) : (s.append b).skip = s.skip := rfl
@[simp] theorem State.append_strip (s : State) (b : Byte) : (s.append b).strip = s.strip := rfl
@[simp] theorem State.append_block (s : State) (b : Byte) : (s.append b).block = s.block := rfl
@[simp] theorem State.append_dlen (s : State) (b : Byte) : (s.append b).dlen = s.dlen := rfl
@[simp] theorem State.append_slen (s : State) (b : Byte) : (s.append b).slen = s.slen := rfl
@[simp] theorem State.append_bitlen (s : State) (b : Byte) : (s.append b).bitlen = s.bitlen := rfl
@[simp] theorem State.append_acc (s : State) (b : Byte) : (s.append b).acc = s.acc := rfl
@[simp] theorem State.append_fill (s : State) (b : Byte) : (s.append b).fill = s.fill := rfl
@[simp] theorem State.append_spos (s : State) (b : Byte) : (s.append b).spos = s.spos := rfl
@[simp] theorem State.append_rpos (s : State) (b : Byte) : (s.append b).rpos = s.rpos := rfl
@[simp] theorem State.append_result (s : State) (b : Byte) : (s.append b).result = s.result := rfl
@[simp] theorem State.append_data (s : State) (b : Byte) : (s.append b).data = s.data.write s.dec.n b := rfl
@[simp] theorem State.append_stream (s : State) (b : Byte) : (s.append b).stream = s.stream := rfl
@[simp] theorem State.append_scratch (s : State) (b : Byte) : (s.append b).scratch = s.scratch := rfl
@[simp] theorem State.append_enc (s : State) (b : Byte) : (s.append b).enc = s.enc := rfl
@[simp] theorem State.append_dec (s : State) (b : Byte) : (s.append b).dec = { s.dec with act := b, n := s.dec.n + 1 } := rfl
@[simp] theorem State.append_phase (s : State) (b : Byte) : (s.append b).phase = s.phase := rfl
@[simp] theorem State.append_inputs (s : State) (b : Byte) : (s.append b).inputs = s.inputs := rfl
@[simp] theorem State.append_responses (s : State) (b : Byte) : (s.append b).responses = s.responses := rfl
@[simp] theorem State.append_hostReads (s : State) (b : Byte) : (s.append b).hostReads = s.hostReads := rfl
@[simp] theorem State.append_cfg (s : State) (b : Byte) : (s.append b).cfg = s.cfg := rfl

/-! ### `startToken` -/

@[simp] theorem State.startToken_fault (s : State) (count bits : Nat) : (s.startToken count bits).fault = s.fault := rfl
@[simp] theorem State.startToken_cause (s : State) (count bits : Nat) : (s.startToken count bits).cause = s.cause := rfl
@[simp] theorem State.startToken_bsmode (s : State) (count bits : Nat) : (s.startToken count bits).bsmode = s.bsmode := rfl
@[simp] theorem State.startToken_underrun (s : State) (count bits : Nat) : (s.startToken count bits).underrun = s.underrun := rfl
@[simp] theorem State.startToken_skip (s : State) (count bits : Nat) : (s.startToken count bits).skip = s.skip := rfl
@[simp] theorem State.startToken_strip (s : State) (count bits : Nat) : (s.startToken count bits).strip = s.strip := rfl
@[simp] theorem State.startToken_block (s : State) (count bits : Nat) : (s.startToken count bits).block = s.block := rfl
@[simp] theorem State.startToken_dlen (s : State) (count bits : Nat) : (s.startToken count bits).dlen = s.dlen := rfl
@[simp] theorem State.startToken_slen (s : State) (count bits : Nat) : (s.startToken count bits).slen = s.slen := rfl
@[simp] theorem State.startToken_bitlen (s : State) (count bits : Nat) : (s.startToken count bits).bitlen = s.bitlen := rfl
@[simp] theorem State.startToken_acc (s : State) (count bits : Nat) : (s.startToken count bits).acc = s.acc := rfl
@[simp] theorem State.startToken_fill (s : State) (count bits : Nat) : (s.startToken count bits).fill = s.fill := rfl
@[simp] theorem State.startToken_spos (s : State) (count bits : Nat) : (s.startToken count bits).spos = s.spos := rfl
@[simp] theorem State.startToken_rpos (s : State) (count bits : Nat) : (s.startToken count bits).rpos = s.rpos := rfl
@[simp] theorem State.startToken_result (s : State) (count bits : Nat) : (s.startToken count bits).result = s.result := rfl
@[simp] theorem State.startToken_data (s : State) (count bits : Nat) : (s.startToken count bits).data = s.data := rfl
@[simp] theorem State.startToken_stream (s : State) (count bits : Nat) : (s.startToken count bits).stream = s.stream := rfl
@[simp] theorem State.startToken_scratch (s : State) (count bits : Nat) : (s.startToken count bits).scratch = s.scratch := rfl
@[simp] theorem State.startToken_enc (s : State) (count bits : Nat) : (s.startToken count bits).enc = s.enc := rfl
@[simp] theorem State.startToken_dec (s : State) (count bits : Nat) : (s.startToken count bits).dec = { s.dec with cnt := count, bits := bits } := rfl
@[simp] theorem State.startToken_phase (s : State) (count bits : Nat) : (s.startToken count bits).phase = s.phase := rfl
@[simp] theorem State.startToken_inputs (s : State) (count bits : Nat) : (s.startToken count bits).inputs = s.inputs := rfl
@[simp] theorem State.startToken_responses (s : State) (count bits : Nat) : (s.startToken count bits).responses = s.responses := rfl
@[simp] theorem State.startToken_hostReads (s : State) (count bits : Nat) : (s.startToken count bits).hostReads = s.hostReads := rfl
@[simp] theorem State.startToken_cfg (s : State) (count bits : Nat) : (s.startToken count bits).cfg = s.cfg := rfl

/-! ### `endDecode` -/

@[simp] theorem State.endDecode_fault (s : State) : (s.endDecode).fault = s.fault := rfl
@[simp] theorem State.endDecode_cause (s : State) : (s.endDecode).cause = s.cause := rfl
@[simp] theorem State.endDecode_bsmode (s : State) : (s.endDecode).bsmode = .read := rfl
@[simp] theorem State.endDecode_underrun (s : State) : (s.endDecode).underrun = s.underrun := rfl
@[simp] theorem State.endDecode_skip (s : State) : (s.endDecode).skip = s.skip := rfl
@[simp] theorem State.endDecode_strip (s : State) : (s.endDecode).strip = s.strip := rfl
@[simp] theorem State.endDecode_block (s : State) : (s.endDecode).block = s.block := rfl
@[simp] theorem State.endDecode_dlen (s : State) : (s.endDecode).dlen = BitVec.ofNat 32 s.dec.n := rfl
@[simp] theorem State.endDecode_slen (s : State) : (s.endDecode).slen = s.slen := rfl
@[simp] theorem State.endDecode_bitlen (s : State) : (s.endDecode).bitlen = s.bitlen := rfl
@[simp] theorem State.endDecode_acc (s : State) : (s.endDecode).acc = s.acc := rfl
@[simp] theorem State.endDecode_fill (s : State) : (s.endDecode).fill = s.fill := rfl
@[simp] theorem State.endDecode_spos (s : State) : (s.endDecode).spos = s.spos := rfl
@[simp] theorem State.endDecode_rpos (s : State) : (s.endDecode).rpos = s.rpos := rfl
@[simp] theorem State.endDecode_result (s : State) : (s.endDecode).result = s.result := rfl
@[simp] theorem State.endDecode_data (s : State) : (s.endDecode).data = if s.dec.n < s.dlen.toNat then s.data.below s.dec.n else s.data := rfl
@[simp] theorem State.endDecode_stream (s : State) : (s.endDecode).stream = s.stream := rfl
@[simp] theorem State.endDecode_scratch (s : State) : (s.endDecode).scratch = [] := rfl
@[simp] theorem State.endDecode_enc (s : State) : (s.endDecode).enc = {} := rfl
@[simp] theorem State.endDecode_dec (s : State) : (s.endDecode).dec = {} := rfl
@[simp] theorem State.endDecode_phase (s : State) : (s.endDecode).phase = .idle := rfl
@[simp] theorem State.endDecode_inputs (s : State) : (s.endDecode).inputs = s.inputs := rfl
@[simp] theorem State.endDecode_responses (s : State) : (s.endDecode).responses = s.responses := rfl
@[simp] theorem State.endDecode_hostReads (s : State) : (s.endDecode).hostReads = s.hostReads := rfl
@[simp] theorem State.endDecode_cfg (s : State) : (s.endDecode).cfg = s.cfg := rfl

/-! ### `moveWindow` -/

@[simp] theorem State.moveWindow_fault (s : State) (o len : Nat) (target source : Nat → Nat) : (s.moveWindow o len target source).fault = s.fault := rfl
@[simp] theorem State.moveWindow_cause (s : State) (o len : Nat) (target source : Nat → Nat) : (s.moveWindow o len target source).cause = s.cause := rfl
@[simp] theorem State.moveWindow_bsmode (s : State) (o len : Nat) (target source : Nat → Nat) : (s.moveWindow o len target source).bsmode = s.bsmode := rfl
@[simp] theorem State.moveWindow_underrun (s : State) (o len : Nat) (target source : Nat → Nat) : (s.moveWindow o len target source).underrun = s.underrun := rfl
@[simp] theorem State.moveWindow_skip (s : State) (o len : Nat) (target source : Nat → Nat) : (s.moveWindow o len target source).skip = s.skip := rfl
@[simp] theorem State.moveWindow_strip (s : State) (o len : Nat) (target source : Nat → Nat) : (s.moveWindow o len target source).strip = s.strip := rfl
@[simp] theorem State.moveWindow_block (s : State) (o len : Nat) (target source : Nat → Nat) : (s.moveWindow o len target source).block = s.block := rfl
@[simp] theorem State.moveWindow_dlen (s : State) (o len : Nat) (target source : Nat → Nat) : (s.moveWindow o len target source).dlen = s.dlen := rfl
@[simp] theorem State.moveWindow_slen (s : State) (o len : Nat) (target source : Nat → Nat) : (s.moveWindow o len target source).slen = s.slen := rfl
@[simp] theorem State.moveWindow_bitlen (s : State) (o len : Nat) (target source : Nat → Nat) : (s.moveWindow o len target source).bitlen = s.bitlen := rfl
@[simp] theorem State.moveWindow_acc (s : State) (o len : Nat) (target source : Nat → Nat) : (s.moveWindow o len target source).acc = s.acc := rfl
@[simp] theorem State.moveWindow_fill (s : State) (o len : Nat) (target source : Nat → Nat) : (s.moveWindow o len target source).fill = s.fill := rfl
@[simp] theorem State.moveWindow_spos (s : State) (o len : Nat) (target source : Nat → Nat) : (s.moveWindow o len target source).spos = s.spos := rfl
@[simp] theorem State.moveWindow_rpos (s : State) (o len : Nat) (target source : Nat → Nat) : (s.moveWindow o len target source).rpos = s.rpos := rfl
@[simp] theorem State.moveWindow_result (s : State) (o len : Nat) (target source : Nat → Nat) : (s.moveWindow o len target source).result = s.result := rfl
@[simp] theorem State.moveWindow_data (s : State) (o len : Nat) (target source : Nat → Nat) : (s.moveWindow o len target source).data = copyBack o len (gather target source len s.data s.scratch) s.data := rfl
@[simp] theorem State.moveWindow_stream (s : State) (o len : Nat) (target source : Nat → Nat) : (s.moveWindow o len target source).stream = s.stream := rfl
@[simp] theorem State.moveWindow_scratch (s : State) (o len : Nat) (target source : Nat → Nat) : (s.moveWindow o len target source).scratch = gather target source len s.data s.scratch := rfl
@[simp] theorem State.moveWindow_enc (s : State) (o len : Nat) (target source : Nat → Nat) : (s.moveWindow o len target source).enc = s.enc := rfl
@[simp] theorem State.moveWindow_dec (s : State) (o len : Nat) (target source : Nat → Nat) : (s.moveWindow o len target source).dec = s.dec := rfl
@[simp] theorem State.moveWindow_phase (s : State) (o len : Nat) (target source : Nat → Nat) : (s.moveWindow o len target source).phase = s.phase := rfl
@[simp] theorem State.moveWindow_inputs (s : State) (o len : Nat) (target source : Nat → Nat) : (s.moveWindow o len target source).inputs = s.inputs := rfl
@[simp] theorem State.moveWindow_responses (s : State) (o len : Nat) (target source : Nat → Nat) : (s.moveWindow o len target source).responses = s.responses := rfl
@[simp] theorem State.moveWindow_hostReads (s : State) (o len : Nat) (target source : Nat → Nat) : (s.moveWindow o len target source).hostReads = s.hostReads := rfl
@[simp] theorem State.moveWindow_cfg (s : State) (o len : Nat) (target source : Nat → Nat) : (s.moveWindow o len target source).cfg = s.cfg := rfl

/-! ### `withCommand` -/

@[simp] theorem State.withCommand_fault (s : State) (w : CommandWord) : (s.withCommand w).fault = s.fault := rfl
@[simp] theorem State.withCommand_cause (s : State) (w : CommandWord) : (s.withCommand w).cause = s.cause := rfl
@[simp] theorem State.withCommand_bsmode (s : State) (w : CommandWord) : (s.withCommand w).bsmode = s.bsmode := rfl
@[simp] theorem State.withCommand_underrun (s : State) (w : CommandWord) : (s.withCommand w).underrun = s.underrun := rfl
@[simp] theorem State.withCommand_skip (s : State) (w : CommandWord) : (s.withCommand w).skip = s.skip := rfl
@[simp] theorem State.withCommand_strip (s : State) (w : CommandWord) : (s.withCommand w).strip = s.strip := rfl
@[simp] theorem State.withCommand_block (s : State) (w : CommandWord) : (s.withCommand w).block = s.block := rfl
@[simp] theorem State.withCommand_dlen (s : State) (w : CommandWord) : (s.withCommand w).dlen = s.dlen := rfl
@[simp] theorem State.withCommand_slen (s : State) (w : CommandWord) : (s.withCommand w).slen = s.slen := rfl
@[simp] theorem State.withCommand_bitlen (s : State) (w : CommandWord) : (s.withCommand w).bitlen = s.bitlen := rfl
@[simp] theorem State.withCommand_acc (s : State) (w : CommandWord) : (s.withCommand w).acc = s.acc := rfl
@[simp] theorem State.withCommand_fill (s : State) (w : CommandWord) : (s.withCommand w).fill = s.fill := rfl
@[simp] theorem State.withCommand_spos (s : State) (w : CommandWord) : (s.withCommand w).spos = s.spos := rfl
@[simp] theorem State.withCommand_rpos (s : State) (w : CommandWord) : (s.withCommand w).rpos = s.rpos := rfl
@[simp] theorem State.withCommand_result (s : State) (w : CommandWord) : (s.withCommand w).result = s.result := rfl
@[simp] theorem State.withCommand_data (s : State) (w : CommandWord) : (s.withCommand w).data = s.data := rfl
@[simp] theorem State.withCommand_stream (s : State) (w : CommandWord) : (s.withCommand w).stream = s.stream := rfl
@[simp] theorem State.withCommand_scratch (s : State) (w : CommandWord) : (s.withCommand w).scratch = s.scratch := rfl
@[simp] theorem State.withCommand_enc (s : State) (w : CommandWord) : (s.withCommand w).enc = s.enc := rfl
@[simp] theorem State.withCommand_dec (s : State) (w : CommandWord) : (s.withCommand w).dec = s.dec := rfl
@[simp] theorem State.withCommand_phase (s : State) (w : CommandWord) : (s.withCommand w).phase = .idle := rfl
@[simp] theorem State.withCommand_inputs (s : State) (w : CommandWord) : (s.withCommand w).inputs = .command w :: s.inputs := rfl
@[simp] theorem State.withCommand_responses (s : State) (w : CommandWord) : (s.withCommand w).responses = s.responses := rfl
@[simp] theorem State.withCommand_hostReads (s : State) (w : CommandWord) : (s.withCommand w).hostReads = s.hostReads := rfl
@[simp] theorem State.withCommand_cfg (s : State) (w : CommandWord) : (s.withCommand w).cfg = s.cfg := rfl

/-! ### `toReset` -/

@[simp] theorem State.toReset_fault (s : State) : (s.toReset).fault = false := rfl
@[simp] theorem State.toReset_cause (s : State) : (s.toReset).cause = 0 := rfl
@[simp] theorem State.toReset_bsmode (s : State) : (s.toReset).bsmode = .none := rfl
@[simp] theorem State.toReset_underrun (s : State) : (s.toReset).underrun = false := rfl
@[simp] theorem State.toReset_skip (s : State) : (s.toReset).skip = 0 := rfl
@[simp] theorem State.toReset_strip (s : State) : (s.toReset).strip = 0 := rfl
@[simp] theorem State.toReset_block (s : State) : (s.toReset).block = 0 := rfl
@[simp] theorem State.toReset_dlen (s : State) : (s.toReset).dlen = 0 := rfl
@[simp] theorem State.toReset_slen (s : State) : (s.toReset).slen = 0 := rfl
@[simp] theorem State.toReset_bitlen (s : State) : (s.toReset).bitlen = 0 := rfl
@[simp] theorem State.toReset_acc (s : State) : (s.toReset).acc = 0 := rfl
@[simp] theorem State.toReset_fill (s : State) : (s.toReset).fill = 0 := rfl
@[simp] theorem State.toReset_spos (s : State) : (s.toReset).spos = 0 := rfl
@[simp] theorem State.toReset_rpos (s : State) : (s.toReset).rpos = 0 := rfl
@[simp] theorem State.toReset_result (s : State) : (s.toReset).result = 0 := rfl
@[simp] theorem State.toReset_data (s : State) : (s.toReset).data = [] := rfl
@[simp] theorem State.toReset_stream (s : State) : (s.toReset).stream = [] := rfl
@[simp] theorem State.toReset_scratch (s : State) : (s.toReset).scratch = [] := rfl
@[simp] theorem State.toReset_enc (s : State) : (s.toReset).enc = {} := rfl
@[simp] theorem State.toReset_dec (s : State) : (s.toReset).dec = {} := rfl
@[simp] theorem State.toReset_phase (s : State) : (s.toReset).phase = .idle := rfl
@[simp] theorem State.toReset_inputs (s : State) : (s.toReset).inputs = s.inputs := rfl
@[simp] theorem State.toReset_responses (s : State) : (s.toReset).responses = s.responses := rfl
@[simp] theorem State.toReset_hostReads (s : State) : (s.toReset).hostReads = s.hostReads := rfl
@[simp] theorem State.toReset_cfg (s : State) : (s.toReset).cfg = s.cfg := rfl

/-! ### `invalidate` -/

@[simp] theorem State.invalidate_fault (s : State) (site : RaisedIn) : (s.invalidate site).fault = s.fault := by
  cases site <;> rfl
@[simp] theorem State.invalidate_cause (s : State) (site : RaisedIn) : (s.invalidate site).cause = s.cause := by
  cases site <;> rfl
@[simp] theorem State.invalidate_bsmode (s : State) (site : RaisedIn) : (s.invalidate site).bsmode = s.bsmode := by
  cases site <;> rfl
@[simp] theorem State.invalidate_underrun (s : State) (site : RaisedIn) : (s.invalidate site).underrun = s.underrun := by
  cases site <;> rfl
@[simp] theorem State.invalidate_skip (s : State) (site : RaisedIn) : (s.invalidate site).skip = s.skip := by
  cases site <;> rfl
@[simp] theorem State.invalidate_strip (s : State) (site : RaisedIn) : (s.invalidate site).strip = s.strip := by
  cases site <;> rfl
@[simp] theorem State.invalidate_block (s : State) (site : RaisedIn) : (s.invalidate site).block = s.block := by
  cases site <;> rfl
@[simp] theorem State.invalidate_bitlen (s : State) (site : RaisedIn) : (s.invalidate site).bitlen = s.bitlen := by
  cases site <;> rfl
@[simp] theorem State.invalidate_acc (s : State) (site : RaisedIn) : (s.invalidate site).acc = s.acc := by
  cases site <;> rfl
@[simp] theorem State.invalidate_fill (s : State) (site : RaisedIn) : (s.invalidate site).fill = s.fill := by
  cases site <;> rfl
@[simp] theorem State.invalidate_spos (s : State) (site : RaisedIn) : (s.invalidate site).spos = s.spos := by
  cases site <;> rfl
@[simp] theorem State.invalidate_rpos (s : State) (site : RaisedIn) : (s.invalidate site).rpos = s.rpos := by
  cases site <;> rfl
@[simp] theorem State.invalidate_result (s : State) (site : RaisedIn) : (s.invalidate site).result = s.result := by
  cases site <;> rfl
@[simp] theorem State.invalidate_scratch (s : State) (site : RaisedIn) : (s.invalidate site).scratch = s.scratch := by
  cases site <;> rfl
@[simp] theorem State.invalidate_enc (s : State) (site : RaisedIn) : (s.invalidate site).enc = s.enc := by
  cases site <;> rfl
@[simp] theorem State.invalidate_dec (s : State) (site : RaisedIn) : (s.invalidate site).dec = s.dec := by
  cases site <;> rfl
@[simp] theorem State.invalidate_phase (s : State) (site : RaisedIn) : (s.invalidate site).phase = s.phase := by
  cases site <;> rfl
@[simp] theorem State.invalidate_inputs (s : State) (site : RaisedIn) : (s.invalidate site).inputs = s.inputs := by
  cases site <;> rfl
@[simp] theorem State.invalidate_responses (s : State) (site : RaisedIn) : (s.invalidate site).responses = s.responses := by
  cases site <;> rfl
@[simp] theorem State.invalidate_hostReads (s : State) (site : RaisedIn) : (s.invalidate site).hostReads = s.hostReads := by
  cases site <;> rfl
@[simp] theorem State.invalidate_cfg (s : State) (site : RaisedIn) : (s.invalidate site).cfg = s.cfg := by
  cases site <;> rfl

/-! ### `raise` -/

@[simp] theorem State.raise_underrun (s : State) (c : Cause) (site : RaisedIn) : (s.raise c site).underrun = s.underrun := by
  unfold State.raise; split <;> simp
@[simp] theorem State.raise_skip (s : State) (c : Cause) (site : RaisedIn) : (s.raise c site).skip = s.skip := by
  unfold State.raise; split <;> simp
@[simp] theorem State.raise_strip (s : State) (c : Cause) (site : RaisedIn) : (s.raise c site).strip = s.strip := by
  unfold State.raise; split <;> simp
@[simp] theorem State.raise_block (s : State) (c : Cause) (site : RaisedIn) : (s.raise c site).block = s.block := by
  unfold State.raise; split <;> simp
@[simp] theorem State.raise_bitlen (s : State) (c : Cause) (site : RaisedIn) : (s.raise c site).bitlen = s.bitlen := by
  unfold State.raise; split <;> simp
@[simp] theorem State.raise_acc (s : State) (c : Cause) (site : RaisedIn) : (s.raise c site).acc = s.acc := by
  unfold State.raise; split <;> simp
@[simp] theorem State.raise_fill (s : State) (c : Cause) (site : RaisedIn) : (s.raise c site).fill = s.fill := by
  unfold State.raise; split <;> simp
@[simp] theorem State.raise_spos (s : State) (c : Cause) (site : RaisedIn) : (s.raise c site).spos = s.spos := by
  unfold State.raise; split <;> simp
@[simp] theorem State.raise_rpos (s : State) (c : Cause) (site : RaisedIn) : (s.raise c site).rpos = s.rpos := by
  unfold State.raise; split <;> simp
@[simp] theorem State.raise_result (s : State) (c : Cause) (site : RaisedIn) : (s.raise c site).result = s.result := by
  unfold State.raise; split <;> simp
@[simp] theorem State.raise_scratch (s : State) (c : Cause) (site : RaisedIn) : (s.raise c site).scratch = [] := by
  unfold State.raise; split <;> simp
@[simp] theorem State.raise_enc (s : State) (c : Cause) (site : RaisedIn) : (s.raise c site).enc = {} := by
  unfold State.raise; split <;> simp
@[simp] theorem State.raise_dec (s : State) (c : Cause) (site : RaisedIn) : (s.raise c site).dec = {} := by
  unfold State.raise; split <;> simp
@[simp] theorem State.raise_phase (s : State) (c : Cause) (site : RaisedIn) : (s.raise c site).phase = .idle := by
  unfold State.raise; split <;> simp
@[simp] theorem State.raise_inputs (s : State) (c : Cause) (site : RaisedIn) : (s.raise c site).inputs = s.inputs := by
  unfold State.raise; split <;> simp
@[simp] theorem State.raise_responses (s : State) (c : Cause) (site : RaisedIn) : (s.raise c site).responses = s.responses := by
  unfold State.raise; split <;> simp
@[simp] theorem State.raise_hostReads (s : State) (c : Cause) (site : RaisedIn) : (s.raise c site).hostReads = s.hostReads := by
  unfold State.raise; split <;> simp
@[simp] theorem State.raise_cfg (s : State) (c : Cause) (site : RaisedIn) : (s.raise c site).cfg = s.cfg := by
  unfold State.raise; split <;> simp

@[simp] theorem State.raise_fault (s : State) (c : Cause) (site : RaisedIn) : (s.raise c site).fault = true := by
  unfold State.raise; split <;> simp [*]

/-- While a fault is latched a raise changes nothing but that the command is over (60_exceptions.md R282 (c)). -/
theorem State.raise_latched (s : State) (c : Cause) (site : RaisedIn) (h : s.fault = true) :
    s.raise c site = s.endCommand := by
  simp [State.raise, h]

/-- A raise with no fault latched (60_exceptions.md R280). -/
theorem State.raise_fresh (s : State) (c : Cause) (site : RaisedIn) (h : s.fault = false) :
    s.raise c site = ((s.latch c).invalidate site).endCommand := by
  simp [State.raise, h]

end Sys2Proof.Machine
end

