-- ==== Sys2Proof/Laws/Ops.lean ====
section
/-! SUPPORT. For each shared operation, once, everything it can do. -/

namespace Sys2Proof.Machine

/-! ## Sequencing, answers, the fault gate -/

@[simp] theorem Res.ok_andThen (s : State) (f : State → Res) : (Res.ok s).andThen f = f s := rfl
@[simp] theorem Res.raise_andThen (c : Cause) (s : State) (f : State → Res) :
    (Res.raise c s).andThen f = .raise c s := rfl
@[simp] theorem Res.refuse_andThen (e : Refusal) (f : State → Res) : (Res.refuse e).andThen f = .refuse e := rfl

theorem Res.andThen_eq_ok {r : Res} {f : State → Res} {t : State} :
    r.andThen f = .ok t ↔ ∃ s, r = .ok s ∧ f s = .ok t := by
  cases r <;> simp

theorem Res.andThen_eq_raise {r : Res} {f : State → Res} {c : Cause} {t : State} :
    r.andThen f = .raise c t ↔ r = .raise c t ∨ ∃ s, r = .ok s ∧ f s = .raise c t := by
  cases r <;> simp

theorem Res.andThen_eq_refuse {r : Res} {f : State → Res} {e : Refusal} :
    r.andThen f = .refuse e ↔ r = .refuse e ∨ ∃ s, r = .ok s ∧ f s = .refuse e := by
  cases r <;> simp

theorem Res.andThen_assoc (r : Res) (f g : State → Res) :
    (r.andThen f).andThen g = r.andThen fun s => (f s).andThen g := by
  cases r <;> rfl

@[simp] theorem Res.ok_answer (s : State) (site : RaisedIn) : (Res.ok s).answer site = .next s := rfl
@[simp] theorem Res.raise_answer (c : Cause) (s : State) (site : RaisedIn) :
    (Res.raise c s).answer site = .next (s.raise c site) := rfl
@[simp] theorem Res.refuse_answer (e : Refusal) (site : RaisedIn) : (Res.refuse e).answer site = .refused e := rfl

theorem Res.answer_eq_next {r : Res} {site : RaisedIn} {t : State} :
    r.answer site = .next t ↔ r = .ok t ∨ ∃ c s, r = .raise c s ∧ s.raise c site = t := by
  cases r <;> simp

theorem Res.answer_eq_refused {r : Res} {site : RaisedIn} {e : Refusal} :
    r.answer site = .refused e ↔ r = .refuse e := by
  cases r <;> simp

theorem Res.answer_ne_fault (r : Res) (site : RaisedIn) (f : Fault) : r.answer site ≠ .fault f := by
  cases r <;> simp

theorem gate_open {s : State} (h : s.fault = false) (body : Result) : gate s body = body := by
  simp [gate, h]

theorem gate_shut {s : State} (h : s.fault = true) (body : Result) : gate s body = .next s := by
  simp [gate, h]

theorem gate_eq_next {s t : State} {body : Result} :
    gate s body = .next t ↔ (s.fault = true ∧ s = t) ∨ (s.fault = false ∧ body = .next t) := by
  cases h : s.fault <;> simp [gate, h]

/-! ## Taking a fault -/

theorem State.raise_first {s : State} (h : s.fault = false) (c : Cause) (site : RaisedIn) :
    s.raise c site = ((s.latch c).invalidate site).endCommand := by
  simp [State.raise, h]

theorem State.raise_cause (s : State) (c : Cause) (site : RaisedIn) :
    (s.raise c site).cause = if s.fault then s.cause else c.code := by
  cases h : s.fault
  · rw [State.raise_first h]; cases site <;> rfl
  · rw [State.raise_latched s c site h]; rfl

theorem State.raise_bsmode (s : State) (c : Cause) (site : RaisedIn) :
    (s.raise c site).bsmode = if s.fault then s.bsmode else .none := by
  cases h : s.fault
  · rw [State.raise_first h]; cases site <;> rfl
  · rw [State.raise_latched s c site h]; rfl

theorem Cause.code_ne_zero (c : Cause) : c.code ≠ 0 := by cases c <;> decide

theorem Cause.code_le_five (c : Cause) : c.code.toNat ≤ 5 := by cases c <;> decide

/-! ## Needing a byte's value -/

theorem Memory.value_eq_ok {m : Memory} {sp : Space} {a : Nat} {b : Byte} :
    m.value sp a = .ok b ↔ m.read a = some b := by
  unfold Memory.value
  cases m.read a <;> simp

theorem Memory.value_eq_error {m : Memory} {sp : Space} {a : Nat} {e : Refusal} :
    m.value sp a = .error e ↔ m.read a = none ∧ Refusal.unspecifiedByte sp a = e := by
  unfold Memory.value
  cases m.read a <;> simp

/-! ## The length registers -/

theorem State.setDlen_read (s : State) (n a : Nat) :
    (s.setDlen n).data.read a = if n < s.dlen.toNat ∧ n ≤ a then none else s.data.read a := by
  by_cases h : n < s.dlen.toNat
  · by_cases ha : n ≤ a
    · simp [State.setDlen, h, ha, Memory.read_below, show ¬ a < n by omega]
    · simp [State.setDlen, h, ha, Memory.read_below, show a < n by omega]
  · simp [State.setDlen, h]

theorem State.setSlen_read (s : State) (n a : Nat) :
    (s.setSlen n).stream.read a =
      if n < s.slen.toNat ∧ s.slenKeeps n ≤ a then none else s.stream.read a := by
  by_cases h : n < s.slen.toNat
  · by_cases ha : s.slenKeeps n ≤ a
    · simp [State.setSlen, h, ha, Memory.read_below, show ¬ a < s.slenKeeps n by omega]
    · simp [State.setSlen, h, ha, Memory.read_below, show a < s.slenKeeps n by omega]
  · simp [State.setSlen, h]

/-! ## Bit strings -/

@[simp] theorem toBits_length (n v : Nat) : (toBits n v).length = n := by
  induction n with
  | zero => rfl
  | succ n ih => simp [toBits, ih]

theorem mod_two_pow_succ_testBit (v n : Nat) : v % 2 ^ (n + 1) = (v.testBit n).toNat * 2 ^ n + v % 2 ^ n := by
  rw [Nat.pow_succ, Nat.mod_mul, Nat.testBit_eq_decide_div_mod_eq]
  rcases Nat.mod_two_eq_zero_or_one (v / 2 ^ n) with h | h
  · simp [h]
  · simp [h]; omega

/-- Taking an `n`-bit field off the front of the bits of `v` gives `v mod 2^n` and the bits after it. -/
theorem takeField_toBits (n acc v : Nat) (bs : List Bool) :
    takeField n acc (toBits n v ++ bs) = some (acc * 2 ^ n + v % 2 ^ n, bs) := by
  induction n generalizing acc with
  | zero => simp [takeField, toBits, Nat.mod_one]
  | succ n ih =>
    simp only [toBits, List.cons_append, takeField, ih, mod_two_pow_succ_testBit v n]
    congr 2
    rw [Nat.pow_succ]; ring

theorem ofBitsFrom_toBits (n acc v : Nat) : ofBitsFrom acc (toBits n v) = acc * 2 ^ n + v % 2 ^ n := by
  induction n generalizing acc with
  | zero => simp [ofBitsFrom, toBits, Nat.mod_one]
  | succ n ih =>
    simp only [toBits, ofBitsFrom, ih, mod_two_pow_succ_testBit v n]
    rw [Nat.pow_succ]; ring

/-- The unsigned integer of the low `n` bits of `v` is `v mod 2^n`. -/
theorem ofBits_toBits (n v : Nat) : ofBits (toBits n v) = v % 2 ^ n := by
  simp [ofBits, ofBitsFrom_toBits]

/-- A field is short exactly when fewer bits are left. -/
theorem takeField_eq_none {n acc : Nat} {bs : List Bool} : takeField n acc bs = none ↔ bs.length < n := by
  induction n generalizing acc bs with
  | zero => simp [takeField]
  | succ n ih => cases bs <;> simp [takeField, ih]

/-- What is left after a field. -/
theorem takeField_rest {n acc v : Nat} {bs rest : List Bool} (h : takeField n acc bs = some (v, rest)) :
    rest = bs.drop n ∧ n ≤ bs.length := by
  induction n generalizing acc bs with
  | zero => simp [takeField] at h; simp [h.2]
  | succ n ih =>
    cases bs with
    | nil => simp [takeField] at h
    | cons b bs => simpa using ih (by simpa [takeField] using h)

/-- Taking the fields of a list of values off the front of its bits gives the list back. -/
theorem takeFields_fieldBits {k : Nat} (vs : List (BitVec k)) (bs : List Bool) :
    takeFields k vs.length (fieldBits vs ++ bs) = some (vs, bs) := by
  induction vs with
  | nil => rfl
  | cons v vs ih =>
    simp [takeFields, fieldBits, List.append_assoc, takeField_toBits, ih, Nat.mod_eq_of_lt v.isLt]

@[simp] theorem fieldBits_length {k : Nat} (vs : List (BitVec k)) : (fieldBits vs).length = k * vs.length := by
  induction vs with
  | nil => rfl
  | cons v vs ih => simp [fieldBits, ih]; ring

theorem fieldBits_append {k : Nat} (vs ws : List (BitVec k)) :
    fieldBits (vs ++ ws) = fieldBits vs ++ fieldBits ws := by
  induction vs with
  | nil => rfl
  | cons v vs ih => simp [fieldBits, ih]

theorem fieldBits_take {k : Nat} (vs : List (BitVec k)) (r : Nat) :
    (fieldBits vs).take (k * r) = fieldBits (vs.take r) := by
  induction vs generalizing r with
  | nil => simp [fieldBits]
  | cons v vs ih =>
    cases r with
    | zero => simp [fieldBits]
    | succ r =>
      rw [fieldBits, List.take_append, List.take_of_length_le (by rw [toBits_length, Nat.mul_succ]; omega),
        toBits_length, Nat.mul_succ, Nat.add_sub_cancel, ih, List.take_succ_cons, fieldBits]

theorem toBits_zero (n : Nat) : toBits n 0 = List.replicate n false := by
  induction n with
  | zero => rfl
  | succ n ih => simp [toBits, ih, List.replicate_succ]

theorem fieldBits_zeros (k n : Nat) : fieldBits (List.replicate n (0 : BitVec k)) = List.replicate (k * n) false := by
  induction n with
  | zero => rfl
  | succ n ih =>
    rw [List.replicate_succ, fieldBits, ih, Nat.mul_succ, Nat.add_comm, List.replicate_add]
    simp [toBits_zero]

/-! ## Packer -/

theorem emitWord_eq_ok {w : Nat} {s t : State} :
    emitWord w s = .ok t ↔ s.spos.toNat + 4 ≤ s.cfg.streamBytes ∧
      { s with
        stream := s.stream.writeAll s.spos.toNat (be32 (BitVec.ofNat 32 w))
        spos := BitVec.ofNat 32 (s.spos.toNat + 4) } = t := by
  unfold emitWord
  split <;> simp <;> omega

theorem emitWord_eq_raise {w : Nat} {s t : State} {c : Cause} :
    emitWord w s = .raise c t ↔ s.cfg.streamBytes < s.spos.toNat + 4 ∧ Cause.allocation = c ∧ s = t := by
  unfold emitWord
  split <;> simp <;> omega

theorem emitWord_ne_refuse (w : Nat) (s : State) (e : Refusal) : emitWord w s ≠ .refuse e := by
  unfold emitWord
  split <;> simp

/-- `SPOS` after a word store does not wrap: a capacity is at most `2^32 - 4`. -/
theorem emitWord_spos {w : Nat} {s t : State} (h : emitWord w s = .ok t) :
    t.spos.toNat = s.spos.toNat + 4 := by
  obtain ⟨hc, rfl⟩ := emitWord_eq_ok.mp h
  have : s.cfg.streamBytes ≤ 4 * (2 ^ 30 - 1) := by
    have := s.cfg.streamWords.isLt
    simp only [Config.streamBytes]; omega
  simp only [BitVec.toNat_ofNat]
  omega

/-- `bs_write` with room in the accumulator. -/
theorem bsWrite_room {v n : Nat} {s : State} (h : s.fill.toNat + n < 32) :
    bsWrite v n s = .ok (s.setPacker (s.acc.toNat * 2 ^ n + v % 2 ^ n) (s.fill.toNat + n) n) := by
  simp [bsWrite, Config.accWidth, h]

/-- `bs_write` that fills the accumulator. -/
theorem bsWrite_full {v n : Nat} {s : State} (h : 32 ≤ s.fill.toNat + n) :
    bsWrite v n s =
      (emitWord (s.acc.toNat * 2 ^ (32 - s.fill.toNat) + v % 2 ^ n / 2 ^ (s.fill.toNat + n - 32)) s).andThen fun t =>
        .ok (t.setPacker (v % 2 ^ n % 2 ^ (s.fill.toNat + n - 32)) (s.fill.toNat + n - 32) n) := by
  simp [bsWrite, Config.accWidth, show ¬ s.fill.toNat + n < 32 by omega]

theorem bsWrite_ne_refuse (v n : Nat) (s : State) (e : Refusal) : bsWrite v n s ≠ .refuse e := by
  by_cases h : s.fill.toNat + n < 32
  · simp [bsWrite_room h]
  · rw [bsWrite_full (by omega)]
    simp [Res.andThen_eq_refuse, emitWord_ne_refuse]

/-- The one fault of `bs_write`, raised before anything is stored or changed. -/
theorem bsWrite_raise {v n : Nat} {s t : State} {c : Cause} (h : bsWrite v n s = .raise c t) :
    c = .allocation ∧ t = s ∧ s.cfg.streamBytes < s.spos.toNat + 4 := by
  by_cases hr : s.fill.toNat + n < 32
  · simp [bsWrite_room hr] at h
  · rw [bsWrite_full (by omega)] at h
    rcases Res.andThen_eq_raise.mp h with h | ⟨u, -, h⟩
    · obtain ⟨h1, h2, h3⟩ := emitWord_eq_raise.mp h
      exact ⟨h2.symm, h3.symm, h1⟩
    · simp at h

/-- What `bs_write` can change. -/
theorem bsWrite_frame {v n : Nat} {s t : State} (h : bsWrite v n s = .ok t) :
    t = { s with acc := t.acc, fill := t.fill, spos := t.spos, stream := t.stream
                 bitlen := s.bitlen + BitVec.ofNat 64 n } := by
  by_cases hr : s.fill.toNat + n < 32
  · rw [bsWrite_room hr] at h
    injection h with h; subst h; rfl
  · rw [bsWrite_full (by omega)] at h
    obtain ⟨u, hu, h⟩ := Res.andThen_eq_ok.mp h
    obtain ⟨-, rfl⟩ := emitWord_eq_ok.mp hu
    injection h with h; subst h; rfl

/-- `bs_flush` with nothing pending. -/
theorem bsFlush_empty {s : State} (h : s.fill = 0) : bsFlush s = .ok (s.setSlen s.spos.toNat) := by
  simp [bsFlush, h]

/-- `bs_flush` with bits pending. -/
theorem bsFlush_pending {s : State} (h : 0 < s.fill.toNat) :
    bsFlush s = (emitWord (s.acc.toNat * 2 ^ (32 - s.fill.toNat)) s).andThen fun t =>
      .ok ((t.trimPad ((32 - s.fill.toNat) / 8)).setSlen (t.trimPad ((32 - s.fill.toNat) / 8)).spos.toNat) := by
  simp [bsFlush, Config.accWidth, h]

theorem bsFlush_ne_refuse (s : State) (e : Refusal) : bsFlush s ≠ .refuse e := by
  by_cases h : 0 < s.fill.toNat
  · simp [bsFlush_pending h, Res.andThen_eq_refuse, emitWord_ne_refuse]
  · simp [bsFlush, h]

/-! ## Unpacker -/

theorem sbit_beyond {s : State} {k : Nat} (h : 8 * s.slen.toNat ≤ k) : sbit s k = .ok false := by
  simp [sbit, show ¬ k < 8 * s.slen.toNat by omega]

theorem sbit_below {s : State} {k : Nat} {b : Byte} (h : k < 8 * s.slen.toNat) (hb : s.stream.read (k / 8) = some b) :
    sbit s k = .ok (b.getLsbD (7 - k % 8)) := by
  simp [sbit, h, Memory.value, hb]

theorem sbit_eq_error {s : State} {k : Nat} {e : Refusal} :
    sbit s k = .error e ↔ k < 8 * s.slen.toNat ∧ s.stream.read (k / 8) = none ∧
      Refusal.unspecifiedByte .stream (k / 8) = e := by
  unfold sbit Memory.value
  by_cases h : k < 8 * s.slen.toNat
  · cases hb : s.stream.read (k / 8) <;> simp [h]
  · simp [h]

/-- A bit depends on `SLEN` and `STREAM` alone. -/
theorem sbit_congr {s t : State} (h : t.slen = s.slen) (h' : t.stream = s.stream) (k : Nat) : sbit t k = sbit s k := by
  simp [sbit, h, h']

theorem peekBits_congr {s t : State} (h : t.slen = s.slen) (h' : t.stream = s.stream) (n p : Nat) :
    peekBits t n p = peekBits s n p := by
  induction n generalizing p with
  | zero => rfl
  | succ n ih => simp [peekBits, sbit_congr h h', ih]

theorem peekBits_eq_ok {s : State} {n p : Nat} {bs : List Bool} :
    peekBits s n p = .ok bs ↔ bs.length = n ∧ ∀ j, (h : j < bs.length) → sbit s (p + j) = .ok bs[j] := by
  induction n generalizing p bs with
  | zero => cases bs <;> simp [peekBits]
  | succ n ih =>
    constructor
    · intro h
      simp only [peekBits] at h
      split at h
      · cases h
      · rename_i b hb
        split at h
        · cases h
        · rename_i bs' hbs
          injection h with h; subst h
          obtain ⟨hl, hj⟩ := ih.mp hbs
          refine ⟨by simp [hl], fun j hlt => ?_⟩
          cases j with
          | zero => simpa using hb
          | succ j =>
            have := hj j (by simpa using hlt)
            rw [show p + 1 + j = p + (j + 1) by omega] at this
            simpa using this
    · rintro ⟨hl, hj⟩
      cases bs with
      | nil => simp at hl
      | cons b bs =>
        have h0 := hj 0 (by simp)
        have hr : peekBits s n (p + 1) = .ok bs := ih.mpr ⟨by simpa using hl, fun j hlt => by
          have := hj (j + 1) (by simpa using hlt)
          rw [show p + 1 + j = p + (j + 1) by omega]
          simpa using this⟩
        simp only [Nat.add_zero, List.getElem_cons_zero] at h0
        simp [peekBits, h0, hr]

theorem streamHolds_iff {s : State} {p : Nat} {bs : List Bool} :
    streamHolds s p bs ↔ peekBits s bs.length p = .ok bs := by
  rw [peekBits_eq_ok]
  exact ⟨fun h => ⟨rfl, h⟩, fun h => h.2⟩

theorem streamHolds_append {s : State} {p : Nat} {bs cs : List Bool} (h : streamHolds s p (bs ++ cs)) :
    streamHolds s p bs ∧ streamHolds s (p + bs.length) cs := by
  constructor
  · intro j hj
    rw [h j (by simp; omega), List.getElem_append_left hj]
  · intro j hj
    rw [Nat.add_assoc, h (bs.length + j) (by simp; omega), List.getElem_append_right (by omega)]
    simp

/-- A refused read names an unspecified byte below `SLEN`. -/
theorem peekBits_error {s : State} {n p : Nat} {e : Refusal} (h : peekBits s n p = .error e) :
    ∃ k, p ≤ k ∧ k < p + n ∧ sbit s k = .error e := by
  induction n generalizing p with
  | zero => simp [peekBits] at h
  | succ n ih =>
    simp only [peekBits] at h
    split at h
    · rename_i e' he
      injection h with h; subst h
      exact ⟨p, le_refl _, by omega, he⟩
    · split at h
      · rename_i e' he
        injection h with h; subst h
        obtain ⟨k, h1, h2, h3⟩ := ih he
        exact ⟨k, by omega, by omega, h3⟩
      · cases h

theorem bsRead_eq_ok {n v : Nat} {s t : State} :
    bsRead n s = .ok (v, t) ↔ ∃ bs, peekBits s n s.rpos = .ok bs ∧ ofBits bs = v ∧ consume n s = t := by
  unfold bsRead
  cases h : peekBits s n s.rpos <;> simp

theorem consume_zero (s : State) : consume 0 s = s := by
  simp [consume, runsOff]

/-! ## Decoder -/

theorem checkUnderrun_eq_ok {s t : State} : checkUnderrun s = .ok t ↔ s.underrun = false ∧ s = t := by
  unfold checkUnderrun
  cases s.underrun <;> simp

theorem checkUnderrun_eq_raise {s t : State} {c : Cause} :
    checkUnderrun s = .raise c t ↔ s.underrun = true ∧ Cause.truncatedStream = c ∧ s = t := by
  unfold checkUnderrun
  cases s.underrun <;> simp

theorem checkUnderrun_ne_refuse (s : State) (e : Refusal) : checkUnderrun s ≠ .refuse e := by
  unfold checkUnderrun
  split <;> simp

/-- A read wholly inside the valid bytes keeps `UNDERRUN` clear. -/
theorem consume_inside {n : Nat} {s : State} (h : s.underrun = false) (hr : s.rpos + n ≤ 8 * s.slen.toNat) :
    consume n s = { s with rpos := s.rpos + n } := by
  have : runsOff s.rpos n s.slen.toNat = false := by simp [runsOff]; omega
  cases s
  simp_all [consume]

theorem grad_refused {m : Memory} {i t : Nat} {e : Refusal} (h : grad m i t = .error e) :
    ∃ a, a < i ∧ m.read a = none ∧ Refusal.unspecifiedByte .data a = e := by
  unfold grad at h
  split at h
  · rename_i ht
    have read : ∀ {x : Nat} {e : Refusal}, sample m x = .error e →
        m.read x = none ∧ Refusal.unspecifiedByte .data x = e := by
      intro x e hx
      unfold sample at hx
      split at hx
      · cases hx
      · rename_i e' he
        injection hx with hx; subst hx
        exact Memory.value_eq_error.mp he
    unfold sampleDiff at h
    split at h
    · rename_i e' he
      injection h with h; subst h
      exact ⟨i - t, by omega, read he⟩
    · split at h
      · rename_i e' he
        injection h with h; subst h
        exact ⟨i - t - 1, by omega, read he⟩
      · cases h
  · cases h

/-- One value of a token: it does not fit, or it is appended, or the gradient needs an unspecified byte. -/
theorem expandValue_cases (u : Nat) (s : State) :
    (s.cfg.dataBytes ≤ s.dec.n ∧ expandValue u s = .raise .allocation s) ∨
    (s.dec.n < s.cfg.dataBytes ∧ ∃ e, grad s.data s.dec.n s.dec.ht = .error e ∧ expandValue u s = .refuse e) ∨
    (s.dec.n < s.cfg.dataBytes ∧ ∃ g, grad s.data s.dec.n s.dec.ht = .ok g ∧
      expandValue u s = .ok (s.append (reconstruct s.dec.act g u s.dec.bits))) := by
  by_cases h : s.cfg.dataBytes ≤ s.dec.n
  · exact .inl ⟨h, by simp [expandValue, h]⟩
  · have h' : s.dec.n < s.cfg.dataBytes := by omega
    cases hg : grad s.data s.dec.n s.dec.ht with
    | error e => exact .inr (.inl ⟨h', e, rfl, by simp [expandValue, h, hg]⟩)
    | ok g => exact .inr (.inr ⟨h', g, rfl, by simp [expandValue, h, hg]⟩)

theorem State.append_count {s t : State} {u : Nat}
    (h : (checkUnderrun (consume s.dec.bits s)).andThen (expandValue u) = .ok t) :
    s.dec.n < s.cfg.dataBytes ∧ t.dec.n = s.dec.n + 1 ∧ t.cfg = s.cfg := by
  obtain ⟨v, hv, h⟩ := Res.andThen_eq_ok.mp h
  obtain ⟨-, rfl⟩ := checkUnderrun_eq_ok.mp hv
  rcases expandValue_cases u (consume s.dec.bits s) with ⟨-, he⟩ | ⟨-, e, -, he⟩ | ⟨hn, g, -, he⟩
  · simp [he] at h
  · simp [he] at h
  · rw [he] at h
    injection h with h; subst h
    exact ⟨hn, rfl, rfl⟩

/-- The values behind the first one that does not fit in `DATA` have no effect. -/
theorem expandValues_reached {us vs : List Nat} {s : State} (hl : us.length = vs.length)
    (h : us.take (s.cfg.dataBytes - s.dec.n + 1) = vs.take (s.cfg.dataBytes - s.dec.n + 1)) :
    expandValues us s = expandValues vs s := by
  induction us generalizing vs s with
  | nil => cases vs with
    | nil => rfl
    | cons v vs => simp at hl
  | cons u us ih =>
    cases vs with
    | nil => simp at hl
    | cons v vs =>
      simp only [List.take_succ_cons, List.cons.injEq] at h
      obtain ⟨rfl, h⟩ := h
      simp only [expandValues]
      cases hr : (checkUnderrun (consume s.dec.bits s)).andThen (expandValue u) with
      | ok t =>
        obtain ⟨h1, h2, h3⟩ := State.append_count hr
        simp only [Res.ok_andThen]
        refine ih (by simpa using hl) ?_
        rw [h2, h3, show s.cfg.dataBytes - (s.dec.n + 1) + 1 = s.cfg.dataBytes - s.dec.n by omega]
        exact h
      | raise c t => rfl
      | refuse e => rfl

/-- A token's meaning depends on the values that DEC reaches, and on how many there are. -/
theorem runToken_reached {bits : Nat} {us vs : List Nat} {s : State} (hl : us.length = vs.length)
    (h : us.take (s.cfg.dataBytes - s.dec.n + 1) = vs.take (s.cfg.dataBytes - s.dec.n + 1)) :
    runToken bits us s = runToken bits vs s := by
  have key : ∀ t : State, t.cfg = s.cfg → t.dec.n = s.dec.n →
      expandValues us (t.startToken us.length bits) = expandValues vs (t.startToken vs.length bits) := by
    intro t h1 h2
    rw [hl]
    apply expandValues_reached hl
    simpa [State.startToken, h1, h2] using h
  unfold runToken
  cases h1 : checkUnderrun (consume 7 s) with
  | raise c t => rfl
  | refuse e => rfl
  | ok t =>
    obtain ⟨-, rfl⟩ := checkUnderrun_eq_ok.mp h1
    simp only [Res.ok_andThen]
    cases h2 : checkUnderrun (consume 3 (consume 7 s)) with
    | raise c t => rfl
    | refuse e => rfl
    | ok t =>
      obtain ⟨-, rfl⟩ := checkUnderrun_eq_ok.mp h2
      simp only [Res.ok_andThen]
      rw [key (consume 3 (consume 7 s)) rfl rfl]

/-- The stream is read on with zeros, so an element never ends too early. -/
theorem fetchHeader_ne_cutShort (s : State) : fetchHeader s ≠ .cutShort := by
  unfold fetchHeader
  split
  · simp
  · rename_i bs h
    have hl := (peekBits_eq_ok.mp h).1
    unfold decodeHeader
    cases h1 : takeField 2 0 bs with
    | none => have := takeField_eq_none.mp h1; omega
    | some p =>
      obtain ⟨a, bs1⟩ := p
      obtain ⟨rfl, -⟩ := takeField_rest h1
      cases h2 : takeField 16 0 (bs.drop 2) with
      | none => have := takeField_eq_none.mp h2; simp at this; omega
      | some p => simp [h2, Element.ofDecode]

/-- The RUN token at the cursor: `fetchToken` finds its run form and its count, and the values that DEC reaches. The other
values it does not read. -/
theorem fetchToken_run {k c : Nat} {s : State} (vs : List (BitVec k)) (mk : List (BitVec k) → StreamElement)
    (hc : c < 8) (hk : codeWidth c = k) (hd : ∀ n bs, Sys2Proof.decodeRun n c bs = decodeValues n bs mk)
    (hn : 1 ≤ vs.length) (hn' : vs.length ≤ 127)
    (h : streamHolds s s.rpos ((runBits c vs).take (10 + k * min vs.length (s.cfg.dataBytes - s.dec.n + 1)))) :
    ∃ vs', vs'.length = vs.length ∧
      vs'.take (s.cfg.dataBytes - s.dec.n + 1) = vs.take (s.cfg.dataBytes - s.dec.n + 1) ∧
      fetchToken s = .found (mk vs') := by
  generalize hr : min vs.length (s.cfg.dataBytes - s.dec.n + 1) = r at h
  have e : (runBits c vs).take (10 + k * r) = toBits 7 vs.length ++ (toBits 3 c ++ fieldBits (vs.take r)) := by
    rw [runBits, List.take_append, List.take_of_length_le (by simp)]
    simp only [List.length_append, toBits_length]
    rw [show 10 + k * r - (7 + 3) = k * r by omega, fieldBits_take, List.append_assoc]
  rw [e] at h
  obtain ⟨h1, h⟩ := streamHolds_append h
  obtain ⟨h2, h3⟩ := streamHolds_append h
  have hrl : (vs.take r).length = r := by simp; omega
  rw [streamHolds_iff] at h1 h2 h3
  simp only [toBits_length, fieldBits_length, hrl] at h1 h2 h3
  have h3' : peekBits s (k * r) (s.rpos + 10) = .ok (fieldBits (vs.take r)) := h3
  have hl : (vs.take r ++ List.replicate (vs.length - r) (0 : BitVec k)).length = vs.length := by
    rw [List.length_append, hrl, List.length_replicate]; omega
  refine ⟨_, hl, ?_, ?_⟩
  · by_cases hh : s.cfg.dataBytes - s.dec.n + 1 ≤ vs.length
    · rw [show s.cfg.dataBytes - s.dec.n + 1 = r by omega, List.take_append, hrl]
      simp
    · simp [show r = vs.length by omega]
  · have hcount : ofBits (toBits 7 vs.length) = vs.length := by rw [ofBits_toBits, Nat.mod_eq_of_lt]; omega
    have hcode : ofBits (toBits 3 c) = c := by rw [ofBits_toBits, Nat.mod_eq_of_lt]; omega
    have hv := takeFields_fieldBits (vs.take r ++ List.replicate (vs.length - r) 0) []
    rw [fieldBits_append, fieldBits_zeros, List.append_nil, hl] at hv
    simp only [fetchToken, h1, hcount, h2, hcode, hk, show vs.length ≠ 0 by omega, if_false, fetchRun, valuesReached,
      hr, h3']
    rw [List.append_assoc, decodeToken, takeField_toBits]
    simp only [Nat.zero_mul, Nat.zero_add, Nat.mod_eq_of_lt (show vs.length < 2 ^ 7 by omega),
      show vs.length ≠ 0 by omega, if_false, takeField_toBits, Nat.mod_eq_of_lt (show c < 2 ^ 3 by omega), hd,
      decodeValues, hv, Element.ofDecode]

theorem decodeRun_idle {k : Nat} {s : State} (h : s.phase = .idle) : Machine.decodeRun k s = .next s := by
  cases k <;> simp [Machine.decodeRun, h]

theorem decodeRun_next {k : Nat} {s t : State} (h : s.phase ≠ .idle) (ht : decodeStep s = .next t) :
    Machine.decodeRun (k + 1) s = Machine.decodeRun k t := by
  simp [Machine.decodeRun, h, ht]

theorem decodeRun_refused {k : Nat} {s : State} {e : Refusal} (h : s.phase ≠ .idle) (he : decodeStep s = .refused e) :
    Machine.decodeRun (k + 1) s = .refused e := by
  simp [Machine.decodeRun, h, he]

/-! ## Transposer -/

theorem transpose_cases (move : Nat → State → Nat × Nat → State) (stride block len : Nat) (s : State) :
    (stride ≤ 1 ∧ transpose move stride block len s = .ok s) ∨
    (1 < stride ∧ s.cfg.scratchBytes < scratchNeed len stride block ∧
      transpose move stride block len s = .raise .allocation s) ∨
    (1 < stride ∧ scratchNeed len stride block ≤ s.cfg.scratchBytes ∧
      transpose move stride block len s =
        .ok { (windows len stride block).foldl (move stride) s with scratch := [] }) := by
  unfold transpose
  by_cases h1 : stride ≤ 1
  · simp [h1]
  · by_cases h2 : s.cfg.scratchBytes < scratchNeed len stride block
    · exact .inr (.inl ⟨by omega, h2, by simp [h1, h2]⟩)
    · exact .inr (.inr ⟨by omega, by omega, by simp [h1, h2]⟩)

theorem transpose_ne_refuse (move : Nat → State → Nat × Nat → State) (stride block len : Nat) (s : State)
    (e : Refusal) : transpose move stride block len s ≠ .refuse e := by
  rcases transpose_cases move stride block len s with ⟨-, h⟩ | ⟨-, -, h⟩ | ⟨-, -, h⟩ <;> simp [h]

/-- `copyBack` writes the window and nothing else. -/
theorem copyBack_read (o len : Nat) (scratch data : Memory) (a : Nat) :
    (copyBack o len scratch data).read a =
      if o ≤ a ∧ a < o + len then scratch.read (a - o) else data.read a := by
  induction len with
  | zero => simp [copyBack, show ¬ (o ≤ a ∧ a < o) by omega]
  | succ len ih =>
    rw [copyBack, List.range_succ, List.foldl_append]
    change ((copyBack o len scratch data).put (o + len) (scratch.read len)).read a = _
    rw [Memory.read_put, ih]
    by_cases h : a = o + len
    · subst h; simp
    · by_cases h' : o ≤ a ∧ a < o + len
      · rw [if_neg h, if_pos h', if_pos (by omega)]
      · rw [if_neg h, if_neg h', if_neg (by omega)]

/-! ## The host -/

theorem hostWrite_inside {sp : Space} {cap addr : Nat} {bytes : List Byte} (h : addr + bytes.length ≤ cap)
    (after : Result) : hostWrite sp cap addr bytes after = after := by
  simp [hostWrite, show ¬ cap < addr + bytes.length by omega]

theorem hostWrite_outside {sp : Space} {cap addr : Nat} {bytes : List Byte} (h : cap < addr + bytes.length)
    (after : Result) : hostWrite sp cap addr bytes after = .fault (.noSuchAddress sp addr) := by
  simp [hostWrite, h]

theorem hostRead_eq_next {sp : Space} {m : Memory} {cap len addr : Nat} {s t : State} :
    hostRead sp m cap len addr s = .next t ↔ addr < cap ∧ addr < len ∧ ∃ b, m.read addr = some b ∧
      { s with hostReads := s.hostReads ++ [b] } = t := by
  unfold hostRead
  by_cases h : cap ≤ addr
  · simp only [h, if_true]
    exact ⟨nofun, fun h' => by omega⟩
  · by_cases h' : len ≤ addr
    · simp only [h, h', if_true, if_false]
      exact ⟨nofun, fun h' => by omega⟩
    · have h1 : addr < cap := by omega
      have h2 : addr < len := by omega
      cases hb : m.read addr <;> simp [h, h', h1, h2, Memory.value, hb]

end Sys2Proof.Machine
end

