-- ==== Sys2Proof/Laws/PerInstr.lean ====
section
/-! SUPPORT. Statements made once per instruction: the family `CodeLength`. -/

namespace Sys2Proof.Laws

open Sys2Proof

/-- How many bits an instruction's encoding has: 48 for a command word (30_encoding.md R90), 18 for a header (R98), 7 for
the END, `10 + count * width` for a RUN token (R106). -/
def codeBits (i : Instr) : Nat :=
  match Machine.runFields i with
  | some (width, values) => 10 + values.length * width
  | none =>
    match i with
    | .hdr _ _ => 18
    | .endMark => 7
    | _ => 48

/-- The encoding has the length of its row, and a well-formed element is at most 1026 bits long (30_encoding.md R106). -/
def CodeLength.Statement (i : Instr) : Prop :=
  (encode i).length = codeBits i ∧ (wellFormed i = true → codeBits i ≤ longestToken)

theorem runBits_length {k : Nat} (c : Nat) (values : List (BitVec k)) :
    (runBits c values).length = 10 + values.length * k := by
  rw [runBits, List.length_append, List.length_append, Machine.toBits_length, Machine.toBits_length,
    Machine.fieldBits_length, Nat.mul_comm k]

theorem countOk_bound {n k : Nat} (h : countOk n = true) (hk : k ≤ 8) : 10 + n * k ≤ longestToken := by
  rw [countOk, Bool.and_eq_true, decide_eq_true_eq, decide_eq_true_eq] at h
  have : n * k ≤ 127 * 8 := Nat.mul_le_mul h.2 hk
  rw [longestToken]
  omega

theorem CodeLength.reset : CodeLength.Statement (.reset) := ⟨rfl, fun _ => (by decide : 48 ≤ longestToken)⟩

theorem CodeLength.wreg (reg : BitVec 8) (imm : BitVec 32) : CodeLength.Statement (.wreg reg imm) := ⟨rfl, fun _ => (by decide : 48 ≤ longestToken)⟩

theorem CodeLength.rreg (reg : BitVec 8) : CodeLength.Statement (.rreg reg) := ⟨rfl, fun _ => (by decide : 48 ≤ longestToken)⟩

theorem CodeLength.winit : CodeLength.Statement (.winit) := ⟨rfl, fun _ => (by decide : 48 ≤ longestToken)⟩

theorem CodeLength.wbits (n : BitVec 8) (imm : BitVec 32) : CodeLength.Statement (.wbits n imm) := ⟨rfl, fun _ => (by decide : 48 ≤ longestToken)⟩

theorem CodeLength.wflush : CodeLength.Statement (.wflush) := ⟨rfl, fun _ => (by decide : 48 ≤ longestToken)⟩

theorem CodeLength.rinit : CodeLength.Statement (.rinit) := ⟨rfl, fun _ => (by decide : 48 ≤ longestToken)⟩

theorem CodeLength.rbits (n : BitVec 8) : CodeLength.Statement (.rbits n) := ⟨rfl, fun _ => (by decide : 48 ≤ longestToken)⟩

theorem CodeLength.deint : CodeLength.Statement (.deint) := ⟨rfl, fun _ => (by decide : 48 ≤ longestToken)⟩

theorem CodeLength.int : CodeLength.Statement (.int) := ⟨rfl, fun _ => (by decide : 48 ≤ longestToken)⟩

theorem CodeLength.enc : CodeLength.Statement (.enc) := ⟨rfl, fun _ => (by decide : 48 ≤ longestToken)⟩

theorem CodeLength.dec : CodeLength.Statement (.dec) := ⟨rfl, fun _ => (by decide : 48 ≤ longestToken)⟩

theorem CodeLength.hdr (skipm1 : BitVec 2) (stripm1 : BitVec 16) : CodeLength.Statement (.hdr skipm1 stripm1) := by
  have hl : codeBits (.hdr skipm1 stripm1) = 18 := rfl
  rw [CodeLength.Statement, hl]
  refine ⟨?_, fun _ => by decide⟩
  change (toBits 2 skipm1.toNat ++ toBits 16 stripm1.toNat).length = 18
  rw [List.length_append, Machine.toBits_length, Machine.toBits_length]

theorem CodeLength.runW0 (count : BitVec 7) : CodeLength.Statement (.runW0 count) := by
  have hl : codeBits (.runW0 count) = 10 := rfl
  rw [CodeLength.Statement, hl]
  refine ⟨?_, fun _ => by decide⟩
  change (toBits 7 count.toNat ++ toBits 3 0).length = 10
  rw [List.length_append, Machine.toBits_length, Machine.toBits_length]

theorem CodeLength.runW2 (values : List (BitVec 2)) : CodeLength.Statement (.runW2 values) := by
  have hl : codeBits (.runW2 values) = 10 + values.length * 2 :=
    congrArg (10 + · * 2) (List.length_map ..)
  rw [CodeLength.Statement, hl]
  exact ⟨runBits_length 1 values, fun h => countOk_bound h (by decide)⟩

theorem CodeLength.runW3 (values : List (BitVec 3)) : CodeLength.Statement (.runW3 values) := by
  have hl : codeBits (.runW3 values) = 10 + values.length * 3 :=
    congrArg (10 + · * 3) (List.length_map ..)
  rw [CodeLength.Statement, hl]
  exact ⟨runBits_length 2 values, fun h => countOk_bound h (by decide)⟩

theorem CodeLength.runW4 (values : List (BitVec 4)) : CodeLength.Statement (.runW4 values) := by
  have hl : codeBits (.runW4 values) = 10 + values.length * 4 :=
    congrArg (10 + · * 4) (List.length_map ..)
  rw [CodeLength.Statement, hl]
  exact ⟨runBits_length 3 values, fun h => countOk_bound h (by decide)⟩

theorem CodeLength.runW5 (values : List (BitVec 5)) : CodeLength.Statement (.runW5 values) := by
  have hl : codeBits (.runW5 values) = 10 + values.length * 5 :=
    congrArg (10 + · * 5) (List.length_map ..)
  rw [CodeLength.Statement, hl]
  exact ⟨runBits_length 4 values, fun h => countOk_bound h (by decide)⟩

theorem CodeLength.runW6 (values : List (BitVec 6)) : CodeLength.Statement (.runW6 values) := by
  have hl : codeBits (.runW6 values) = 10 + values.length * 6 :=
    congrArg (10 + · * 6) (List.length_map ..)
  rw [CodeLength.Statement, hl]
  exact ⟨runBits_length 5 values, fun h => countOk_bound h (by decide)⟩

theorem CodeLength.runW7 (values : List (BitVec 7)) : CodeLength.Statement (.runW7 values) := by
  have hl : codeBits (.runW7 values) = 10 + values.length * 7 :=
    congrArg (10 + · * 7) (List.length_map ..)
  rw [CodeLength.Statement, hl]
  exact ⟨runBits_length 6 values, fun h => countOk_bound h (by decide)⟩

theorem CodeLength.runW8 (values : List (BitVec 8)) : CodeLength.Statement (.runW8 values) := by
  have hl : codeBits (.runW8 values) = 10 + values.length * 8 :=
    congrArg (10 + · * 8) (List.length_map ..)
  rw [CodeLength.Statement, hl]
  exact ⟨runBits_length 7 values, fun h => countOk_bound h (by decide)⟩

theorem CodeLength.endMark : CodeLength.Statement (.endMark) := ⟨rfl, fun _ => (by decide : 7 ≤ longestToken)⟩

end Sys2Proof.Laws
end

