-- ==== Sys2Proof/Tests/Slice0.lean ====
section
/-! SUPPORT. The model's own tests: ill-formed terms that are refused, words written out from the spec's encodings, one-step
tests on the spec's examples, and for each statement with hypotheses a state and operands that meet them. -/

open Sys2Proof Sys2Proof.Machine

namespace Sys2Proof.Tests

/-! ## WellFormed: each check refuses an ill-formed term (30_encoding.md R99) -/

theorem test_count_zero_is_no_token : wellFormed (.runW0 0) = false := by decide
theorem test_no_values_w2 : wellFormed (.runW2 []) = false := by decide
theorem test_128_values_w3 : wellFormed (.runW3 (List.replicate 128 0)) = false := by simp [wellFormed, countOk]
theorem test_no_values_w4 : wellFormed (.runW4 []) = false := by decide
theorem test_no_values_w5 : wellFormed (.runW5 []) = false := by decide
theorem test_no_values_w6 : wellFormed (.runW6 []) = false := by decide
theorem test_128_values_w7 : wellFormed (.runW7 (List.replicate 128 0)) = false := by simp [wellFormed, countOk]
theorem test_128_values_w8 : wellFormed (.runW8 (List.replicate 128 0)) = false := by simp [wellFormed, countOk]

/-! ## Decode: words written out from 30_encoding.md R90, R91, R98, R99 and the examples of 43_decode.md -/

def bits (n v : Nat) : List Bool := toBits n v

theorem test_decode_reset : decode (.command 0x010000000000) = .ok .reset := by rfl
theorem test_decode_wreg : decode (.command 0x02040000000C) = .ok (.wreg 0x04 12) := by rfl
theorem test_decode_rreg : decode (.command 0x030600000000) = .ok (.rreg 0x06) := by rfl
theorem test_decode_winit : decode (.command 0x100000000000) = .ok .winit := by rfl
theorem test_decode_wbits : decode (.command 0x110389ABCDEF) = .ok (.wbits 3 0x89ABCDEF) := by rfl
theorem test_decode_wflush : decode (.command 0x120000000000) = .ok .wflush := by rfl
theorem test_decode_rinit : decode (.command 0x130000000000) = .ok .rinit := by rfl
theorem test_decode_rbits : decode (.command 0x142000000000) = .ok (.rbits 32) := by rfl
theorem test_decode_deint : decode (.command 0x200000000000) = .ok .deint := by rfl
theorem test_decode_int : decode (.command 0x210000000000) = .ok .int := by rfl
theorem test_decode_enc : decode (.command 0x300000000000) = .ok .enc := by rfl
theorem test_decode_dec : decode (.command 0x310000000000) = .ok .dec := by rfl
theorem test_decode_nonzero_field : decode (.command 0x200000000001) = .error (.nonZeroField 0x20) := by rfl
theorem test_decode_illegal_op : decode (.command 0x320000000000) = .error (.illegalOp 0x32) := by rfl

/-- 95_test_vectors.md V39: skip 3, strip 700. -/
theorem test_decode_hdr : decode (.header (bits 18 0b100000001010111011)) = .ok (.hdr 2 699) := by decide
/-- R230: `0001001 000`. -/
theorem test_decode_runW0 : decode (.token (bits 10 0b0001001000)) = .ok (.runW0 9) := by decide
/-- R231: `0000011 001 10 01 11`. -/
theorem test_decode_runW2 : decode (.token (bits 16 0b0000011001100111)) = .ok (.runW2 [2, 1, 3]) := by decide
/-- R232: `0000010 010 111 000`. -/
theorem test_decode_runW3 : decode (.token (bits 16 0b0000010010111000)) = .ok (.runW3 [7, 0]) := by decide
/-- R233: `0000001 011 1111`. -/
theorem test_decode_runW4 : decode (.token (bits 14 0b00000010111111)) = .ok (.runW4 [15]) := by decide
/-- R234: `0000101 100 11010 10010 10010 10010 01011`. -/
theorem test_decode_runW5 : decode (.token (bits 35 0b00001011001101010010100101001001011))
    = .ok (.runW5 [26, 18, 18, 18, 11]) := by decide
/-- R235: `0000010 101 111111 000000`. -/
theorem test_decode_runW6 : decode (.token (bits 22 0b0000010101111111000000)) = .ok (.runW6 [63, 0]) := by decide
/-- R236: `0000010 110 1111111 0000000`. -/
theorem test_decode_runW7 : decode (.token (bits 24 0b000001011011111110000000)) = .ok (.runW7 [127, 0]) := by decide
/-- R237: `0000001 111 11010101`. -/
theorem test_decode_runW8 : decode (.token (bits 18 0b000000111111010101)) = .ok (.runW8 [213]) := by decide
/-- R238: `0000000`. -/
theorem test_decode_end : decode (.token (bits 7 0)) = .ok .endMark := by decide
/-- A token's bits that end early are no token. -/
theorem test_decode_short_token : decode (.token (bits 13 0b0000001011111)) = .error .tooShort := by decide

/-! ## The helpers of the encoding: 95_test_vectors.md V22 to V24 -/

theorem test_widths :
    ([-128, -65, -64, -33, -32, -17, -16, -9, -8, -5, -4, -3, -2, -1, 0, 1, 2, 3, 4, 7, 8, 15, 16, 31, 32, 63, 64, 127]
      : List Int).map width
    = [8, 8, 7, 7, 6, 6, 5, 5, 4, 4, 3, 3, 2, 1, 0, 2, 3, 3, 4, 4, 5, 5, 6, 6, 7, 7, 8, 8] := by decide

theorem test_codes : (List.range 9).map code = [0, 1, 1, 2, 3, 4, 5, 6, 7]
    ∧ (List.range 8).map codeWidth = [0, 2, 3, 4, 5, 6, 7, 8]
    ∧ (List.range 9).map norm = [0, 2, 2, 3, 4, 5, 6, 7, 8]
    ∧ [0, 2, 3, 4, 5, 6, 7, 8].map bias = [0, 2, 4, 8, 16, 32, 64, 128] := by decide

theorem test_wraps : ([85, 128, 255, -129, -255, 200] : List Int).map wrapS8 = [85, -128, -1, 127, 1, -56] := by
  decide

/-! ## States for the tests -/

/-- 64 bytes of each memory. -/
def smallCfg : Config where
  dataCap := ⟨64, by decide⟩
  streamWords := ⟨16, by decide⟩
  scratchCap := ⟨64, by decide⟩

def base : State := { State.reset with cfg := smallCfg }

def faulty : State := { base with fault := true, cause := 2 }

/-- A buffer in `DATA`. -/
def withData (bytes : List Byte) (skip : BitVec 2) (strip : BitVec 16) (block : BitVec 32) : State :=
  { base with
    data := Memory.writeAll [] 0 bytes, dlen := BitVec.ofNat 32 bytes.length
    skip := skip, strip := strip, block := block }

/-- A chunk in `STREAM`. -/
def withStream (bytes : List Byte) : State :=
  { base with stream := Memory.writeAll [] 0 bytes, slen := BitVec.ofNat 32 bytes.length }

/-- An open write session. -/
def writing (acc : BitVec 32) (fill : BitVec 5) (spos : BitVec 32) (bitlen : BitVec 64) : State :=
  { base with bsmode := .write, acc := acc, fill := fill, spos := spos, bitlen := bitlen }

/-- A DEC that reads tokens at the front of a stream, with `n` bytes decoded. -/
def decoding (bytes out : List Byte) (act : Byte) (ht : Nat) : State :=
  { withStream bytes with
    phase := .tokens, data := Memory.writeAll [] 0 out
    dec := { n := out.length, act := act, cnt := 0, bits := 0, hs := 1, ht := ht } }

/-- The state a step or a meaning answers. -/
def after (r : Result) : Option State :=
  match r with
  | .next t => some t
  | .fault _ => none
  | .refused _ => none

/-- The bytes of a memory from an address on. -/
def bytesAt (m : Memory) (a n : Nat) : List (Option Byte) := (List.range n).map fun j => m.read (a + j)

theorem next_with {r : Result} (p : State → Bool) (h : (after r).map p = some true) :
    ∃ t, r = .next t ∧ p t = true := by
  cases r with
  | next t => exact ⟨t, rfl, by simpa [after] using h⟩
  | fault f => simp [after] at h
  | refused e => simp [after] at h

theorem next_of {r : Result} {t : State} (h : after r = some t) : r = .next t := by
  cases r with
  | next u => simp [after] at h; rw [h]
  | fault f => simp [after] at h
  | refused e => simp [after] at h

theorem written_of {m : Memory} {lo hi : Nat}
    (h : (List.range hi).all (fun a => decide (a < lo) || (m.read a).isSome) = true) : written m lo hi := by
  intro a h1 h2
  have := List.all_eq_true.mp h a (List.mem_range.mpr h2)
  simpa [show ¬ a < lo by omega] using this

theorem not_written_of {m : Memory} {hi : Nat} (a : Nat) (ha : a < hi) (h : m.read a = none) : ¬ written m 0 hi := by
  intro hw
  simpa [h] using hw a (Nat.zero_le a) ha

theorem bitsWritten_of {s : State} {p n : Nat}
    (h : (List.range (p + n)).all (fun k => decide (8 * s.slen.toNat ≤ k) || (s.stream.read (k / 8)).isSome) = true) :
    bitsWritten s p n := by
  intro k _ h2 h3
  have := List.all_eq_true.mp h k (List.mem_range.mpr h2)
  simpa [show ¬ 8 * s.slen.toNat ≤ k by omega] using this

theorem holds_of {s : State} {p : Nat} {bs : List Bool} (h : peekBits s bs.length p = .ok bs) : streamHolds s p bs := by
  have key : ∀ (n p : Nat) (bs : List Bool), peekBits s n p = .ok bs → streamHolds s p bs := by
    intro n
    induction n with
    | zero => intro p bs h; injection h with h; subst h; intro j hj; simp at hj
    | succ n ih =>
      intro p bs h
      simp only [peekBits] at h
      split at h
      · cases h
      · rename_i b hb
        split at h
        · cases h
        · rename_i bs' hbs
          injection h with h; subst h
          intro j hj
          cases j with
          | zero => exact hb
          | succ j =>
            have := ih (p + 1) bs' hbs j (by simpa using hj)
            rw [show p + (j + 1) = p + 1 + j by omega]
            exact this
  exact key _ p bs h

/-! ## One step each, on the spec's examples -/

/-- 60_exceptions.md R284: RESET leaves the fault state. -/
theorem test_reset : after (exec .reset { faulty with dlen := 5, data := [(0, 1)] }) = some base := by decide
/-- 44_host_commands.md R252: 4 is no `SKIP`. -/
theorem test_wreg : (after (exec (.wreg 1 3) base)).map State.skip = some 3
    ∧ (after (exec (.wreg 1 4) base)).map State.status = some 5 := by decide
/-- V8: `STATUS` of `BadSequence` is 7. -/
theorem test_rreg : (after (exec (.rreg 0) (base.raise .badSequence .packer))).map State.responses = some [7] := by
  decide
theorem test_winit : (after (exec .winit (withStream [1, 2]))).map (fun t => (t.status, t.slen, t.stream)) = some (0x10, 0, [])
  := by decide
/-- V1, fifth write. -/
theorem test_wbits : (after (exec (.wbits 6 42) (writing 0x4000C2A 28 0 28))).map
    (fun t => ((t.acc, t.fill, t.spos, t.bitlen), t.stream))
    = some ((2, 2, 4, 34), [(0, 0x40), (1, 0x00), (2, 0xC2), (3, 0xAA)]) := by decide
/-- V2: 32 bits onto 3. -/
theorem test_wbits_32 : (after (exec (.wbits 32 0x89ABCDEF) (writing 5 3 0 3))).map
    (fun t => (t.acc, t.fill, t.stream)) = some (7, 3, [(0, 0xB1), (1, 0x35), (2, 0x79), (3, 0xBD)]) := by decide
/-- V1, the flush. -/
theorem test_wflush : (after (exec .wflush (writing 2 2 4 34))).map
    (fun t => (t.status, t.slen, t.spos, t.stream)) = some (0x30, 5, 5, [(4, 0x80)]) := by decide
/-- V5: 31 bits pending. -/
theorem test_wflush_31 : (after (exec .wflush (writing 0x7FFFFFFF 31 4 63))).map
    (fun t => (t.slen, t.stream)) = some (8, [(4, 0xFF), (5, 0xFF), (6, 0xFF), (7, 0xFE)]) := by decide
theorem test_rinit : (after (exec .rinit { base with rpos := 9, underrun := true })).map (fun t => (t.status, t.rpos))
    = some (0x20, 0) := by decide
/-- V7: a field half outside. -/
theorem test_rbits : (after (exec (.rbits 8) { withStream [0xA5, 0xFF] with bsmode := .read, rpos := 12 })).map
    (fun t => (t.result, t.rpos, t.status, t.responses)) = some (0xF0, 20, 0x60, [0xF0]) := by decide
/-- V12. -/
theorem test_deint : (after (exec .deint (withData [0, 1, 2, 3, 4, 5, 6, 7, 8, 9, 10, 11, 12, 13] 1 0 3))).map
    (fun t => t.data.map (fun c => c.2)) = some [0, 2, 4, 1, 3, 5, 6, 8, 10, 7, 9, 11, 12, 13] := by decide
/-- V20. -/
theorem test_int : (after (exec .int (withData [0, 1, 2, 3, 4, 5, 6, 7, 8, 9] 3 0 0))).map
    (fun t => t.data.map (fun c => c.2)) = some [0, 3, 6, 8, 1, 4, 7, 9, 2, 5] := by decide
/-- V48: the chunk, and `BITLEN`. -/
theorem test_enc : (after (exec .enc (withData [5, 6, 7, 9, 9, 12] 0 1 0))).map
    (fun t => (t.stream.map (fun c => c.2), t.slen, t.bitlen, t.status))
    = some ([0x00, 0x00, 0x40, 0xBD, 0x0A, 0x7F, 0x70], 7, 52, 0x30) := by decide
/-- V36: a tie is not strictly cheaper. -/
theorem test_enc_tie : (after (exec .enc (withData [0, 0, 0, 0, 0, 1, 1] 0 0 0))).map
    (fun t => (t.stream.map (fun c => c.2), t.bitlen)) = some ([0x00, 0x00, 0x02, 0x80, 0x47, 0x80], 42) := by
  decide
/-- The chunk of V48 decoded. -/
theorem test_dec : (after (exec .dec (withStream [0x00, 0x00, 0x40, 0xBD, 0x0A, 0x7F, 0x70]))).map
    (fun t => (t.data.map (fun c => c.2), t.dlen, t.strip, t.rpos, t.status))
    = some ([5, 6, 7, 9, 9, 12], 6, 1, 59, 0x60) := by decide
/-- A token of three 8-bit values whose third lies partly in byte 6, which nobody has written. -/
def holeBehind (cap : Fin (2 ^ 32)) : State :=
  { withStream [0x00, 0x00, 0x01, 0xFD, 0x50, 0x10] with slen := 7, cfg := { smallCfg with dataCap := cap } }

/-- R220, R226: with room for one byte the second value overflows, and the third is never read; with room for two the
third is read, and its byte holds no value. -/
theorem test_dec_stops_reading_at_the_overflow :
    (after (exec .dec (holeBehind 1))).map (fun t => (t.status, t.rpos, t.dlen)) = some (0x09, 44, 0)
    ∧ after (exec .dec (holeBehind 2)) = none := by decide

/-- V39's header. -/
theorem test_hdr : (after (exec (.hdr 2 699) { withStream [0x80, 0xAE, 0xC0, 0x94] with phase := .header })).map
    (fun t => (t.skip, t.strip, t.dec.hs, t.dec.ht, t.rpos, t.phase)) = some (2, 699, 3, 700, 18, .tokens) := by
  decide

/-- What a token appends after the output `out`. -/
def appended (i : Instr) (out : List Byte) (act : Byte) (ht : Nat) : Option (List Byte) :=
  (after (exec i (decoding (List.replicate 8 0) out act ht))).map
    fun t => (t.data.map (fun c => c.2)).drop out.length

/-- R230: nine more `55`. -/
theorem test_runW0 : appended (.runW0 9) [0x55] 0x55 1 = some (List.replicate 9 0x55) := by decide
/-- R230 with the gradient: the last value of V43's first row and on. -/
theorem test_runW0_gradient : appended (.runW0 2) [10, 12, 14, 16, 11] 11 4 = some [13, 15] := by decide
theorem test_runW2 : appended (.runW2 [2, 1, 3]) [] 0 1 = some [0x00, 0xFF, 0x00] := by decide
theorem test_runW3 : appended (.runW3 [7, 0]) [1] 1 1 = some [0x04, 0x00] := by decide
theorem test_runW4 : appended (.runW4 [15]) [] 0 1 = some [0x07] := by decide
theorem test_runW5 : appended (.runW5 [26, 18, 18, 18, 11]) [] 0 4 = some [0x0A, 0x0C, 0x0E, 0x10, 0x0B] := by decide
theorem test_runW6 : appended (.runW6 [63, 0]) [0x0C] 0x0C 1 = some [0x2B, 0x0B] := by decide
theorem test_runW7 : appended (.runW7 [127, 0]) [0x1B] 0x1B 1 = some [0x5A, 0x1A] := by decide
theorem test_runW8 : appended (.runW8 [213]) [] 0 1 = some [0x55] := by decide
theorem test_runW8_lowest : appended (.runW8 [0]) [] 0 1 = some [0x80] := by decide
/-- R238: seven bits, partly beyond the end. -/
theorem test_end : (after (exec .endMark { withStream [0, 0, 0] with phase := .tokens, rpos := 18 })).map
    (fun t => (t.rpos, t.underrun, t.phase)) = some (25, true, .finish) := by decide
/-- V21: the scratch check precedes every move. -/
theorem test_deint_no_scratch : after (exec .deint
    { withData [0, 1, 2, 3] 1 0 0 with cfg := { smallCfg with scratchCap := ⟨3, by decide⟩ } })
    = some { withData [0, 1, 2, 3] 1 0 0 with
        cfg := { smallCfg with scratchCap := ⟨3, by decide⟩ }, fault := true, cause := 4 } := by decide

/-! ## For each statement with hypotheses, what meets them -/

theorem witness_DecodeOfEncode : wellFormed (.runW0 127) = true ∧ wellFormed (.runW8 (List.replicate 127 0xFF)) = true
    ∧ wellFormed (.wreg 0xFF 0xFFFFFFFF) = true ∧ wellFormed (.hdr 3 0xFFFF) = true := by
  simp [wellFormed, countOk]

theorem witness_CommandWordIsItsEncoding : decodeCommand 0x02FFFFFFFFFF = .ok (.wreg 0xFF 0xFFFFFFFF) := by rfl

theorem witness_RejectedWordsAreTheIllegalOnes : illegalWord 0x200000000001 ∧ illegalWord 0x0300000000FF
    ∧ illegalWord 0x000000000000 ∧ ¬ illegalWord 0x022000000001 := by
  unfold illegalWord
  decide

theorem witness_StepRunsIssuedCommand :
    ({ base with inputs := [.command 0x100000000000] } : State).phase = .idle
    ∧ ({ base with inputs := [.command 0x100000000000] } : State).inputs = .command 0x100000000000 :: []
    ∧ decodeCommand 0x100000000000 = .ok .winit := ⟨rfl, rfl, rfl⟩

def atHeader : State := { withStream [0x80, 0xAE, 0xC0, 0x94] with phase := .header }
def atToken : State := { withStream [0x80, 0xAE, 0xC0, 0x94] with phase := .tokens, rpos := 18 }
def atEnd : State := { withStream [0x80, 0xAE, 0xC0, 0x94] with phase := .tokens, rpos := 30 }

theorem witness_StepRunsStreamElement_header :
    wellFormed (.hdr 2 699) = true ∧ atHeader.phase = .header
    ∧ encode (.hdr 2 699) = .header (bits 18 0b100000001010111011)
    ∧ streamHolds atHeader atHeader.rpos (bitsReached atHeader (.hdr 2 699) (bits 18 0b100000001010111011)) :=
  ⟨by decide, rfl, by decide, holds_of (by decide)⟩

theorem witness_StepRunsStreamElement_token :
    wellFormed (.runW2 [1]) = true ∧ atToken.phase = .tokens
    ∧ encode (.runW2 [1]) = .token (bits 12 0b000000100101)
    ∧ streamHolds atToken atToken.rpos (bitsReached atToken (.runW2 [1]) (bits 12 0b000000100101)) :=
  ⟨by decide, rfl, by decide, holds_of (by decide)⟩

/-- The token of `holeBehind` at its start: the bits that are read are there, the others are not. -/
def atOverflow : State := { holeBehind 1 with phase := .tokens, rpos := 18 }

theorem witness_StepRunsStreamElement_overflow :
    wellFormed (.runW8 [213, 1, 2]) = true ∧ atOverflow.phase = .tokens
    ∧ encode (.runW8 [213, 1, 2]) = .token (bits 34 0b0000011111110101010000000100000010)
    ∧ streamHolds atOverflow atOverflow.rpos
        (bitsReached atOverflow (.runW8 [213, 1, 2]) (bits 34 0b0000011111110101010000000100000010)) :=
  ⟨by decide, rfl, by decide, holds_of (by decide)⟩

theorem witness_StepRunsStreamElement_end :
    wellFormed .endMark = true ∧ atEnd.phase = .tokens ∧ encode .endMark = .token (bits 7 0)
    ∧ streamHolds atEnd atEnd.rpos (bitsReached atEnd .endMark (bits 7 0)) :=
  ⟨by decide, rfl, by decide, holds_of (by decide)⟩

theorem witness_PlacedWordRunsNext :
    decodeTableWord 48 0x300000000000 = some .enc ∧ decodeTableWord 24 0x3FFFF = some (.hdr 3 0xFFFF)
    ∧ decodeTableWord 16 0x3FF = some (.runW8 (List.replicate 127 0)) ∧ decodeTableWord 8 0 = some .endMark := by
  decide

theorem witness_IllegalWordRaises :
    ({ base with inputs := [.command 0xFF0000000000] } : State).phase = .idle
    ∧ ({ base with inputs := [.command 0xFF0000000000] } : State).inputs = .command 0xFF0000000000 :: []
    ∧ illegalWord 0xFF0000000000 ∧ base.fault = false
    ∧ ({ faulty with inputs := [.command 0xFF0000000000] } : State).fault = true := by
  unfold illegalWord
  decide

theorem witness_FaultGateDropsCommands :
    isCommand .enc = true ∧ Instr.enc ≠ .reset ∧ (∀ r, Instr.enc ≠ .rreg r) ∧ faulty.fault = true :=
  ⟨rfl, nofun, nofun, rfl⟩

theorem witness_OnlyResetLeavesTheFaultState :
    (∃ t, step { faulty with inputs := [.command 0x010000000000] } = .next t ∧ (!t.fault) = true)
    ∧ ∃ t, step { faulty with inputs := [.resetInput] } = .next t ∧ (!t.fault) = true :=
  ⟨next_with _ (by decide), next_with _ (by decide)⟩

theorem witness_FirstCauseIsKept : faulty.fault = true ∧ Instr.rreg 0xFF ≠ .reset
    ∧ ∃ t, exec (.rreg 0xFF) faulty = .next t ∧ true = true :=
  ⟨rfl, nofun, next_with (fun _ => true) (by decide)⟩

theorem witness_HostWritesHoldTheirBytes :
    ({ base with inputs := [.writeData 62 [1, 2]] } : State).phase = .idle
    ∧ ({ base with inputs := [.writeData 62 [1, 2]] } : State).inputs = .writeData 62 [1, 2] :: []
    ∧ 62 + [1, 2].length ≤ base.cfg.dataBytes
    ∧ ({ base with inputs := [.writeStream 60 [1, 2, 3, 4]] } : State).inputs = .writeStream 60 [1, 2, 3, 4] :: []
    ∧ 60 + [1, 2, 3, 4].length ≤ base.cfg.streamBytes := ⟨rfl, rfl, by decide, rfl, by decide⟩

theorem witness_HostReadsOnlyValidBytes_data :
    ({ withData [7, 8] 0 0 0 with inputs := [.readData 1] } : State).phase = .idle
    ∧ 1 < base.cfg.dataBytes ∧ 1 < (withData [7, 8] 0 0 0).dlen.toNat ∧ (withData [7, 8] 0 0 0).data.read 1 = some 8
    ∧ (withData [7, 8] 0 0 0).dlen.toNat ≤ 2 ∧ 63 < base.cfg.dataBytes ∧ base.cfg.dataBytes ≤ 64 := by decide

theorem witness_HostReadsOnlyValidBytes_stream :
    ({ withStream [7, 8] with inputs := [.readStream 1] } : State).phase = .idle
    ∧ 1 < base.cfg.streamBytes ∧ 1 < (withStream [7, 8]).slen.toNat ∧ (withStream [7, 8]).stream.read 1 = some 8
    ∧ (withStream [7, 8]).slen.toNat ≤ 2 ∧ 63 < base.cfg.streamBytes ∧ base.cfg.streamBytes ≤ 64 := by decide

theorem witness_ResetCommandGivesResetState :
    ({ faulty with inputs := [.resetInput] } : State).phase = .idle
    ∧ ({ faulty with inputs := [.resetInput] } : State).inputs = .resetInput :: [] := ⟨rfl, rfl⟩

theorem witness_WregStoresParameters :
    base.fault = false ∧ (3 : BitVec 32).toNat ≤ 3 ∧ (65535 : BitVec 32).toNat ≤ 65535 := by decide

theorem witness_WregStoresLengths :
    base.fault = false ∧ (64 : BitVec 32).toNat ≤ base.cfg.dataBytes ∧ (64 : BitVec 32).toNat ≤ base.cfg.streamBytes := by
  decide

theorem witness_WregRefusesBadOperands :
    base.fault = false ∧ (0x00 : BitVec 8) ∉ ([0x01, 0x02, 0x03, 0x04, 0x05] : List (BitVec 8))
    ∧ (0x06 : BitVec 8) ∉ ([0x01, 0x02, 0x03, 0x04, 0x05] : List (BitVec 8)) ∧ 3 < (4 : BitVec 32).toNat
    ∧ 65535 < (65536 : BitVec 32).toNat ∧ base.cfg.dataBytes < (65 : BitVec 32).toNat
    ∧ base.cfg.streamBytes < (65 : BitVec 32).toNat := by decide

theorem witness_RregReturnsTheRegister :
    registerNat { base with result := 9 } (0x0B : BitVec 8).toNat = some 9
    ∧ 0x0B < (0x0C : BitVec 8).toNat ∧ base.fault = false ∧ faulty.fault = true := by decide

theorem witness_WinitOpensEmptySession : base.fault = false := rfl

theorem witness_RinitOpensReadSession : base.fault = false := rfl

theorem witness_WbitsFillsTheAccumulator :
    (writing 5 3 0 3).fault = false ∧ (writing 5 3 0 3).bsmode = .write
    ∧ (writing 5 3 0 3).acc.toNat < 2 ^ (writing 5 3 0 3).fill.toNat
    ∧ (writing 5 3 0 3).fill.toNat + (28 : BitVec 8).toNat < 32 := by decide

theorem witness_WbitsStoresAFullWord :
    (writing 0x7FFFFFFF 31 60 511).fault = false ∧ (writing 0x7FFFFFFF 31 60 511).bsmode = .write
    ∧ (writing 0x7FFFFFFF 31 60 511).acc.toNat < 2 ^ (writing 0x7FFFFFFF 31 60 511).fill.toNat
    ∧ (32 : BitVec 8).toNat ≤ 32 ∧ 32 ≤ (writing 0x7FFFFFFF 31 60 511).fill.toNat + (1 : BitVec 8).toNat
    ∧ (writing 0x7FFFFFFF 31 60 511).spos.toNat + 4 ≤ base.cfg.streamBytes := by decide

theorem witness_BitCommandFaults :
    base.fault = false ∧ base.bsmode ≠ .write ∧ base.bsmode ≠ .read ∧ (writing 0xAB 8 64 520).bsmode = .write
    ∧ ({ base with bsmode := .read } : State).bsmode = .read ∧ 32 < (33 : BitVec 8).toNat
    ∧ (24 : BitVec 8).toNat ≤ 32 ∧ 32 ≤ (writing 0xAB 8 64 520).fill.toNat + (24 : BitVec 8).toNat
    ∧ base.cfg.streamBytes < (writing 0xAB 8 64 520).spos.toNat + 4 ∧ 0 < (writing 0xAB 8 64 520).fill.toNat := by decide

theorem witness_WflushStoresThePendingBits :
    (writing 1 1 60 481).fault = false ∧ (writing 1 1 60 481).bsmode = .write
    ∧ (writing 1 1 60 481).acc.toNat < 2 ^ (writing 1 1 60 481).fill.toNat ∧ 0 < (writing 1 1 60 481).fill.toNat
    ∧ (writing 1 1 60 481).spos.toNat + 4 ≤ base.cfg.streamBytes := by decide

theorem witness_WflushWithNothingPending :
    (writing 0 0 64 512).fault = false ∧ (writing 0 0 64 512).bsmode = .write ∧ (writing 0 0 64 512).fill = 0 := by decide

def reading : State := { withStream [0xA5, 0xFF] with bsmode := .read, rpos := 12 }

theorem witness_RbitsReturnsTheNextBits :
    reading.fault = false ∧ reading.bsmode = .read ∧ (32 : BitVec 8).toNat ≤ 32
    ∧ bitsWritten reading reading.rpos (32 : BitVec 8).toNat :=
  ⟨rfl, rfl, by decide, bitsWritten_of (by decide)⟩

def readingHole : State := { reading with slen := 3 }

theorem witness_RbitsNeedsWrittenBytes :
    readingHole.fault = false ∧ readingHole.bsmode = .read ∧ (5 : BitVec 8).toNat ≤ 32
    ∧ ¬ bitsWritten readingHole readingHole.rpos (5 : BitVec 8).toNat := by
  refine ⟨rfl, rfl, by decide, fun h => ?_⟩
  exact absurd (h 16 (by decide) (by decide) (by decide)) (by decide)

/-- V2's session. -/
def session : List (Nat × Nat) := [(0xFFFFFFFD, 3), (0, 0), (0x89ABCDEF, 32), (0x7FFFFFFF, 29), (0xDEADBEEF, 32), (1, 1)]

/-- What a sub-operation ends with. -/
def reached (r : Res) : Option State :=
  match r with
  | .ok s => some s
  | .raise _ _ => none
  | .refuse _ => none

theorem reached_ok {r : Res} (h : (reached r).isSome = true) : ∃ t, r = .ok t := by
  cases r with
  | ok t => exact ⟨t, rfl⟩
  | raise c s => simp [reached] at h
  | refuse e => simp [reached] at h

theorem witness_PackingLaw : (∀ f ∈ session, f.2 ≤ 32)
    ∧ ∃ t, (writeFields session (bsWinit base)).andThen bsFlush = .ok t :=
  ⟨by decide, reached_ok (by decide)⟩

theorem witness_MirrorLaw : (∀ f ∈ [(5, 31), (7, 32)], f.2 ≤ 32) ∧ (∀ n ∈ [0, 32, 31, 7], n ≤ 32)
    ∧ ∃ t, (writeFields [(5, 31), (7, 32)] (bsWinit base)).andThen bsFlush = .ok t :=
  ⟨by decide, by decide, reached_ok (by decide)⟩

theorem witness_DestPermutesTheWindow :
    0 < 4 ∧ 3 < 4 ∧ 1 % 4 < 6 % 4 ∧ 1 < 5 ∧ 5 < 10 ∧ 1 % 4 = 5 % 4 ∧ dest 10 4 5 = dest 10 4 5 ∧ 2 ≤ 3 ∧ 9 < 10 := by decide

theorem witness_WindowsPartitionTheBuffer : 0 < 3 ∧ 11 < 12 ∧ (6, 6) ∈ windows 12 3 2 ∧ (12, 0) ∈ windows 12 3 2
    ∧ 0 < 2 ∧ 1 < 12 / (3 * 2) ∧ (6, 2) ∈ windows 8 3 2 ∧ (0, 8) ∈ windows 8 3 0 := by decide

/-- Two windows and a partial one; `SCRATCH` just large enough. -/
def planes : State :=
  { withData [0, 1, 2, 3, 4, 5, 6, 7] 2 0 2 with cfg := { smallCfg with scratchCap := ⟨6, by decide⟩ } }

theorem planes_fit : scratchFits planes planes.stride planes.dlen.toNat := by
  unfold scratchFits
  decide

theorem witness_TransposerMovesEachByte : planes.fault = false ∧ scratchFits planes planes.stride planes.dlen.toNat
    ∧ (6, 2) ∈ windows planes.dlen.toNat planes.stride planes.block.toNat ∧ base.stride = 1 :=
  ⟨rfl, planes_fit, by decide, by decide⟩

theorem witness_TransposerInverseLaw :
    (∃ t, exec .deint planes = .next t ∧ (!t.fault && (after (exec .int t)).isSome) = true)
    ∧ ∃ t, exec .int planes = .next t ∧ (!t.fault && (after (exec .deint t)).isSome) = true :=
  ⟨next_with _ (by decide), next_with _ (by decide)⟩

theorem witness_TransposerKeepsTheBytes : planes.fault = false ∧ ∃ t, exec .deint planes = .next t ∧ (!t.fault) = true :=
  ⟨rfl, next_with _ (by decide)⟩

def tight : State := { planes with cfg := { smallCfg with scratchCap := ⟨5, by decide⟩ } }

theorem tight_lacks : ¬ scratchFits tight tight.stride tight.dlen.toNat := by
  unfold scratchFits
  decide

theorem witness_TransposerScratchFault :
    0 < 3 ∧ tight.fault = false ∧ 1 < tight.stride
    ∧ tight.cfg.scratchBytes < (if tight.block = 0 then tight.dlen.toNat
        else min tight.dlen.toNat (tight.stride * tight.block.toNat))
    ∧ planes.fault = false ∧ base.stride = 1
    ∧ (if planes.block = 0 then planes.dlen.toNat
        else min planes.dlen.toNat (planes.stride * planes.block.toNat)) ≤ planes.cfg.scratchBytes := by decide

/-- V25: a tie is not merged, one less is. -/
theorem witness_MergeOnlyWhenStrictlyCheaper :
    ((1 + 4 ≤ 127) ∧ (1 + 4) * max 2 0 < 4 * 0 + 1 * 2 + 10)
    ∧ ¬((1 + 5 ≤ 127) ∧ (1 + 5) * max 2 0 < 5 * 0 + 1 * 2 + 10)
    ∧ ¬((73 + 127 ≤ 127) ∧ (73 + 127) * max 0 0 < 127 * 0 + 73 * 0 + 10) := by decide

def input : State := withData [5, 6, 7, 9, 9, 12] 1 1 0

theorem witness_EncCompletes :
    input.fault = false ∧ scratchFits input input.stride input.dlen.toNat
    ∧ 4 * ((18 + 18 * input.dlen.toNat + 31) / 32) ≤ input.cfg.streamBytes
    ∧ written input.data 0 input.dlen.toNat ∧ ¬ written ({ input with dlen := 7 } : State).data 0 7
    ∧ 4 * ((18 + 18 * 7 + 31) / 32) ≤ input.cfg.streamBytes :=
  ⟨rfl, by unfold scratchFits; decide, by decide, written_of (by decide),
    not_written_of 6 (by decide) (by decide), by decide⟩

theorem witness_EncWritesTheResiduals : input.fault = false ∧ (∃ t, exec .enc input = .next t ∧ (!t.fault) = true)
    ∧ ∃ u, deint input.stride input.block.toNat input.dlen.toNat input = .ok u :=
  ⟨rfl, next_with _ (by decide), reached_ok (by decide)⟩

theorem witness_EncFrame : ∃ t, exec .enc input = .next t ∧ (!t.fault) = true := next_with _ (by decide)

def smallStream : State := { input with cfg := { smallCfg with streamWords := ⟨1, by decide⟩ } }

theorem witness_EncFaultInvalidatesOutputs :
    (smallStream.fault = false ∧ scratchFits smallStream smallStream.stride smallStream.dlen.toNat
      ∧ written smallStream.data 0 smallStream.dlen.toNat ∧ ∃ t, exec .enc smallStream = .next t ∧ t.fault = true)
    ∧ tight.fault = false ∧ ¬ scratchFits tight tight.stride tight.dlen.toNat :=
  ⟨⟨rfl, by unfold scratchFits; decide, written_of (by decide), next_with _ (by decide)⟩, rfl, tight_lacks⟩

theorem witness_HdrSetsTheParameters :
    (withStream [0, 0, 0]).underrun = false ∧ 6 + 18 ≤ 8 * (withStream [0, 0, 0]).slen.toNat
    ∧ (withStream [0, 0, 0]).fault = false ∧ 8 * (withStream [0, 0, 0]).slen.toNat < 7 + 18 := by decide

/-- A token of two 8-bit values that ends at the stream's last bit, with two bytes left in `DATA`. -/
def lastToken : State :=
  { decoding [0, 0, 0, 0] (List.replicate 62 7) 7 61 with rpos := 6 }

theorem witness_RunTokenAppendsItsValues :
    runFields (.runW8 [1, 2]) = some (8, [1, 2]) ∧ wellFormed (.runW8 [1, 2]) = true ∧ lastToken.underrun = false
    ∧ lastToken.rpos + 10 + [1, 2].length * 8 ≤ 8 * lastToken.slen.toNat
    ∧ lastToken.dec.n + [1, 2].length ≤ lastToken.cfg.dataBytes ∧ written lastToken.data 0 lastToken.dec.n :=
  ⟨by decide, by decide, rfl, by decide, by decide, written_of (by decide)⟩

theorem witness_RunTokenFaults_truncated :
    runFields (.runW8 [1, 2]) = some (8, [1, 2]) ∧ wellFormed (.runW8 [1, 2]) = true
    ∧ ({ lastToken with rpos := 7 } : State).fault = false ∧ ({ lastToken with rpos := 7 } : State).underrun = false
    ∧ 8 * lastToken.slen.toNat
      < 7 + 10 + min [1, 2].length (lastToken.cfg.dataBytes - lastToken.dec.n + 1) * 8
    ∧ written lastToken.data 0 lastToken.dec.n :=
  ⟨by decide, by decide, rfl, rfl, by decide, written_of (by decide)⟩

theorem witness_RunTokenFaults_allocation :
    runFields (.runW4 [1, 2, 3]) = some (4, [1, 2, 3]) ∧ wellFormed (.runW4 [1, 2, 3]) = true ∧ lastToken.fault = false
    ∧ lastToken.underrun = false
    ∧ lastToken.rpos + 10 + min [1, 2, 3].length (lastToken.cfg.dataBytes - lastToken.dec.n + 1) * 4
      ≤ 8 * lastToken.slen.toNat
    ∧ lastToken.cfg.dataBytes < lastToken.dec.n + [1, 2, 3].length ∧ written lastToken.data 0 lastToken.dec.n :=
  ⟨by decide, by decide, rfl, rfl, by decide, by decide, written_of (by decide)⟩

/-- R283: the stream ends inside the very value that does not fit, so it is `TruncatedStream`; one bit less and it is
`Allocation`. Each is reported just behind that value. -/
theorem test_truncation_is_reported_before_a_full_output :
    (after (exec (.runW8 [1, 2, 3, 4]) { decoding [0, 0, 0, 0] (List.replicate 63 7) 7 61 with rpos := 7 })).map
      (fun t => (t.cause, t.rpos)) = some (5, 33)
    ∧ (after (exec (.runW8 [1, 2, 3, 4]) { decoding [0, 0, 0, 0] (List.replicate 63 7) 7 61 with rpos := 6 })).map
      (fun t => (t.cause, t.rpos)) = some (4, 32) := by decide

theorem witness_DecOfAShortChunk :
    (withStream [0x80, 0xAE]).fault = false ∧ (withStream [0x80, 0xAE]).slen.toNat < 3
    ∧ written (withStream [0x80, 0xAE]).stream 0 (withStream [0x80, 0xAE]).slen.toNat :=
  ⟨rfl, by decide, written_of (by decide)⟩

/-- V48's chunk. -/
def chunk : State := withStream [0x00, 0x00, 0x40, 0xBD, 0x0A, 0x7F, 0x70]

def chunkTokens : List (Nat × List Nat) := [(4, [13]), (2, [3, 3, 3, 1, 3])]

theorem witness_DecDecodesEveryTokenSequence :
    chunk.fault = false ∧ (∀ tok ∈ chunkTokens, tokenOk tok)
    ∧ streamHolds chunk 0 (chunkBits 0 1 chunkTokens ++ toBits 7 0)
    ∧ (chunkBits 0 1 chunkTokens).length ≤ 8 * chunk.slen.toNat
    ∧ tokensCount chunkTokens ≤ chunk.cfg.dataBytes
    ∧ scratchFits chunk ((0 : BitVec 2).toNat + 1) (tokensCount chunkTokens) :=
  ⟨rfl, by unfold tokenOk; decide, holds_of (by decide), by decide, by decide,
    by unfold scratchFits; decide⟩

/-- A chunk of three zero bytes whose header says skip 3 (V39's header), with two bytes of `SCRATCH`. -/
def wideChunk : State :=
  { withStream [0x80, 0xAE, 0xC1, 0x80, 0x00] with cfg := { smallCfg with scratchCap := ⟨2, by decide⟩ } }

theorem witness_DecDecodesEveryTokenSequence_scratch :
    wideChunk.fault = false ∧ (∀ tok ∈ [(0, [0, 0, 0])], tokenOk tok)
    ∧ streamHolds wideChunk 0 (chunkBits 2 699 [(0, [0, 0, 0])] ++ toBits 7 0)
    ∧ (chunkBits 2 699 [(0, [0, 0, 0])]).length ≤ 8 * wideChunk.slen.toNat
    ∧ tokensCount [(0, [0, 0, 0])] ≤ wideChunk.cfg.dataBytes
    ∧ ¬ scratchFits wideChunk ((2 : BitVec 2).toNat + 1) (tokensCount [(0, [0, 0, 0])]) :=
  ⟨rfl, by unfold tokenOk; decide, holds_of (by decide), by decide, by decide, by unfold scratchFits; decide⟩

theorem witness_DecRunsItsElements : chunk.fault = false := rfl

theorem witness_DecAlwaysEnds : chunk.fault = false ∧ written chunk.stream 0 chunk.slen.toNat :=
  ⟨rfl, written_of (by decide)⟩

/-- The refusal a meaning answers. -/
def refusal (r : Result) : Option Refusal :=
  match r with
  | .next _ => none
  | .fault _ => none
  | .refused e => some e

theorem refused_of {r : Result} {e : Refusal} (h : refusal r = some e) : r = .refused e := by
  cases r with
  | next t => simp [refusal] at h
  | fault f => simp [refusal] at h
  | refused e' => simp [refusal] at h; rw [h]

theorem witness_DecAlwaysEnds_refused : ({ chunk with slen := 8 } : State).fault = false ∧
    exec .dec { chunk with slen := 8 } = .refused (.unspecifiedByte .stream 7) :=
  ⟨rfl, refused_of (by decide)⟩

theorem witness_DecFrame : ∃ t, exec .dec chunk = .next t ∧ (!t.fault) = true := next_with _ (by decide)

theorem witness_DecDependsOnTheStreamAlone :
    chunk.fault = false ∧ ({ chunk with skip := 3, dlen := 9, data := [(0, 1)] } : State).slen = chunk.slen
    ∧ ({ chunk with skip := 3, dlen := 9, data := [(0, 1)] } : State).block = chunk.block
    ∧ ({ chunk with skip := 3, dlen := 9, data := [(0, 1)] } : State).cfg = chunk.cfg
    ∧ (∀ a, a < chunk.slen.toNat →
        ({ chunk with skip := 3, dlen := 9, data := [(0, 1)] } : State).stream.read a = chunk.stream.read a)
    ∧ ∃ t, exec .dec chunk = .next t ∧ (!t.fault) = true :=
  ⟨rfl, rfl, rfl, rfl, fun _ _ => rfl, next_with _ (by decide)⟩

theorem witness_EncodeDecodeRoundTrip :
    input.fault = false ∧ input.dlen.toNat ≤ input.cfg.dataBytes ∧ ∃ t, exec .enc input = .next t ∧ (!t.fault) = true :=
  ⟨rfl, by decide, next_with _ (by decide)⟩

theorem witness_BsmodeTransitions :
    (∃ t, exec .enc input = .next t ∧ (!t.fault && t.bsmode == .closed) = true)
    ∧ (∃ t, exec .wflush base = .next t ∧ t.fault = true) ∧ ∃ t, exec .enc faulty = .next t ∧ t.fault = true :=
  ⟨next_with _ (by decide), next_with _ (by decide), next_with _ (by decide)⟩

theorem witness_ResultHoldsTheLastBitsRead :
    (Instr.dec ≠ .reset ∧ (∀ n, Instr.dec ≠ .rbits n) ∧ ∃ t, exec .dec chunk = .next t ∧ (!t.fault) = true)
    ∧ (∃ t, exec (.rbits 33) reading = .next t ∧ t.fault = true)
    ∧ ∃ t, exec (.rbits 32) reading = .next t ∧ (!t.fault) = true :=
  ⟨⟨nofun, nofun, next_with _ (by decide)⟩, next_with _ (by decide), next_with _ (by decide)⟩

theorem witness_OnlyReadsRespond : ∃ t, exec (.rbits 5) reading = .next t ∧ (t.responses == [0x1E]) = true :=
  next_with _ (by decide)

/-- The reset state with a good ENC next at the port. -/
def soundInput : State := { input with inputs := [.command 0x300000000000] }

theorem witness_StepKeepsTheInvariant :
    soundInput.Inv ∧ ∃ t, step soundInput = .next t ∧ (t.bsmode == .closed) = true := by
  refine ⟨?_, next_with _ (by decide)⟩
  constructor <;> decide

end Sys2Proof.Tests
end

section
/-! What the host's read of a memory byte answers (00_scope.md R18, 10_state.md R45, 70_reset_and_hazards.md R320). -/

namespace Sys2Proof.Machine

/-- Between commands, an action of the host that issues no instruction is the whole step. -/
theorem step_of_hostAction_other {s : State} {a : HostAction} {rest : List HostAction} {r : Result}
    (hphase : s.phase = .idle) (hinputs : s.inputs = a :: rest)
    (hact : hostAction a { s with inputs := rest } = .other r) : step s = r := by
  have hfetch : fetch s = .other r := by
    rw [← hact]
    simp only [fetch, hphase, hinputs]
  rw [step, hfetch]

theorem step_readData {s : State} {addr : Nat} {rest : List HostAction} (hphase : s.phase = .idle)
    (hinputs : s.inputs = .readData addr :: rest) :
    step s = hostRead .data s.data s.cfg.dataBytes s.dlen.toNat addr { s with inputs := rest } :=
  step_of_hostAction_other hphase hinputs rfl

theorem step_readStream {s : State} {addr : Nat} {rest : List HostAction} (hphase : s.phase = .idle)
    (hinputs : s.inputs = .readStream addr :: rest) :
    step s = hostRead .stream s.stream s.cfg.streamBytes s.slen.toNat addr { s with inputs := rest } :=
  step_of_hostAction_other hphase hinputs rfl

section
variable {sp : Space} {m : Memory} {cap len addr : Nat} {s : State}

theorem hostRead_valid {b : Byte} (hcap : addr < cap) (hlen : addr < len) (hb : m.read addr = some b) :
    hostRead sp m cap len addr s = .next { s with hostReads := s.hostReads ++ [b] } :=
  hostRead_eq_next.mpr ⟨hcap, hlen, b, hb, rfl⟩

/-- A byte holds no value for either of two reasons: it lies at or above the length, or nothing has written it. -/
theorem hostRead_unspecified (hcap : addr < cap) (h : len ≤ addr ∨ m.read addr = none) :
    hostRead sp m cap len addr s = .refused (.unspecifiedByte sp addr) := by
  rw [hostRead, if_neg (Nat.not_le.mpr hcap)]
  by_cases hlen : len ≤ addr
  · rw [if_pos hlen]
  · have hvalue : m.value sp addr = .error (.unspecifiedByte sp addr) :=
      Memory.value_eq_error.mpr ⟨h.resolve_left hlen, rfl⟩
    rw [if_neg hlen, hvalue]

theorem hostRead_outside (hcap : cap ≤ addr) :
    hostRead sp m cap len addr s = .fault (.noSuchAddress sp addr) := by
  rw [hostRead, if_pos hcap]

end

/-- Settles O15: each clause of DATA, and of STREAM, is one case of `hostRead`. -/
theorem hostReadsOnlyValidBytes : Obligations.HostReadsOnlyValidBytes := by
  intro s addr rest hphase
  constructor
  · intro hinputs
    rw [step_readData hphase hinputs]
    exact ⟨fun _ => hostRead_valid, hostRead_unspecified, hostRead_outside⟩
  · intro hinputs
    rw [step_readStream hphase hinputs]
    exact ⟨fun _ => hostRead_valid, hostRead_unspecified, hostRead_outside⟩

end Sys2Proof.Machine
end

section
/-! Rules for how a sub-operation ends: what holds where it completes and where it raises (00_scope.md R15). -/

namespace Sys2Proof.Machine

/-- `ok` holds of the state that a sub-operation completes in, and `raised` of the state that it raises a fault in. -/
def Res.Ends (r : Res) (ok raised : State → Prop) : Prop :=
  match r with
  | .ok t => ok t
  | .raise _ t => raised t
  | .refuse _ => True

section
variable {r : Res} {f : State → Res} {P Q R R' : State → Prop} {s t : State} {site : RaisedIn}

@[simp] theorem Res.ok_ends : (Res.ok s).Ends P R ↔ P s := Iff.rfl
@[simp] theorem Res.raise_ends (c : Cause) : (Res.raise c s).Ends P R ↔ R s := Iff.rfl
@[simp] theorem Res.refuse_ends (e : Refusal) : (Res.refuse e).Ends P R ↔ True := Iff.rfl

theorem Res.Ends.andThen (h : r.Ends P R) (hf : ∀ u, P u → (f u).Ends Q R) : (r.andThen f).Ends Q R := by
  cases r with
  | ok u => exact hf u h
  | raise c u => exact h
  | refuse e => trivial

theorem Res.Ends.mono (h : r.Ends P R) (hok : ∀ u, P u → Q u) (hraised : ∀ u, R u → R' u) : r.Ends Q R' := by
  cases r with
  | ok u => exact hok u h
  | raise c u => exact hraised u h
  | refuse e => trivial

theorem Res.ends_ite {c : Prop} [Decidable c] {r' : Res} (h : c → r.Ends P R) (h' : ¬ c → r'.Ends P R) :
    (if c then r else r').Ends P R := by
  split
  · next hc => exact h hc
  · next hc => exact h' hc

/-- The answer of a command is the state its body completed in, or a raise in the state its body had reached. -/
theorem Res.Ends.of_answer (h : r.Ends P R) (ht : r.answer site = .next t) :
    P t ∨ ∃ c u, R u ∧ u.raise c site = t := by
  rcases Res.answer_eq_next.mp ht with rfl | ⟨c, u, rfl, hu⟩
  · exact .inl h
  · exact .inr ⟨c, u, h, hu⟩

end

end Sys2Proof.Machine
end

section
/-! Memories that stay within a capacity (45_arithmetic_control_access.md R266). -/

namespace Sys2Proof.Machine

/-- A memory is canonical, and holds no byte at or above a capacity. -/
structure Memory.Fits (m : Memory) (cap : Nat) : Prop where
  wf : m.wf
  inside : ∀ c ∈ m, c.1 < cap

section
variable {m : Memory} {cap : Nat}

theorem Memory.fits_nil : Memory.Fits [] cap := ⟨List.Pairwise.nil, nofun⟩

theorem Memory.Fits.filter (h : m.Fits cap) (keep : Host.Cell → Bool) : Memory.Fits (m.filter keep) cap :=
  ⟨h.wf.filter keep, fun c hc => h.inside c (List.mem_of_mem_filter hc)⟩

theorem Memory.Fits.write (h : m.Fits cap) {a : Nat} (ha : a < cap) (b : Byte) : (m.write a b).Fits cap :=
  ⟨Memory.write_wf h.wf a b, fun c hc => (Memory.mem_write hc).elim (fun hca => hca ▸ ha) (h.inside c)⟩

theorem Memory.Fits.put (h : m.Fits cap) {a : Nat} (ha : a < cap) (b : Option Byte) : (m.put a b).Fits cap := by
  cases b with
  | none => exact h.filter _
  | some v => exact h.write ha v

theorem Memory.Fits.writeAll (h : m.Fits cap) {a : Nat} {bs : List Byte} (ha : a + bs.length ≤ cap) :
    (m.writeAll a bs).Fits cap := by
  induction bs generalizing m a with
  | nil => exact h
  | cons b bs ih =>
    rw [List.length_cons] at ha
    exact ih (h.write (by omega) b) (by omega)

theorem Memory.Fits.copyBack (h : m.Fits cap) {o len : Nat} (ho : o + len ≤ cap) (scratch : Memory) :
    (copyBack o len scratch m).Fits cap := by
  have inWindow : ∀ j ∈ List.range len, o + j < cap := fun j hj => by
    have := List.mem_range.mp hj
    omega
  unfold Machine.copyBack
  generalize List.range len = js at inWindow
  induction js generalizing m with
  | nil => exact h
  | cons j js ih =>
    exact ih (h.put (inWindow j List.mem_cons_self) _) fun k hk => inWindow k (List.mem_cons_of_mem _ hk)

end

end Sys2Proof.Machine
end

section
/-! What the lines of a running command keep. A command's body runs on states in which no fault is latched; its lines
keep them `Sound`, whatever the phase and the working registers, and the packer's lines keep them `Packing`. -/

namespace Sys2Proof.Machine

/-- What the invariant says at every line of a command that has passed the fault gate. -/
structure State.Sound (s : State) : Prop where
  no_fault : s.fault = false
  no_cause : s.cause = 0
  data_fits : s.data.Fits s.cfg.dataBytes
  stream_fits : s.stream.Fits s.cfg.streamBytes
  dlen_cap : s.dlen.toNat ≤ s.cfg.dataBytes
  slen_cap : s.slen.toNat ≤ s.cfg.streamBytes
  spos_cap : s.spos.toNat ≤ s.cfg.streamBytes
  acc_below : s.acc.toNat < 2 ^ s.fill.toNat
  /-- DEC has stored no more bytes than `DATA` holds (43_decode.md R226) -/
  count_cap : s.dec.n ≤ s.cfg.dataBytes

/-- The packer's position and its bit count agree, as in an open session (10_state.md R32): also inside ENC, whatever
`BSMODE` is there. -/
structure State.Packing (s : State) : Prop extends State.Sound s where
  aligned : s.spos.toNat % 4 = 0
  counted : s.bitlen.toNat = 8 * s.spos.toNat + s.fill.toNat

/-- Nothing is pending and `SPOS` is the chunk's length in bytes (10_state.md R30, R32). -/
structure State.Flushed (s : State) : Prop extends State.Sound s where
  empty : s.fill = 0
  whole : s.spos.toNat = (s.bitlen.toNat + 7) / 8

/-- The part of the state that no line of a running command writes: `FAULT`, `CAUSE`, `BSMODE`, `BLOCK`, `DLEN`,
`RESULT`, the host's side and the capacities. What the lines do write is blanked. -/
def State.fixedPart (s : State) : State :=
  { s with
    underrun := false, skip := 0, strip := 0, slen := 0, bitlen := 0, acc := 0, fill := 0, spos := 0, rpos := 0
    data := [], stream := [], scratch := [], enc := {}, dec := {}, phase := .idle }

/-- Lines of a running command lead from `s` to `t`. -/
structure State.Leads (s t : State) : Prop where
  fixed : t.fixedPart = s.fixedPart
  sound : s.Sound → t.Sound
  packing : s.Packing → t.Packing

section
variable {s t u : State}

theorem State.Leads.refl (s : State) : s.Leads s := ⟨rfl, id, id⟩

theorem State.Leads.trans (h : s.Leads t) (h' : t.Leads u) : s.Leads u :=
  ⟨h'.fixed.trans h.fixed, h'.sound ∘ h.sound, h'.packing ∘ h.packing⟩

theorem State.Leads.fault (h : s.Leads t) : t.fault = s.fault := (congrArg State.fault h.fixed :)
theorem State.Leads.bsmode (h : s.Leads t) : t.bsmode = s.bsmode := (congrArg State.bsmode h.fixed :)
theorem State.Leads.dlen (h : s.Leads t) : t.dlen = s.dlen := (congrArg State.dlen h.fixed :)
theorem State.Leads.result (h : s.Leads t) : t.result = s.result := (congrArg State.result h.fixed :)

/-- A line that leaves the memories, `SLEN`, the packer and the decoder's count alone. -/
theorem State.Leads.of_untouched (hfixed : t.fixedPart = s.fixedPart) (hdata : t.data = s.data)
    (hstream : t.stream = s.stream) (hslen : t.slen = s.slen) (hpacker : samePacker s t)
    (hcount : t.dec.n = s.dec.n) : s.Leads t := by
  obtain ⟨hbitlen, hacc, hfill, hspos⟩ := hpacker
  have hfault : t.fault = s.fault := (congrArg State.fault hfixed :)
  have hcause : t.cause = s.cause := (congrArg State.cause hfixed :)
  have hdlen : t.dlen = s.dlen := (congrArg State.dlen hfixed :)
  have hcfg : t.cfg = s.cfg := (congrArg State.cfg hfixed :)
  have hsound : s.Sound → t.Sound := by
    rintro ⟨h1, h2, h3, h4, h5, h6, h7, h8, h9⟩
    constructor <;> simpa only [hfault, hcause, hdata, hstream, hdlen, hslen, hspos, hacc, hfill, hcount, hcfg]
  refine ⟨hfixed, hsound, fun h => ⟨hsound h.toSound, ?_, ?_⟩⟩
  · rw [hspos]; exact h.aligned
  · rw [hbitlen, hspos, hfill]; exact h.counted

/-- The encoder's working registers are of no account. -/
theorem State.leads_enc (s : State) (regs : EncRegs) : s.Leads { s with enc := regs } :=
  .of_untouched rfl rfl rfl rfl ⟨rfl, rfl, rfl, rfl⟩ rfl

theorem State.leads_consume (s : State) (n : Nat) : s.Leads (consume n s) :=
  .of_untouched rfl rfl rfl rfl ⟨rfl, rfl, rfl, rfl⟩ rfl

theorem State.leads_startToken (s : State) (count bits : Nat) : s.Leads (s.startToken count bits) :=
  .of_untouched rfl rfl rfl rfl ⟨rfl, rfl, rfl, rfl⟩ rfl

theorem State.leads_phase (s : State) (phase : Phase) : s.Leads { s with phase := phase } :=
  .of_untouched rfl rfl rfl rfl ⟨rfl, rfl, rfl, rfl⟩ rfl

/-- DEC's first lines (43_decode.md R220). -/
theorem State.leads_openStream (s : State) : s.Leads { bsRinit s with phase := .header } :=
  .of_untouched rfl rfl rfl rfl ⟨rfl, rfl, rfl, rfl⟩ rfl

/-- The decoder starts with no byte stored (43_decode.md R222). -/
theorem State.leads_openTokens (s : State) (skipm1 : BitVec 2) (stripm1 : BitVec 16) :
    s.Leads (s.openTokens skipm1 stripm1) where
  fixed := rfl
  sound h := { h with count_cap := Nat.zero_le _ }
  packing h := { h with count_cap := Nat.zero_le _ }

/-- The decoder appends a byte only where `DATA` has room (43_decode.md R226). -/
theorem State.leads_append (b : Byte) (hroom : s.dec.n < s.cfg.dataBytes) : s.Leads (s.append b) where
  fixed := rfl
  sound h := { h with data_fits := h.data_fits.write hroom b, count_cap := hroom }
  packing h := { h with data_fits := h.data_fits.write hroom b, count_cap := hroom }

end

end Sys2Proof.Machine
end

section
/-! What a transposition keeps: it moves bytes inside its buffer, and changes nothing but `DATA` and `SCRATCH`
(41_transposer.md R161, R164, R165). -/

namespace Sys2Proof.Machine

/-- Every window ends inside the buffer (R161). -/
theorem window_end_le {len stride block : Nat} {win : Nat × Nat} (h : win ∈ windows len stride block) :
    win.1 + win.2 ≤ len := by
  unfold windows at h
  split at h
  · rw [List.mem_singleton] at h
    subst h
    exact Nat.le_of_eq (Nat.zero_add len)
  · have hfull := Nat.div_mul_le_self len (stride * block)
    rcases List.mem_append.mp h with h | h
    · obtain ⟨q, hq, rfl⟩ := List.mem_map.mp h
      calc q * (stride * block) + stride * block
          = (q + 1) * (stride * block) := (Nat.succ_mul _ _).symm
        _ ≤ len / (stride * block) * (stride * block) := Nat.mul_le_mul_right _ (List.mem_range.mp hq)
        _ ≤ len := hfull
    · rw [List.mem_singleton] at h
      subst h
      exact Nat.le_of_eq (Nat.add_sub_cancel' hfull)

/-- The windows of a buffer of `len` bytes have been moved. -/
structure State.Transposed (len : Nat) (s t : State) : Prop where
  frame : t = { s with data := t.data, scratch := t.scratch }
  fits : ∀ cap, len ≤ cap → s.data.Fits cap → t.data.Fits cap

section
variable {s t u : State} {len stride block : Nat}

theorem State.Transposed.trans (h : s.Transposed len t) (h' : t.Transposed len u) : s.Transposed len u where
  frame := h'.frame.trans (congrArg (fun v : State => { v with data := u.data, scratch := u.scratch }) h.frame)
  fits cap hcap hs := h'.fits cap hcap (h.fits cap hcap hs)

theorem State.transposed_moveWindow (s : State) {o n : Nat} (target source : Nat → Nat) (h : o + n ≤ len) :
    s.Transposed len (s.moveWindow o n target source) :=
  ⟨rfl, fun _ hcap hs => hs.copyBack (h.trans hcap) _⟩

/-- Both directions move their windows by `moveWindow`. -/
def MovesWindows (move : Nat → State → Nat × Nat → State) : Prop :=
  ∀ stride s win, ∃ target source, move stride s win = s.moveWindow win.1 win.2 target source

theorem deintWindow_moves : MovesWindows deintWindow := fun _ _ _ => ⟨_, _, rfl⟩
theorem reintWindow_moves : MovesWindows reintWindow := fun _ _ _ => ⟨_, _, rfl⟩

variable {move : Nat → State → Nat × Nat → State}

theorem State.transposed_foldl (hmove : MovesWindows move) (s : State) {wins : List (Nat × Nat)}
    (hwins : ∀ win ∈ wins, win.1 + win.2 ≤ len) : s.Transposed len (wins.foldl (move stride) s) := by
  induction wins generalizing s with
  | nil => exact ⟨rfl, fun _ _ hs => hs⟩
  | cons win wins ih =>
    obtain ⟨target, source, hwin⟩ := hmove stride s win
    have hfirst : s.Transposed len (move stride s win) :=
      hwin ▸ s.transposed_moveWindow target source (hwins win List.mem_cons_self)
    exact hfirst.trans (ih _ fun w hw => hwins w (List.mem_cons_of_mem _ hw))

/-- A transposition faults before any byte moves (R163); where it ends, an empty `SCRATCH` is empty again. -/
theorem transpose_ends (hmove : MovesWindows move) (stride block len : Nat) (s : State) :
    (transpose move stride block len s).Ends
      (fun t => s.Transposed len t ∧ (s.scratch = [] → t.scratch = [])) (fun t => t = s) := by
  rcases transpose_cases move stride block len s with ⟨-, h⟩ | ⟨-, -, h⟩ | ⟨-, -, h⟩
  · rw [h, Res.ok_ends]
    exact ⟨⟨rfl, fun _ _ hs => hs⟩, id⟩
  · rw [h, Res.raise_ends]
  · rw [h, Res.ok_ends]
    have hmoved : s.Transposed len ((windows len stride block).foldl (move stride) s) :=
      s.transposed_foldl hmove fun _ => window_end_le
    exact ⟨hmoved.trans ⟨rfl, fun _ _ hs => hs⟩, fun _ => rfl⟩

theorem State.Transposed.leads (h : s.Transposed len t) (hlen : s.Sound → len ≤ s.cfg.dataBytes) : s.Leads t := by
  have hfits (hs : s.Sound) : t.data.Fits s.cfg.dataBytes := h.fits _ (hlen hs) hs.data_fits
  rw [h.frame]
  exact ⟨rfl, fun hs => { hs with data_fits := hfits hs },
    fun hs => { hs with data_fits := hfits hs.toSound }⟩

theorem transpose_leads (hmove : MovesWindows move) (hlen : s.Sound → len ≤ s.cfg.dataBytes) :
    (transpose move stride block len s).Ends s.Leads s.Leads :=
  (transpose_ends hmove stride block len s).mono (fun _ ht => ht.1.leads hlen) (fun _ ht => ht ▸ .refl s)

end

end Sys2Proof.Machine
end

section
/-! What the packer keeps (40_bitstream.md R131 to R134). -/

namespace Sys2Proof.Machine

section
variable {s t : State} {v w n acc fill : Nat}

theorem emitWord_sound (h : s.Sound) (ht : emitWord w s = .ok t) : t.Sound := by
  have hspos := emitWord_spos ht
  obtain ⟨hroom, rfl⟩ := emitWord_eq_ok.mp ht
  exact { h with
    stream_fits := h.stream_fits.writeAll hroom
    spos_cap := hspos.trans_le hroom }

theorem emitWord_bitlen (ht : emitWord w s = .ok t) : t.bitlen = s.bitlen := by
  obtain ⟨-, rfl⟩ := emitWord_eq_ok.mp ht
  rfl

theorem State.Sound.setPacker (h : s.Sound) (hacc : acc < 2 ^ fill) (hfill : fill < 32) (n : Nat) :
    (s.setPacker acc fill n).Sound :=
  { h with
    acc_below := by
      simp only [State.setPacker, BitVec.toNat_ofNat, Nat.mod_eq_of_lt (show fill < 2 ^ 5 from hfill)]
      exact (Nat.mod_le _ _).trans_lt hacc }

/-- Bits appended to the accumulator stay below `2^FILL` (10_state.md R31). -/
theorem append_bits_lt (hacc : acc < 2 ^ fill) (v n : Nat) : acc * 2 ^ n + v % 2 ^ n < 2 ^ (fill + n) :=
  calc acc * 2 ^ n + v % 2 ^ n
      < acc * 2 ^ n + 2 ^ n := Nat.add_lt_add_left (Nat.mod_lt _ (Nat.two_pow_pos n)) _
    _ = (acc + 1) * 2 ^ n := (Nat.succ_mul _ _).symm
    _ ≤ 2 ^ fill * 2 ^ n := Nat.mul_le_mul_right _ hacc
    _ = 2 ^ (fill + n) := (Nat.pow_add _ _ _).symm

theorem bsWrite_sound (hn : n ≤ 32) (h : s.Sound) (ht : bsWrite v n s = .ok t) : t.Sound := by
  by_cases hroom : s.fill.toNat + n < 32
  · rw [bsWrite_room hroom] at ht
    injection ht with ht; subst ht
    exact h.setPacker (append_bits_lt h.acc_below v n) hroom n
  · rw [bsWrite_full (Nat.not_lt.mp hroom)] at ht
    obtain ⟨u, hu, ht⟩ := Res.andThen_eq_ok.mp ht
    injection ht with ht; subst ht
    have hfill := s.fill.isLt
    exact (emitWord_sound h hu).setPacker (Nat.mod_lt _ (Nat.two_pow_pos _)) (by omega) n

/-- Both branches of `bs_write` move `8 * SPOS + FILL` on by `n`, the second by a word less the bits that filled it. -/
theorem bsWrite_packing (hn : n ≤ 32) (h : s.Packing) (ht : bsWrite v n s = .ok t) : t.Packing := by
  suffices hs : t.spos.toNat % 4 = 0 ∧ t.bitlen.toNat = 8 * t.spos.toNat + t.fill.toNat from
    ⟨bsWrite_sound hn h.toSound ht, hs.1, hs.2⟩
  have hfill := s.fill.isLt
  have hspos := s.spos.isLt
  have haligned := h.aligned
  have hcounted := h.counted
  by_cases hroom : s.fill.toNat + n < 32
  · rw [bsWrite_room hroom] at ht
    injection ht with ht; subst ht
    simp only [State.setPacker, BitVec.toNat_add, BitVec.toNat_ofNat]
    omega
  · rw [bsWrite_full (Nat.not_lt.mp hroom)] at ht
    obtain ⟨u, hu, ht⟩ := Res.andThen_eq_ok.mp ht
    injection ht with ht; subst ht
    have huspos := emitWord_spos hu
    have hubitlen := emitWord_bitlen hu
    simp only [State.setPacker, BitVec.toNat_add, BitVec.toNat_ofNat, hubitlen, huspos]
    omega

theorem bsWrite_ends (v : Nat) (hn : n ≤ 32) (s : State) :
    (bsWrite v n s).Ends (fun t => s.Leads t ∧ t.enc = s.enc) s.Leads := by
  cases h : bsWrite v n s with
  | ok t =>
    have hframe := bsWrite_frame h
    have hleads : s.Leads t :=
      ⟨(congrArg State.fixedPart hframe :), fun hs => bsWrite_sound hn hs h, fun hs => bsWrite_packing hn hs h⟩
    exact ⟨hleads, (congrArg State.enc hframe :)⟩
  | raise c t =>
    obtain ⟨-, rfl, -⟩ := bsWrite_raise h
    exact .refl t
  | refuse e => trivial

theorem bsWinit_packing (h : s.Sound) : (bsWinit s).Packing where
  no_fault := h.no_fault
  no_cause := h.no_cause
  data_fits := h.data_fits
  stream_fits := Memory.fits_nil
  dlen_cap := h.dlen_cap
  slen_cap := Nat.zero_le _
  spos_cap := Nat.zero_le _
  acc_below := Nat.one_pos
  count_cap := h.count_cap
  aligned := rfl
  counted := rfl

theorem State.leads_bsWinit (s : State) : s.Leads (bsWinit s) :=
  ⟨rfl, fun h => (bsWinit_packing h).toSound, fun h => bsWinit_packing h.toSound⟩

/-- A written length takes values away, and adds none. -/
theorem State.setDlen_fits {cap : Nat} (h : s.data.Fits cap) (n : Nat) : (s.setDlen n).data.Fits cap := by
  rw [State.setDlen_data]
  split
  · exact h.filter _
  · exact h

theorem State.setSlen_fits {cap : Nat} (h : s.stream.Fits cap) (n : Nat) : (s.setSlen n).stream.Fits cap := by
  rw [State.setSlen_stream]
  split
  · exact h.filter _
  · exact h

/-- `SLEN` set to the packer position: what `bs_flush` ends with (R134). -/
theorem State.Sound.setSlen_spos (h : s.Sound) : (s.setSlen s.spos.toNat).Sound :=
  { h with
    stream_fits := State.setSlen_fits h.stream_fits _
    slen_cap := (Nat.mod_le _ _).trans h.spos_cap }

theorem State.Sound.trimPad (h : s.Sound) (pad : Nat) : (s.trimPad pad).Sound :=
  { h with
    stream_fits := h.stream_fits.filter _
    spos_cap := (Nat.mod_le _ _).trans ((Nat.sub_le _ _).trans h.spos_cap)
    acc_below := Nat.one_pos }

/-- The state after the last word, stored in `u` with `f` bits pending, is trimmed and `SLEN` set (R134). -/
def State.flushed (u : State) (f : Nat) : State :=
  (u.trimPad ((32 - f) / 8)).setSlen (u.trimPad ((32 - f) / 8)).spos.toNat

/-- Everything `bs_flush` can do: it only sets `SLEN`, or stores the last word, or raises before it stores anything. -/
theorem bsFlush_cases (s : State) :
    (s.fill = 0 ∧ bsFlush s = .ok (s.setSlen s.spos.toNat)) ∨
    (∃ w u, emitWord w s = .ok u ∧ bsFlush s = .ok (u.flushed s.fill.toNat)) ∨
    ∃ c, bsFlush s = .raise c s := by
  by_cases hpending : 0 < s.fill.toNat
  · right
    have hflush := bsFlush_pending hpending
    cases hw : emitWord (s.acc.toNat * 2 ^ (32 - s.fill.toNat)) s with
    | ok u =>
      rw [hw] at hflush
      exact .inl ⟨_, u, hw, hflush⟩
    | raise c u =>
      rw [hw] at hflush
      obtain ⟨-, -, rfl⟩ := emitWord_eq_raise.mp hw
      exact .inr ⟨c, hflush⟩
    | refuse e => exact absurd hw (emitWord_ne_refuse _ s e)
  · have hfill : s.fill = 0 := BitVec.eq_of_toNat_eq (Nat.eq_zero_of_not_pos hpending)
    exact .inl ⟨hfill, bsFlush_empty hfill⟩

/-- The last word is stored and trimmed: of its 4 bytes those that hold one of the `FILL` bits stay (R134). -/
theorem bsFlush_flushed (h : s.Packing) (ht : bsFlush s = .ok t) : t.Flushed := by
  have hcounted := h.counted
  rcases bsFlush_cases s with ⟨hfill, hflush⟩ | ⟨w, u, hu, hflush⟩ | ⟨c, hflush⟩
  · obtain rfl := Res.ok.inj (hflush.symm.trans ht)
    have hempty : s.fill.toNat = 0 := congrArg BitVec.toNat hfill
    refine ⟨h.toSound.setSlen_spos, hfill, ?_⟩
    rw [State.setSlen_spos, State.setSlen_bitlen]
    omega
  · obtain rfl := Res.ok.inj (hflush.symm.trans ht)
    refine ⟨((emitWord_sound h.toSound hu).trimPad _).setSlen_spos, rfl, ?_⟩
    have huspos := emitWord_spos hu
    have hubitlen := emitWord_bitlen hu
    have hlt := u.spos.isLt
    have hfill := s.fill.isLt
    simp only [State.flushed, State.setSlen_spos, State.setSlen_bitlen, State.trimPad, BitVec.toNat_ofNat, hubitlen]
    omega
  · cases hflush.symm.trans ht

/-- What `bs_flush` can change. -/
theorem bsFlush_frame (ht : bsFlush s = .ok t) :
    t = { s with acc := t.acc, fill := t.fill, spos := t.spos, stream := t.stream, slen := t.slen } := by
  rcases bsFlush_cases s with ⟨-, hflush⟩ | ⟨w, u, hu, hflush⟩ | ⟨c, hflush⟩
  · obtain rfl := Res.ok.inj (hflush.symm.trans ht)
    rfl
  · obtain ⟨-, rfl⟩ := emitWord_eq_ok.mp hu
    obtain rfl := Res.ok.inj (hflush.symm.trans ht)
    rfl
  · cases hflush.symm.trans ht

theorem bsFlush_ends (s : State) : (bsFlush s).Ends (fun u => bsFlush s = .ok u) (fun u => u = s) := by
  rcases bsFlush_cases s with ⟨-, h⟩ | ⟨w, u, -, h⟩ | ⟨c, h⟩ <;> rw [h]
  · exact rfl
  · exact rfl
  · exact rfl

end

end Sys2Proof.Machine
end

section
/-! What the lines of ENC keep (42_encode.md R180 to R191). -/

namespace Sys2Proof.Machine

/-- The encoder's run widths are widths of values, at most 8 bits (30_encoding.md R103). -/
def EncRegs.WidthsOk (regs : EncRegs) : Prop := regs.bits1 ≤ 8 ∧ regs.bits2 ≤ 8

theorem leastWidth_le (v : Int) (k b : Nat) : leastWidth v k b ≤ b + k := by
  induction k generalizing b with
  | zero => exact Nat.le_refl b
  | succ k ih =>
    rw [leastWidth]
    split
    · exact Nat.le_add_right b (k + 1)
    · exact (ih (b + 1)).trans_eq (by omega)

theorem norm_le {b : Nat} (h : b ≤ 8) : norm b ≤ 8 := by
  unfold norm codeWidth code
  split <;> split <;> omega

theorem norm_width_le (v : Int) : norm (width v) ≤ 8 := norm_le (leastWidth_le v 8 0)

/-- A part of ENC started in `s` leads from `s` to where it ends, and where it completes, `P` holds of its working
registers. -/
def Res.EncodesFrom (s : State) (r : Res) (P : EncRegs → Prop) : Prop :=
  r.Ends (fun u => s.Leads u ∧ P u.enc) s.Leads

section
variable {s : State} {P Q : EncRegs → Prop}

theorem Res.EncodesFrom.of_leads {r : Res} {u : State} (hu : s.Leads u) (h : r.EncodesFrom u P) :
    r.EncodesFrom s P :=
  Res.Ends.mono h (fun _ ⟨hv, hp⟩ => ⟨hu.trans hv, hp⟩) (fun _ hv => hu.trans hv)

theorem Res.EncodesFrom.andThen {r : Res} {f : State → Res} (h : r.EncodesFrom s P)
    (hf : ∀ u, P u.enc → (f u).EncodesFrom u Q) : (r.andThen f).EncodesFrom s Q :=
  Res.Ends.andThen h fun u ⟨hu, henc⟩ =>
    (hf u henc).of_leads hu

theorem Res.EncodesFrom.mono {r : Res} (h : r.EncodesFrom s P) (hPQ : ∀ regs, P regs → Q regs) :
    r.EncodesFrom s Q :=
  Res.Ends.mono h (fun _ ⟨hu, hp⟩ => ⟨hu, hPQ _ hp⟩) (fun _ => id)

/-- A line that only sets the working registers. -/
theorem Res.encodesFrom_enc (regs : EncRegs) (h : P regs) : (Res.ok { s with enc := regs }).EncodesFrom s P :=
  ⟨s.leads_enc regs, h⟩

theorem bsWrite_encodes (v : Nat) {n : Nat} (hn : n ≤ 32) (s : State) :
    (bsWrite v n s).EncodesFrom s (· = s.enc) := bsWrite_ends v hn s

variable (t : Nat)

theorem writeValues_encodes {width : Nat} (hwidth : width ≤ 8) (count q : Nat) (s : State) :
    (writeValues t width count q s).EncodesFrom s (· = s.enc) := by
  induction count generalizing q s with
  | zero => exact ⟨.refl s, rfl⟩
  | succ count ih =>
    unfold writeValues
    cases resid s.data q t with
    | error e => trivial
    | ok r => exact (bsWrite_encodes _ (by omega) s).andThen fun u hu => hu ▸ ih (q + 1) u

theorem flushPending_encodes (h : s.enc.WidthsOk) : (flushPending t s).EncodesFrom s EncRegs.WidthsOk := by
  have hcount := bsWrite_encodes s.enc.cnt2 (show 7 ≤ 32 by decide) s
  have hcode := hcount.andThen (Q := (· = s.enc)) fun u hu =>
    hu ▸ bsWrite_encodes (code s.enc.bits2) (show 3 ≤ 32 by decide) u
  have hvalues := hcode.andThen (Q := (· = s.enc)) fun u hu =>
    hu ▸ writeValues_encodes t h.2 s.enc.cnt2 s.enc.e u
  exact hvalues.andThen fun u hu => Res.encodesFrom_enc _ (hu.symm ▸ h)

theorem closeCurrent_encodes (h : s.enc.WidthsOk) : (closeCurrent t s).EncodesFrom s EncRegs.WidthsOk := by
  unfold closeCurrent
  split
  · exact Res.encodesFrom_enc _ ⟨h.1, max_le h.1 h.2⟩
  · exact (flushPending_encodes t h).andThen fun u hu => Res.encodesFrom_enc _ ⟨hu.1, hu.1⟩

/-- One more residual starts a run, lengthens it, or closes it and starts the next one (R186). -/
theorem scanStep_encodes (h : s.enc.WidthsOk) : (scanStep t s).EncodesFrom s EncRegs.WidthsOk := by
  unfold scanStep
  cases resid s.data s.enc.i t with
  | error e => trivial
  | ok r =>
    have hnew (u : State) (c : Nat) (hu : u.enc.WidthsOk) :
        (Res.ok (u.setCurrent c (norm (width r)))).EncodesFrom u EncRegs.WidthsOk :=
      Res.encodesFrom_enc _ ⟨norm_width_le r, hu.2⟩
    have hscanned : s.scanned.enc.WidthsOk := h
    refine Res.EncodesFrom.of_leads (s.leads_enc _ : s.Leads s.scanned) ?_
    dsimp only
    split
    · exact hnew s.scanned 1 hscanned
    · split
      · exact hnew s.scanned _ hscanned
      · exact (closeCurrent_encodes t hscanned).andThen fun u hu => hnew u 1 hu

theorem scan_encodes (k : Nat) (h : s.enc.WidthsOk) : (scan t k s).EncodesFrom s EncRegs.WidthsOk := by
  induction k generalizing s with
  | zero => exact ⟨.refl s, h⟩
  | succ k ih => exact (scanStep_encodes t h).andThen fun _ hu => ih hu

theorem flushRest_encodes (h : s.enc.WidthsOk) : (flushRest t s).EncodesFrom s EncRegs.WidthsOk := by
  unfold flushRest
  split
  · exact ⟨.refl s, h⟩
  · exact flushPending_encodes t h

/-- Steps 2 to 4 of ENC, from the opened packer on. -/
theorem encodeBody_encodes (stride len : Nat) (s : State) :
    (encodeBody stride t len s).EncodesFrom (bsWinit s) EncRegs.WidthsOk := by
  have hskip := bsWrite_encodes (stride - 1) (show 2 ≤ 32 by decide) (bsWinit s)
  have hstrip := hskip.andThen (Q := fun _ => True) fun u _ =>
    (bsWrite_encodes (t - 1) (show 16 ≤ 32 by decide) u).mono fun _ _ => trivial
  have hopen := hstrip.andThen (Q := EncRegs.WidthsOk) fun u _ =>
    Res.encodesFrom_enc {} ⟨Nat.zero_le 8, Nat.zero_le 8⟩
  have hscan := hopen.andThen fun u hu => scan_encodes t len hu
  have hclose := hscan.andThen fun u hu => closeCurrent_encodes t hu
  exact hclose.andThen fun u hu => flushRest_encodes t hu

end

end Sys2Proof.Machine
end

section
/-! What the lines of DEC keep, and that its loop ends (43_decode.md R220 to R227;
45_arithmetic_control_access.md R264). -/

namespace Sys2Proof.Machine

/-- The decoder has read on from `s` to `t` inside one token. -/
structure State.Decodes (s t : State) : Prop extends State.Leads s t where
  slen : t.slen = s.slen
  rpos_le : s.rpos ≤ t.rpos
  phase : t.phase = s.phase

/-- A fault has been raised in a state to which lines of a command started in `s` lead. -/
def State.RaisedFrom (s : State) (site : RaisedIn) (t : State) : Prop :=
  ∃ c u, s.Leads u ∧ u.raise c site = t

section
variable {s t u : State} {bits n : Nat}

theorem State.Decodes.refl (s : State) : s.Decodes s := ⟨.refl s, rfl, Nat.le_refl _, rfl⟩

theorem State.Decodes.trans (h : s.Decodes t) (h' : t.Decodes u) : s.Decodes u :=
  ⟨h.toLeads.trans h'.toLeads, h'.slen.trans h.slen, h.rpos_le.trans h'.rpos_le, h'.phase.trans h.phase⟩

theorem State.RaisedFrom.of_leads {site : RaisedIn} (hs : s.Leads t) (h : t.RaisedFrom site u) :
    s.RaisedFrom site u := by
  obtain ⟨c, v, hv, hu⟩ := h
  exact ⟨c, v, hs.trans hv, hu⟩

theorem State.decodes_consume (s : State) (n : Nat) : s.Decodes (consume n s) :=
  ⟨s.leads_consume n, rfl, Nat.le_add_right _ _, rfl⟩

theorem Res.Ends.decodes_andThen {r : Res} {f : State → Res} (h : r.Ends s.Decodes s.Leads)
    (hf : ∀ u, (f u).Ends u.Decodes u.Leads) : (r.andThen f).Ends s.Decodes s.Leads :=
  h.andThen fun u hu => (hf u).mono (fun _ hv => hu.trans hv) (fun _ hv => hu.toLeads.trans hv)

/-- A checked read of `n` bits: where no fault is raised, it stayed inside the stream (R227). -/
theorem checkedRead_ends (n : Nat) (s : State) :
    (checkUnderrun (consume n s)).Ends (fun t => t = consume n s ∧ runsOff s.rpos n s.slen.toNat = false)
      s.Leads := by
  cases h : checkUnderrun (consume n s) with
  | ok t =>
    obtain ⟨hunder, rfl⟩ := checkUnderrun_eq_ok.mp h
    exact ⟨rfl, (Bool.or_eq_false_iff.mp hunder).2⟩
  | raise c t =>
    obtain ⟨-, -, rfl⟩ := checkUnderrun_eq_raise.mp h
    exact s.leads_consume n
  | refuse e => trivial

theorem expandValue_ends (u : Nat) (s : State) : (expandValue u s).Ends s.Decodes s.Leads := by
  rcases expandValue_cases u s with ⟨-, h⟩ | ⟨-, e, -, h⟩ | ⟨hroom, g, -, h⟩
  · rw [h]; exact .refl s
  · rw [h]; trivial
  · rw [h]; exact ⟨s.leads_append _ hroom, rfl, Nat.le_refl _, rfl⟩

theorem expandValues_ends (us : List Nat) (s : State) : (expandValues us s).Ends s.Decodes s.Leads := by
  induction us generalizing s with
  | nil => exact .refl s
  | cons u us ih =>
    have hread : (checkUnderrun (consume s.dec.bits s)).Ends s.Decodes s.Leads :=
      (checkedRead_ends s.dec.bits s).mono (fun t ht => ht.1 ▸ s.decodes_consume _) (fun _ => id)
    exact (hread.decodes_andThen (expandValue_ends u)).decodes_andThen ih

/-- The count and the code of a token: both lie inside the stream, or the token raises. -/
theorem tokenHead_ends (s : State) :
    ((checkUnderrun (consume 7 s)).andThen fun t => checkUnderrun (consume 3 t)).Ends
      (fun u => u = consume 3 (consume 7 s) ∧ s.rpos + 10 ≤ 8 * s.slen.toNat) s.Leads := by
  refine (checkedRead_ends 7 s).andThen fun u hu => ?_
  obtain ⟨rfl, -⟩ := hu
  refine (checkedRead_ends 3 (consume 7 s)).mono (fun v hv => ⟨hv.1, ?_⟩) fun v hv => (s.leads_consume 7).trans hv
  have hinside : runsOff (s.rpos + 7) 3 s.slen.toNat = false := hv.2
  simp only [runsOff, Bool.and_eq_false_iff, decide_eq_false_iff_not] at hinside
  omega

/-- A RUN token takes at least its count and its code off the stream, both inside it, or it raises. -/
theorem runToken_next {us : List Nat} (h : runToken bits us s = .next t) :
    (s.Decodes t ∧ s.rpos + 10 ≤ 8 * s.slen.toNat ∧ s.rpos + 10 ≤ t.rpos) ∨ s.RaisedFrom .decoder t := by
  have hstart : s.Decodes ((consume 3 (consume 7 s)).startToken us.length bits) :=
    ((s.decodes_consume 7).trans ((consume 7 s).decodes_consume 3)).trans
      ⟨State.leads_startToken _ _ _, rfl, Nat.le_refl _, rfl⟩
  have hbody := (tokenHead_ends s).andThen
    (f := fun u => expandValues us (u.startToken us.length bits))
    (Q := fun v => s.Decodes v ∧ s.rpos + 10 ≤ 8 * s.slen.toNat ∧ s.rpos + 10 ≤ v.rpos)
    (by
      rintro u ⟨rfl, hinside⟩
      exact (expandValues_ends us _).mono (fun v hv => ⟨hstart.trans hv, hinside, hv.rpos_le⟩)
        fun v hv => hstart.toLeads.trans hv)
  exact hbody.of_answer h

theorem execHdr_next {skipm1 : BitVec 2} {stripm1 : BitVec 16} (h : execHdr skipm1 stripm1 s = .next t) :
    (s.Leads t ∧ t.phase = .tokens ∧ t.slen = s.slen) ∨ s.RaisedFrom .decoder t := by
  have hread : s.Leads (consume 16 (consume 2 s)) := (s.leads_consume 2).trans ((consume 2 s).leads_consume 16)
  have hbody := ((checkedRead_ends 16 (consume 2 s)).mono (fun _ => id)
      fun v hv => (s.leads_consume 2).trans hv).andThen
    (f := fun u => .ok (u.openTokens skipm1 stripm1))
    (Q := fun v => s.Leads v ∧ v.phase = .tokens ∧ v.slen = s.slen)
    (by
      rintro u ⟨rfl, -⟩
      exact ⟨hread.trans (State.leads_openTokens _ _ _), rfl, rfl⟩)
  exact hbody.of_answer h

theorem leads_execEndMark (h : execEndMark s = .next t) : s.Leads t ∧ t.phase = .finish := by
  injection h with h
  subst h
  exact ⟨(s.leads_consume 7).trans (State.leads_phase _ _), rfl⟩

/-- What the token decoder reads is an END or a RUN token (30_encoding.md R99, R108). -/
theorem decodeToken_meaning {bs rest : List Bool} {el : StreamElement} (h : decodeToken bs = .ok (el, rest)) :
    el = .endMark ∨ ∃ bits us, ∀ s, execElement el s = runToken bits us s := by
  have values {k : Nat} {count : Nat} {bs : List Bool} {run : List (BitVec k) → StreamElement}
      (h : decodeValues count bs run = .ok (el, rest)) : ∃ vs, el = run vs := by
    unfold decodeValues at h
    split at h <;> cases h
    exact ⟨_, rfl⟩
  unfold decodeToken at h
  split at h
  · cases h
  · split at h
    · cases h; exact .inl rfl
    · split at h
      · cases h
      · right
        unfold Sys2Proof.decodeRun at h
        split at h
        · cases h; exact ⟨_, _, fun _ => rfl⟩
        all_goals obtain ⟨vs, rfl⟩ := values h; exact ⟨_, _, fun _ => rfl⟩

theorem fetchHeader_found {el : StreamElement} (h : fetchHeader s = .found el) :
    ∃ skipm1 stripm1, el = .hdr skipm1 stripm1 := by
  unfold fetchHeader at h
  split at h
  · cases h
  · unfold decodeHeader at h
    split at h
    · cases h
    · split at h <;> cases h
      exact ⟨_, _, rfl⟩

theorem Element.ofDecode_found {r : Except DecodeError (StreamElement × List Bool)} {el : StreamElement}
    (h : Element.ofDecode r = .found el) : ∃ rest, r = .ok (el, rest) := by
  unfold Element.ofDecode at h
  split at h <;> cases h
  exact ⟨_, rfl⟩

theorem fetchToken_found {el : StreamElement} (h : fetchToken s = .found el) :
    el = .endMark ∨ ∃ bits us, ∀ s, execElement el s = runToken bits us s := by
  unfold fetchToken at h
  split at h
  · cases h
  · split at h
    · cases h; exact .inl rfl
    · split at h
      · cases h
      · unfold fetchRun at h
        split at h
        · cases h
        · obtain ⟨rest, hrest⟩ := Element.ofDecode_found h
          exact decodeToken_meaning hrest

/-- At least the turns that a DEC still takes: every token takes bits off the stream, and the END and the last lines are
a turn each. -/
def turnsLeft (s : State) : Nat :=
  match s.phase with
  | .idle => 0
  | .header => 8 * s.slen.toNat + 4
  | .tokens => 8 * s.slen.toNat - s.rpos + 3
  | .finish => 1

/-- How a DEC started in `s` ends: with its last lines, or with a fault. -/
def State.DecodeEnds (s t : State) : Prop := (∃ u, s.Leads u ∧ u.endDecode = t) ∨ s.RaisedFrom .decoder t

theorem State.DecodeEnds.idle (h : s.DecodeEnds t) : t.phase = .idle := by
  rcases h with ⟨u, -, rfl⟩ | ⟨c, u, -, rfl⟩
  · rfl
  · exact State.raise_phase u c .decoder

theorem finishDecode_next (h : finishDecode s = .next t) : s.DecodeEnds t := by
  have hmove : (reint s.dec.hs s.block.toNat s.dec.n s).Ends s.Leads s.Leads :=
    transpose_leads reintWindow_moves fun hs => hs.count_cap
  have hbody := hmove.andThen (f := fun u => .ok u.endDecode) (Q := fun v => ∃ u, s.Leads u ∧ u.endDecode = v)
    fun u hu => ⟨u, hu, rfl⟩
  exact hbody.of_answer h

/-- A turn ends the DEC, or leads on with fewer turns left. -/
theorem decodeStep_next (hphase : s.phase ≠ .idle) (h : decodeStep s = .next t) :
    s.DecodeEnds t ∨ (s.Leads t ∧ t.phase ≠ .idle ∧ turnsLeft t < turnsLeft s) := by
  unfold decodeStep at h
  cases hp : s.phase with
  | idle => exact absurd hp hphase
  | header =>
    simp only [hp] at h
    cases hf : fetchHeader s with
    | refused e => rw [hf] at h; cases h
    | cutShort => exact absurd hf (fetchHeader_ne_cutShort s)
    | found el =>
      obtain ⟨skipm1, stripm1, rfl⟩ := fetchHeader_found hf
      rw [hf] at h
      rcases execHdr_next h with ⟨hlead, htp, hslen⟩ | hraised
      · refine .inr ⟨hlead, by simp [htp], ?_⟩
        simp only [turnsLeft, hp, htp, hslen]
        omega
      · exact .inl (.inr hraised)
  | tokens =>
    simp only [hp] at h
    cases hf : fetchToken s with
    | refused e => rw [hf] at h; cases h
    | cutShort =>
      rw [hf] at h
      injection h with h
      exact .inl (.inr ⟨_, s, .refl s, h⟩)
    | found el =>
      rw [hf] at h
      rcases fetchToken_found hf with rfl | ⟨bits, us, hrun⟩
      · obtain ⟨hlead, htp⟩ := leads_execEndMark h
        refine .inr ⟨hlead, by simp [htp], ?_⟩
        simp only [turnsLeft, hp, htp]
        omega
      · rcases runToken_next ((hrun s).symm.trans h) with ⟨hdec, hinside, hrpos⟩ | hraised
        · refine .inr ⟨hdec.toLeads, by simp [hdec.phase, hp], ?_⟩
          simp only [turnsLeft, hdec.phase, hp, hdec.slen]
          omega
        · exact .inl (.inr hraised)
  | finish =>
    simp only [hp] at h
    exact .inl (finishDecode_next h)

/-- The loop is over before its bound is (log 13). -/
theorem decodeRun_next_ends {k : Nat} (hphase : s.phase ≠ .idle) (hk : turnsLeft s ≤ k)
    (h : Machine.decodeRun k s = .next t) : s.DecodeEnds t := by
  induction k generalizing s with
  | zero =>
    cases hp : s.phase <;> simp only [turnsLeft, hp] at hk
    · exact absurd hp hphase
    all_goals omega
  | succ k ih =>
    cases hstep : decodeStep s with
    | fault e => simp [Machine.decodeRun, hphase, hstep] at h
    | refused e => rw [decodeRun_refused hphase hstep] at h; cases h
    | next u =>
      rw [decodeRun_next hphase hstep] at h
      rcases decodeStep_next hphase hstep with hends | ⟨hlead, hup, hturns⟩
      · rw [decodeRun_idle hends.idle] at h
        injection h with h
        exact h ▸ hends
      · rcases ih hup (by omega) h with ⟨v, hv, ht⟩ | hraised
        · exact .inl ⟨v, hlead.trans hv, ht⟩
        · exact .inr (hraised.of_leads hlead)

end

end Sys2Proof.Machine
end

section
/-! How each host command ends: dropped at the fault gate, completed, or with a fault raised on the way. -/

namespace Sys2Proof.Machine

/-- How a gated command ends; `done` is what its completion says. -/
inductive State.CommandEnds (s t : State) (done : Prop) : Prop
  | dropped (hfault : s.fault = true) (ht : s = t)
  | completed (hfault : s.fault = false) (hdone : done)
  | raised (hfault : s.fault = false) (site : RaisedIn) (hraised : s.RaisedFrom site t)

section
variable {s t u : State} {P : State → Prop}

theorem commandEnds_of_gate {body : Result} {done : Prop} (h : gate s body = .next t)
    (hbody : body = .next t → done ∨ ∃ site, s.RaisedFrom site t) : s.CommandEnds t done := by
  rcases gate_eq_next.mp h with ⟨hfault, ht⟩ | ⟨hfault, h⟩
  · exact .dropped hfault ht
  · rcases hbody h with hdone | ⟨site, hraised⟩
    · exact .completed hfault hdone
    · exact .raised hfault site hraised

theorem Res.Ends.commandEnds {r : Res} {site : RaisedIn} (hr : r.Ends P s.Leads)
    (h : gate s (r.answer site) = .next t) : s.CommandEnds t (P t) :=
  commandEnds_of_gate h fun h => (hr.of_answer h).imp_right fun hraised => ⟨site, hraised⟩

theorem execWinit_ends (h : exec .winit s = .next t) : s.CommandEnds t ({ bsWinit s with bsmode := .write } = t) :=
  commandEnds_of_gate h fun h => .inl (Host.Outcome.next.inj h)

theorem execRinit_ends (h : exec .rinit s = .next t) : s.CommandEnds t ({ bsRinit s with bsmode := .read } = t) :=
  commandEnds_of_gate h fun h => .inl (Host.Outcome.next.inj h)

theorem execWbits_ends {n : BitVec 8} {imm : BitVec 32} (h : exec (.wbits n imm) s = .next t) :
    s.CommandEnds t (s.bsmode = .write ∧ n.toNat ≤ 32 ∧ bsWrite imm.toNat n.toNat s = .ok t) := by
  have hbody : (bsWrite imm.toNat n.toNat s).Ends (fun u => bsWrite imm.toNat n.toNat s = .ok u) s.Leads := by
    cases hw : bsWrite imm.toNat n.toNat s with
    | ok u => exact rfl
    | raise c u =>
      obtain ⟨-, rfl, -⟩ := bsWrite_raise hw
      exact .refl u
    | refuse e => trivial
  refine Res.Ends.commandEnds
    (P := fun u => s.bsmode = .write ∧ n.toNat ≤ 32 ∧ bsWrite imm.toNat n.toNat s = .ok u) ?_ h
  exact Res.ends_ite (fun _ => .refl s) fun hmode => Res.ends_ite (fun _ => .refl s) fun hn =>
    hbody.mono (fun _ hu => ⟨not_ne_iff.mp hmode, Nat.not_lt.mp hn, hu⟩) fun _ => id

theorem execWflush_ends (h : exec .wflush s = .next t) :
    s.CommandEnds t (s.bsmode = .write ∧ ∃ u, bsFlush s = .ok u ∧ { u with bsmode := .closed } = t) := by
  refine Res.Ends.commandEnds
    (P := fun v => s.bsmode = .write ∧ ∃ u, bsFlush s = .ok u ∧ { u with bsmode := .closed } = v) ?_ h
  refine Res.ends_ite (fun _ => .refl s) fun hmode => ?_
  exact ((bsFlush_ends s).mono (fun _ => id) fun _ hu => hu ▸ .refl s).andThen
    fun u hu => ⟨not_ne_iff.mp hmode, u, hu, rfl⟩

theorem execRbits_ends {n : BitVec 8} (h : exec (.rbits n) s = .next t) :
    s.CommandEnds t (n.toNat ≤ 32 ∧ ∃ bs, peekBits s n.toNat s.rpos = .ok bs ∧
      (consume n.toNat s).returnBits (ofBits bs) = t) := by
  refine Res.Ends.commandEnds (P := fun u => n.toNat ≤ 32 ∧ ∃ bs, peekBits s n.toNat s.rpos = .ok bs ∧
      (consume n.toNat s).returnBits (ofBits bs) = u) ?_ h
  refine Res.ends_ite (fun _ => .refl s) fun _ => Res.ends_ite (fun _ => .refl s) fun hn => ?_
  cases hr : bsRead n.toNat s with
  | error e => trivial
  | ok vt =>
    obtain ⟨v, u⟩ := vt
    obtain ⟨bs, hbs, rfl, rfl⟩ := bsRead_eq_ok.mp hr
    exact ⟨Nat.not_lt.mp hn, bs, hbs, rfl⟩

/-- DEINT and INT. -/
theorem execTranspose_ends {move : Nat → State → Nat × Nat → State} (hmove : MovesWindows move)
    (h : gate s (Res.answer (transpose move s.stride s.block.toNat s.dlen.toNat s) .transposer) = .next t) :
    s.CommandEnds t (s.Transposed s.dlen.toNat t ∧ (s.scratch = [] → t.scratch = [])) :=
  ((transpose_ends hmove s.stride s.block.toNat s.dlen.toNat s).mono (fun _ => id)
    fun _ hu => hu ▸ .refl s).commandEnds h

theorem execDeint_ends (h : exec .deint s = .next t) :
    s.CommandEnds t (s.Transposed s.dlen.toNat t ∧ (s.scratch = [] → t.scratch = [])) :=
  execTranspose_ends deintWindow_moves h

theorem execInt_ends (h : exec .int s = .next t) :
    s.CommandEnds t (s.Transposed s.dlen.toNat t ∧ (s.scratch = [] → t.scratch = [])) :=
  execTranspose_ends reintWindow_moves h

/-- ENC from its opened packer on: re-interleaved and flushed, it completes where the flush does (R180, R185). -/
theorem encodeRest_ends (s d : State) (hdlen : d.dlen = s.dlen) :
    (((encodeBody s.stride s.stripLen s.dlen.toNat d).andThen (reint s.stride s.block.toNat s.dlen.toNat)).andThen
      bsFlush).Ends (fun v => ∃ u, (bsWinit d).Leads u ∧ bsFlush u = .ok v) (bsWinit d).Leads := by
  have hbody : (encodeBody s.stride s.stripLen s.dlen.toNat d).Ends (bsWinit d).Leads (bsWinit d).Leads :=
    Res.Ends.mono (encodeBody_encodes s.stripLen s.stride s.dlen.toNat d) (fun _ hu => hu.1) fun _ => id
  have hreint (u : State) (hu : (bsWinit d).Leads u) :
      (reint s.stride s.block.toNat s.dlen.toNat u).Ends (bsWinit d).Leads (bsWinit d).Leads :=
    (transpose_leads reintWindow_moves fun hs => hdlen ▸ hu.dlen ▸ hs.dlen_cap).mono
      (fun _ hv => hu.trans hv) fun _ hv => hu.trans hv
  exact (hbody.andThen hreint).andThen fun u hu =>
    (bsFlush_ends u).mono (fun _ hv => ⟨u, hu, hv⟩) fun _ hv => hv ▸ hu

theorem execEnc_ends (h : exec .enc s = .next t) :
    s.CommandEnds t (∃ u v, s.Leads u ∧ (s.Sound → u.Packing) ∧ bsFlush u = .ok v ∧ v.endEncode = t) := by
  refine commandEnds_of_gate h fun h => ?_
  have hdeint : (deint s.stride s.block.toNat s.dlen.toNat s).Ends s.Leads s.Leads :=
    transpose_leads deintWindow_moves fun hs => hs.dlen_cap
  cases hd : deint s.stride s.block.toNat s.dlen.toNat s with
  | raise c u =>
    rw [hd] at hdeint h
    exact .inr ⟨_, c, u, hdeint, Host.Outcome.next.inj h⟩
  | refuse e => rw [hd] at h; cases h
  | ok d =>
    rw [hd] at hdeint h
    rw [Res.ok_ends] at hdeint
    have hopen : s.Leads (bsWinit d) := hdeint.trans d.leads_bsWinit
    have hrest := (encodeRest_ends s d hdeint.dlen).andThen (f := fun v => .ok v.endEncode)
      (Q := fun t => ∃ u v, (bsWinit d).Leads u ∧ bsFlush u = .ok v ∧ v.endEncode = t)
      fun v ⟨u, hu, hv⟩ => ⟨u, v, hu, hv, rfl⟩
    rcases hrest.of_answer h with ⟨u, v, hu, hv, ht⟩ | ⟨c, u, hu, ht⟩
    · exact .inl ⟨u, v, hopen.trans hu, fun hs => hu.packing (bsWinit_packing (hdeint.sound hs)), hv, ht⟩
    · exact .inr ⟨_, c, u, hopen.trans hu, ht⟩

theorem execDec_ends (h : exec .dec s = .next t) : s.CommandEnds t (∃ u, s.Leads u ∧ u.endDecode = t) := by
  refine commandEnds_of_gate h fun h => ?_
  have hphase : ({ bsRinit s with phase := .header } : State).phase ≠ .idle := by simp
  have hturns : turnsLeft { bsRinit s with phase := .header } ≤ decodeTurns s := Nat.le_refl _
  rcases decodeRun_next_ends hphase hturns h with ⟨u, hu, ht⟩ | hraised
  · exact .inl ⟨u, s.leads_openStream.trans hu, ht⟩
  · exact .inr ⟨_, hraised.of_leads s.leads_openStream⟩

/-- A register write with its check (R252): a parameter, or a length within the capacity. -/
inductive State.RegWritten (s t : State) : Prop
  | skip (v : BitVec 2) (ht : { s with skip := v } = t)
  | strip (v : BitVec 16) (ht : { s with strip := v } = t)
  | block (v : BitVec 32) (ht : { s with block := v } = t)
  | dlen (n : Nat) (hn : n ≤ s.cfg.dataBytes) (ht : s.setDlen n = t)
  | slen (n : Nat) (hn : n ≤ s.cfg.streamBytes) (ht : s.setSlen n = t)

theorem writeReg_ends (r : Reg) (imm : BitVec 32) (s : State) : (writeReg r imm s).Ends s.RegWritten s.Leads := by
  have hraise : s.Leads s := .refl s
  cases r
  case skip => exact Res.ends_ite (fun _ => hraise) fun _ => .skip _ rfl
  case strip => exact Res.ends_ite (fun _ => hraise) fun _ => .strip _ rfl
  case block => exact .block imm rfl
  case dlen => exact Res.ends_ite (fun _ => hraise) fun hn => .dlen _ (Nat.not_lt.mp hn) rfl
  case slen => exact Res.ends_ite (fun _ => hraise) fun hn => .slen _ (Nat.not_lt.mp hn) rfl
  all_goals exact hraise

theorem execWreg_ends {reg : BitVec 8} {imm : BitVec 32} (h : exec (.wreg reg imm) s = .next t) :
    s.CommandEnds t (s.RegWritten t) := by
  refine Res.Ends.commandEnds ?_ h
  cases Reg.ofAddr reg with
  | none => exact .refl s
  | some r => exact writeReg_ends r imm s

theorem execRreg_next {reg : BitVec 8} (h : exec (.rreg reg) s = .next t) :
    (∃ v, s.respond v = t) ∨ s.RaisedFrom .hostCommand t := by
  have hbody : (match Reg.ofAddr reg with
      | none => Res.raise .badOperand s
      | some r => .ok (s.respond (s.regValue r))).Ends (fun u => ∃ v, s.respond v = u) s.Leads := by
    cases Reg.ofAddr reg with
    | none => exact .refl s
    | some r => exact ⟨_, rfl⟩
  exact hbody.of_answer h

end

end Sys2Proof.Machine
end

section
/-! `BSMODE` and `RESULT` after every instruction (10_state.md R24, R34). -/

namespace Sys2Proof.Machine

/-- The table of R24: the mode that a completed instruction leaves. -/
def modeAfter (i : Instr) (mode : BsMode) : BsMode :=
  if i = .winit then .write
  else if i = .wflush ∨ i = .enc then .closed
  else if i = .rinit ∨ i = .dec then .read
  else mode

/-- How an instruction other than RESET ends, as far as its fault, its mode and its result show. -/
inductive ExecEnds (i : Instr) (s t : State) : Prop
  | dropped (hfault : s.fault = true) (ht : s = t)
  | raised (site : RaisedIn) (hraised : s.RaisedFrom site t)
  | completed (hfault : t.fault = s.fault) (hopen : s.fault = true → modeAfter i s.bsmode = s.bsmode)
      (hmode : t.bsmode = modeAfter i s.bsmode) (hresult : (∃ n, i = .rbits n) ∨ t.result = s.result)

section
variable {i : Instr} {s t : State}

theorem State.CommandEnds.execEnds {done : Prop} (h : s.CommandEnds t done)
    (hdone : done → t.fault = s.fault ∧ t.bsmode = modeAfter i s.bsmode ∧
      ((∃ n, i = .rbits n) ∨ t.result = s.result)) :
    ExecEnds i s t := by
  cases h with
  | dropped hfault ht => exact .dropped hfault ht
  | raised hfault site hraised => exact .raised site hraised
  | completed hfault h =>
    obtain ⟨hkept, hmode, hresult⟩ := hdone h
    exact .completed hkept (fun hlatched => by simp [hfault] at hlatched) hmode hresult

/-- An instruction without a fault gate whose row R24 does not have: it keeps the mode and the result, or raises. -/
theorem execEnds_of_kept {site : RaisedIn} (hi : ∀ mode, modeAfter i mode = mode)
    (h : (t.fault = s.fault ∧ t.bsmode = s.bsmode ∧ t.result = s.result) ∨ s.RaisedFrom site t) :
    ExecEnds i s t := by
  rcases h with ⟨hfault, hmode, hresult⟩ | h
  · exact .completed hfault (fun _ => hi _) (hmode.trans (hi _).symm) (.inr hresult)
  · exact .raised site h

theorem execEnds_of_leads {site : RaisedIn} (hi : ∀ mode, modeAfter i mode = mode)
    (h : s.Leads t ∨ s.RaisedFrom site t) : ExecEnds i s t :=
  execEnds_of_kept hi (h.imp_left fun h => ⟨h.fault, h.bsmode, h.result⟩)

theorem runToken_leads {bits : Nat} {us : List Nat} (h : runToken bits us s = .next t) :
    s.Leads t ∨ s.RaisedFrom .decoder t := (runToken_next h).imp_left fun h => h.1.toLeads

theorem exec_ends (h : exec i s = .next t) (hi : i ≠ .reset) : ExecEnds i s t := by
  cases i with
  | reset => exact absurd rfl hi
  | wreg reg imm =>
    refine (execWreg_ends h).execEnds fun hw => ?_
    cases hw <;> subst t <;> exact ⟨rfl, rfl, .inr rfl⟩
  | rreg reg =>
    refine execEnds_of_kept (fun _ => rfl) ((execRreg_next h).imp_left ?_)
    rintro ⟨v, rfl⟩
    exact ⟨rfl, rfl, rfl⟩
  | winit =>
    refine (execWinit_ends h).execEnds ?_
    rintro rfl
    exact ⟨rfl, rfl, .inr rfl⟩
  | wbits n imm =>
    refine (execWbits_ends h).execEnds ?_
    rintro ⟨-, -, hw⟩
    have hframe := bsWrite_frame hw
    rw [hframe]
    exact ⟨rfl, rfl, .inr rfl⟩
  | wflush =>
    refine (execWflush_ends h).execEnds ?_
    rintro ⟨-, u, hu, rfl⟩
    have hframe := bsFlush_frame hu
    rw [hframe]
    exact ⟨rfl, rfl, .inr rfl⟩
  | rinit =>
    refine (execRinit_ends h).execEnds ?_
    rintro rfl
    exact ⟨rfl, rfl, .inr rfl⟩
  | rbits n =>
    refine (execRbits_ends h).execEnds ?_
    rintro ⟨-, bs, -, rfl⟩
    exact ⟨rfl, rfl, .inl ⟨n, rfl⟩⟩
  | deint =>
    refine (execDeint_ends h).execEnds ?_
    rintro ⟨hmoved, -⟩
    rw [hmoved.frame]
    exact ⟨rfl, rfl, .inr rfl⟩
  | int =>
    refine (execInt_ends h).execEnds ?_
    rintro ⟨hmoved, -⟩
    rw [hmoved.frame]
    exact ⟨rfl, rfl, .inr rfl⟩
  | enc =>
    refine (execEnc_ends h).execEnds ?_
    rintro ⟨u, v, hu, -, hv, rfl⟩
    have hframe := bsFlush_frame hv
    rw [hframe]
    exact ⟨hu.fault, rfl, .inr hu.result⟩
  | dec =>
    refine (execDec_ends h).execEnds ?_
    rintro ⟨u, hu, rfl⟩
    exact ⟨hu.fault, rfl, .inr hu.result⟩
  | hdr a b => exact execEnds_of_leads (fun _ => rfl) ((execHdr_next h).imp_left And.left)
  | endMark => exact execEnds_of_leads (site := .decoder) (fun _ => rfl) (.inl (leads_execEndMark h).1)
  | runW0 _ | runW2 _ | runW3 _ | runW4 _ | runW5 _ | runW6 _ | runW7 _ | runW8 _ =>
    exact execEnds_of_leads (fun _ => rfl) (runToken_leads h)

end

/-- Settles O55: a raise and the fault gate follow R280 and R282, a completion the table of R24. -/
theorem bsmodeTransitions : Obligations.BsmodeTransitions := by
  intro i s t h
  by_cases hi : i = .reset
  · subst hi
    injection h with h
    subst h
    rfl
  · rw [if_neg hi]
    change t.bsmode = if s.fault then s.bsmode else if t.fault then .none else modeAfter i s.bsmode
    cases exec_ends h hi with
    | dropped hfault ht => rw [if_pos hfault, ht]
    | raised site hraised =>
      obtain ⟨c, u, hu, rfl⟩ := hraised
      rw [State.raise_bsmode, State.raise_fault, if_pos rfl, hu.fault, hu.bsmode]
    | completed hfault hopen hmode hresult =>
      rw [hmode, hfault]
      cases hs : s.fault
      · rfl
      · exact hopen hs

/-- The value of up to 32 stream bits is below `2^32`. -/
theorem ofBitsFrom_lt (acc : Nat) (bs : List Bool) : ofBitsFrom acc bs < (acc + 1) * 2 ^ bs.length := by
  induction bs generalizing acc with
  | nil => simp [ofBitsFrom]
  | cons b bs ih =>
    have hb : b.toNat ≤ 1 := Bool.toNat_le b
    calc ofBitsFrom acc (b :: bs)
        < (2 * acc + b.toNat + 1) * 2 ^ bs.length := ih _
      _ ≤ ((acc + 1) * 2) * 2 ^ bs.length := Nat.mul_le_mul_right _ (by omega)
      _ = (acc + 1) * 2 ^ (bs.length + 1) := by rw [Nat.pow_succ', Nat.mul_assoc]

theorem ofBits_lt (bs : List Bool) : ofBits bs < 2 ^ bs.length := by
  simpa [ofBits] using ofBitsFrom_lt 0 bs

/-- What RBITS returns is what it leaves in `RESULT` (R34, R144). -/
theorem returnBits_responses {v : Nat} (hv : v < 2 ^ 32) (s : State) :
    (s.returnBits v).responses = s.responses ++ [(s.returnBits v).result.setWidth 64] := by
  have hresult : (s.returnBits v).result.setWidth 64 = BitVec.ofNat 64 v := by
    apply BitVec.eq_of_toNat_eq
    rw [BitVec.toNat_setWidth]
    change v % 2 ^ 32 % 2 ^ 64 = v % 2 ^ 64
    rw [Nat.mod_eq_of_lt hv]
  rw [hresult]
  rfl

/-- Settles O56: RBITS by its three ends, every other instruction by `exec_ends`. -/
theorem resultHoldsTheLastBitsRead : Obligations.ResultHoldsTheLastBitsRead := by
  intro i s t h
  refine ⟨fun hi hn => ?_, ?_, ?_⟩
  · cases exec_ends h hi with
    | dropped hfault ht => rw [ht]
    | raised site hraised =>
      obtain ⟨c, u, hu, rfl⟩ := hraised
      exact (u.raise_result c site).trans hu.result
    | completed hfault hopen hmode hresult => exact hresult.resolve_left fun ⟨n, hin⟩ => hn n hin
  · rintro rfl
    injection h with h
    subst h
    rfl
  · rintro n rfl
    cases execRbits_ends h with
    | dropped hfault ht =>
      subst ht
      exact ⟨fun _ => rfl, fun hfresh => by simp [hfault] at hfresh⟩
    | raised hfault site hraised =>
      obtain ⟨c, u, hu, rfl⟩ := hraised
      exact ⟨fun _ => (u.raise_result c site).trans hu.result, fun hfresh => by simp at hfresh⟩
    | completed hfault hdone =>
      obtain ⟨hn, bs, hbs, rfl⟩ := hdone
      have hvalue : ofBits bs < 2 ^ 32 :=
        (ofBits_lt bs).trans_le (Nat.pow_le_pow_right (by decide) ((peekBits_eq_ok.mp hbs).1.trans_le hn))
      refine ⟨fun hlatched => ?_, fun _ => returnBits_responses hvalue _⟩
      rw [show ((consume n.toNat s).returnBits (ofBits bs)).fault = s.fault from rfl, hfault] at hlatched
      cases hlatched

end Sys2Proof.Machine
end

section
/-! The invariant between commands: it holds at reset, and every step keeps it. -/

namespace Sys2Proof.Machine

/-- No command is running (10_state.md R20; log 9, log 12). -/
structure State.Resting (s : State) : Prop where
  idle : s.phase = .idle
  enc_idle : s.enc = {}
  dec_idle : s.dec = {}
  scratch_empty : s.scratch = []

section
variable {s t u : State}

/-! ## In and out of the invariant -/

theorem State.endCommand_resting (s : State) : s.endCommand.Resting := ⟨rfl, rfl, rfl, rfl⟩

theorem State.Inv.resting (h : s.Inv) : s.Resting := ⟨h.idle, h.enc_idle, h.dec_idle, h.scratch_empty⟩

theorem State.Inv.sound (h : s.Inv) (hfault : s.fault = false) : s.Sound where
  no_fault := hfault
  no_cause := h.cause_zero.mp hfault
  data_fits := ⟨h.data_wf, h.data_below⟩
  stream_fits := ⟨h.stream_wf, h.stream_below⟩
  dlen_cap := h.dlen_cap
  slen_cap := h.slen_cap
  spos_cap := h.spos_cap
  acc_below := h.acc_below
  count_cap := by
    rw [h.dec_idle]
    exact Nat.zero_le _

theorem State.Inv.packing (h : s.Inv) (hfault : s.fault = false) (hmode : s.bsmode = .write) : s.Packing :=
  ⟨h.sound hfault, (h.session hmode).1, (h.session hmode).2⟩

/-- A command that ends without a fault keeps the invariant by its sound lines, and by the clause of the mode that it
ends in. -/
theorem State.Sound.inv (h : s.Sound) (hrest : s.Resting)
    (hsession : s.bsmode = .write → s.Packing) (hclosed : s.bsmode = .closed → s.Flushed) : s.Inv where
  data_wf := h.data_fits.wf
  stream_wf := h.stream_fits.wf
  data_below := h.data_fits.inside
  stream_below := h.stream_fits.inside
  idle := hrest.idle
  enc_idle := hrest.enc_idle
  dec_idle := hrest.dec_idle
  scratch_empty := hrest.scratch_empty
  cause_zero := iff_of_true h.no_fault h.no_cause
  cause_legal := by
    rw [h.no_cause]
    decide
  fault_mode hfault := by simp [h.no_fault] at hfault
  dlen_cap := h.dlen_cap
  slen_cap := h.slen_cap
  spos_cap := h.spos_cap
  acc_below := h.acc_below
  session hmode := ⟨(hsession hmode).aligned, (hsession hmode).counted⟩
  closed hmode := ⟨(hclosed hmode).empty, (hclosed hmode).whole⟩

/-- A raise keeps `DATA` with its length, or invalidates both (60_exceptions.md R280, R281). -/
theorem State.invalidate_data (s : State) (site : RaisedIn) :
    ((s.invalidate site).data = s.data ∧ (s.invalidate site).dlen = s.dlen) ∨
    ((s.invalidate site).data = [] ∧ (s.invalidate site).dlen = 0) := by
  cases site
  case encPacker | decoder => exact .inr ⟨rfl, rfl⟩
  all_goals exact .inl ⟨rfl, rfl⟩

theorem State.invalidate_stream (s : State) (site : RaisedIn) :
    ((s.invalidate site).stream = s.stream ∧ (s.invalidate site).slen = s.slen) ∨
    ((s.invalidate site).stream = [] ∧ (s.invalidate site).slen = 0) := by
  cases site
  case packer | encScratch | encPacker => exact .inr ⟨rfl, rfl⟩
  all_goals exact .inl ⟨rfl, rfl⟩

/-- Taking a fault at any line of a command leaves the invariant (60_exceptions.md R280). -/
theorem State.Sound.raise_inv (h : s.Sound) (c : Cause) (site : RaisedIn) : (s.raise c site).Inv := by
  rw [State.raise_first h.no_fault]
  have hdata : ((s.latch c).invalidate site).data.Fits s.cfg.dataBytes ∧
      ((s.latch c).invalidate site).dlen.toNat ≤ s.cfg.dataBytes := by
    rcases (s.latch c).invalidate_data site with ⟨hm, hlen⟩ | ⟨hm, hlen⟩ <;> rw [hm, hlen]
    · exact ⟨h.data_fits, h.dlen_cap⟩
    · exact ⟨Memory.fits_nil, Nat.zero_le _⟩
  have hstream : ((s.latch c).invalidate site).stream.Fits s.cfg.streamBytes ∧
      ((s.latch c).invalidate site).slen.toNat ≤ s.cfg.streamBytes := by
    rcases (s.latch c).invalidate_stream site with ⟨hm, hlen⟩ | ⟨hm, hlen⟩ <;> rw [hm, hlen]
    · exact ⟨h.stream_fits, h.slen_cap⟩
    · exact ⟨Memory.fits_nil, Nat.zero_le _⟩
  exact {
    data_wf := hdata.1.wf
    stream_wf := hstream.1.wf
    data_below := by simpa using hdata.1.inside
    stream_below := by simpa using hstream.1.inside
    idle := rfl
    enc_idle := rfl
    dec_idle := rfl
    scratch_empty := rfl
    cause_zero := by simpa using c.code_ne_zero
    cause_legal := by simpa using c.code_le_five
    fault_mode := by simp
    dlen_cap := by simpa using hdata.2
    slen_cap := by simpa using hstream.2
    spos_cap := by simpa using h.spos_cap
    acc_below := by simpa using h.acc_below
    session := by simp
    closed := by simp }

theorem State.RaisedFrom.inv {site : RaisedIn} (hs : s.Sound) (h : s.RaisedFrom site t) : t.Inv := by
  obtain ⟨c, u, hu, rfl⟩ := h
  exact (hu.sound hs).raise_inv c site

/-- Under a latched fault a raise changes nothing in a state of rest (60_exceptions.md R282 (c)). -/
theorem State.Inv.raise (h : s.Inv) (c : Cause) (site : RaisedIn) : (s.raise c site).Inv := by
  cases hfault : s.fault
  · exact (h.sound hfault).raise_inv c site
  · rw [State.raise_latched s c site hfault]
    exact { h with idle := rfl, enc_idle := rfl, dec_idle := rfl, scratch_empty := rfl }

theorem State.CommandEnds.inv {done : Prop} (hs : s.Inv) (h : s.CommandEnds t done)
    (hdone : s.Sound → done → t.Inv) : t.Inv := by
  cases h with
  | dropped hfault ht => exact ht ▸ hs
  | raised hfault site hraised => exact hraised.inv (hs.sound hfault)
  | completed hfault h => exact hdone (hs.sound hfault) h

/-! ## The commands -/

theorem toReset_inv (s : State) : s.toReset.Inv where
  data_wf := .nil
  stream_wf := .nil
  data_below := nofun
  stream_below := nofun
  idle := rfl
  enc_idle := rfl
  dec_idle := rfl
  scratch_empty := rfl
  cause_zero := iff_of_true rfl rfl
  cause_legal := Nat.zero_le _
  fault_mode := nofun
  dlen_cap := Nat.zero_le _
  slen_cap := Nat.zero_le _
  spos_cap := Nat.zero_le _
  acc_below := Nat.one_pos
  session := nofun
  closed := nofun

theorem State.Inv.setDlen (h : s.Inv) {n : Nat} (hn : n ≤ s.cfg.dataBytes) : (s.setDlen n).Inv := by
  have hdata := State.setDlen_fits ⟨h.data_wf, h.data_below⟩ n
  exact { h with data_wf := hdata.wf, data_below := hdata.inside, dlen_cap := (Nat.mod_le n _).trans hn }

theorem State.Inv.setSlen (h : s.Inv) {n : Nat} (hn : n ≤ s.cfg.streamBytes) : (s.setSlen n).Inv := by
  have hstream := State.setSlen_fits ⟨h.stream_wf, h.stream_below⟩ n
  exact { h with stream_wf := hstream.wf, stream_below := hstream.inside, slen_cap := (Nat.mod_le n _).trans hn }

theorem State.RegWritten.inv (h : s.Inv) (hw : s.RegWritten t) : t.Inv := by
  cases hw with
  | skip v ht | strip v ht | block v ht => exact ht ▸ { h with }
  | dlen n hn ht => exact ht ▸ h.setDlen hn
  | slen n hn ht => exact ht ▸ h.setSlen hn

theorem execWinit_keeps_inv (hs : s.Inv) (h : exec .winit s = .next t) : t.Inv := by
  refine (execWinit_ends h).inv hs fun hsound ht => ?_
  have hpacking : ({ bsWinit s with bsmode := .write } : State).Packing := { bsWinit_packing hsound with }
  exact ht ▸ hpacking.toSound.inv { hs.resting with } (fun _ => hpacking) nofun

theorem execRinit_keeps_inv (hs : s.Inv) (h : exec .rinit s = .next t) : t.Inv := by
  refine (execRinit_ends h).inv hs fun hsound ht => ?_
  exact ht ▸ { hs with fault_mode := fun hfault => by simp [bsRinit, hsound.no_fault] at hfault
                       session := nofun, closed := nofun }

theorem execWbits_keeps_inv {n : BitVec 8} {imm : BitVec 32} (hs : s.Inv)
    (h : exec (.wbits n imm) s = .next t) : t.Inv := by
  refine (execWbits_ends h).inv hs fun hsound ⟨hmode, hn, hw⟩ => ?_
  have hpacking : t.Packing := bsWrite_packing hn (hs.packing hsound.no_fault hmode) hw
  have hframe := bsWrite_frame hw
  have hrest : t.Resting := by
    rw [hframe]
    exact { hs.resting with }
  have htmode : t.bsmode = .write := by rw [hframe, ← hmode]
  exact hpacking.toSound.inv hrest (fun _ => hpacking) fun hclosed => by simp [htmode] at hclosed

theorem execWflush_keeps_inv (hs : s.Inv) (h : exec .wflush s = .next t) : t.Inv := by
  refine (execWflush_ends h).inv hs fun hsound hdone => ?_
  obtain ⟨hmode, u, hu, rfl⟩ := hdone
  have hflushed : u.Flushed := bsFlush_flushed (hs.packing hsound.no_fault hmode) hu
  have hrest : u.Resting := by
    rw [bsFlush_frame hu]
    exact { hs.resting with }
  have hclosed : ({ u with bsmode := .closed } : State).Flushed := { hflushed with }
  exact hclosed.toSound.inv { hrest with } nofun fun _ => hclosed

theorem execRbits_keeps_inv {n : BitVec 8} (hs : s.Inv) (h : exec (.rbits n) s = .next t) : t.Inv := by
  refine (execRbits_ends h).inv hs fun _ hdone => ?_
  obtain ⟨-, bs, -, rfl⟩ := hdone
  exact { hs with }

/-- DEINT and INT move bytes below `DLEN`; the mode and the packer are not theirs. -/
theorem transposed_keeps_inv (hs : s.Inv) (hmoved : s.Transposed s.dlen.toNat t)
    (hscratch : s.scratch = [] → t.scratch = []) : t.Inv := by
  have hdata := hmoved.fits _ hs.dlen_cap ⟨hs.data_wf, hs.data_below⟩
  have hempty := hscratch hs.scratch_empty
  rw [hmoved.frame]
  exact { hs with data_wf := hdata.wf, data_below := hdata.inside, scratch_empty := hempty }

theorem execEnc_keeps_inv (hs : s.Inv) (h : exec .enc s = .next t) : t.Inv := by
  refine (execEnc_ends h).inv hs fun hsound hdone => ?_
  obtain ⟨u, v, -, hpacking, hv, rfl⟩ := hdone
  have hflushed : v.Flushed := bsFlush_flushed (hpacking hsound) hv
  have hclosed : v.endEncode.Flushed := { hflushed with count_cap := Nat.zero_le _ }
  exact hclosed.toSound.inv (State.endCommand_resting _) nofun fun _ => hclosed

theorem State.Sound.endDecode_inv (h : s.Sound) : s.endDecode.Inv := by
  have hsound : s.endDecode.Sound :=
    { h with
      data_fits := State.setDlen_fits h.data_fits s.dec.n
      dlen_cap := (Nat.mod_le _ _).trans h.count_cap
      count_cap := Nat.zero_le _ }
  exact hsound.inv (State.endCommand_resting _) nofun nofun

theorem execDec_keeps_inv (hs : s.Inv) (h : exec .dec s = .next t) : t.Inv := by
  refine (execDec_ends h).inv hs fun hsound hdone => ?_
  obtain ⟨u, hu, rfl⟩ := hdone
  exact (hu.sound hsound).endDecode_inv

theorem execRreg_keeps_inv {reg : BitVec 8} (hs : s.Inv) (h : exec (.rreg reg) s = .next t) : t.Inv := by
  rw [exec, execRreg] at h
  cases hreg : Reg.ofAddr reg with
  | none =>
    rw [hreg] at h
    injection h with h
    exact h ▸ hs.raise _ _
  | some r =>
    rw [hreg] at h
    injection h with h
    exact h ▸ { hs with }

theorem exec_keeps_inv {i : Instr} (hi : isCommand i = true) (hs : s.Inv) (h : exec i s = .next t) : t.Inv := by
  cases i with
  | reset =>
    injection h with h
    exact h ▸ toReset_inv s
  | wreg reg imm => exact (execWreg_ends h).inv hs fun _ hw => hw.inv hs
  | rreg reg => exact execRreg_keeps_inv hs h
  | winit => exact execWinit_keeps_inv hs h
  | wbits n imm => exact execWbits_keeps_inv hs h
  | wflush => exact execWflush_keeps_inv hs h
  | rinit => exact execRinit_keeps_inv hs h
  | rbits n => exact execRbits_keeps_inv hs h
  | deint => exact (execDeint_ends h).inv hs fun _ ⟨hmoved, hscratch⟩ => transposed_keeps_inv hs hmoved hscratch
  | int => exact (execInt_ends h).inv hs fun _ ⟨hmoved, hscratch⟩ => transposed_keeps_inv hs hmoved hscratch
  | enc => exact execEnc_keeps_inv hs h
  | dec => exact execDec_keeps_inv hs h
  | hdr _ _ | runW0 _ | runW2 _ | runW3 _ | runW4 _ | runW5 _ | runW6 _ | runW7 _ | runW8 _ | endMark => cases hi

/-! ## The host's actions -/

/-- A decoder's answer, where it is an instruction, is a host command. -/
def CommandsOnly (r : Except DecodeError Instr) : Prop := ∀ i, r = .ok i → isCommand i = true

theorem CommandsOnly.ok {i : Instr} (hi : isCommand i = true) : CommandsOnly (.ok i) :=
  fun _ h => Except.ok.inj h ▸ hi

theorem CommandsOnly.error (e : DecodeError) : CommandsOnly (.error e) := nofun

theorem CommandsOnly.ite {c : Prop} [Decidable c] {r r' : Except DecodeError Instr} (h : CommandsOnly r)
    (h' : CommandsOnly r') : CommandsOnly (if c then r else r') := by
  split
  · exact h
  · exact h'

theorem CommandsOnly.formatZ {op a : BitVec 8} {imm : BitVec 32} {i : Instr} (hi : isCommand i = true) :
    CommandsOnly (formatZ op a imm i) := .ite (.ok hi) (.error _)

theorem CommandsOnly.formatR {op : BitVec 8} {imm : BitVec 32} {i : Instr} (hi : isCommand i = true) :
    CommandsOnly (formatR op imm i) := .ite (.ok hi) (.error _)

/-- The rows of 30_encoding.md R91, in their order. -/
theorem decodeCommand_commandsOnly (w : CommandWord) : CommandsOnly (decodeCommand w) :=
  .ite (.formatZ rfl) <| .ite (.ok rfl) <| .ite (.formatR rfl) <| .ite (.formatZ rfl) <| .ite (.ok rfl) <|
  .ite (.formatZ rfl) <| .ite (.formatZ rfl) <| .ite (.formatR rfl) <| .ite (.formatZ rfl) <| .ite (.formatZ rfl) <|
  .ite (.formatZ rfl) <| .ite (.formatZ rfl) <| .error _

theorem hostWrite_next {sp : Space} {cap addr : Nat} {bytes : List Byte}
    (h : hostWrite sp cap addr bytes (.next s) = .next t) : addr + bytes.length ≤ cap ∧ s = t := by
  rcases Nat.lt_or_ge cap (addr + bytes.length) with hout | hin
  · rw [hostWrite_outside hout] at h
    cases h
  · rw [hostWrite_inside hin] at h
    exact ⟨hin, Host.Outcome.next.inj h⟩

/-- The answer of what the next step takes. -/
def Fetched.answer (f : Fetched) (s : State) : Result :=
  match f with
  | .idle => .next s
  | .instr i t => exec i t
  | .other r => r

theorem step_eq_answer (s : State) : step s = (fetch s).answer s := rfl

theorem hostAction_keeps_inv (a : HostAction) (hs : s.Inv) (h : (hostAction a s).answer u = .next t) : t.Inv := by
  cases a with
  | command w =>
    cases hw : decodeCommand w with
    | error e =>
      simp only [hostAction, acceptCommand, hw] at h
      injection h with h
      exact h ▸ hs.raise _ _
    | ok i =>
      simp only [hostAction, acceptCommand, hw] at h
      exact exec_keeps_inv (decodeCommand_commandsOnly w i hw) hs h
  | writeData addr bytes =>
    obtain ⟨hin, rfl⟩ := hostWrite_next h
    have hdata := Memory.Fits.writeAll ⟨hs.data_wf, hs.data_below⟩ hin
    exact { hs with data_wf := hdata.wf, data_below := hdata.inside }
  | writeStream addr bytes =>
    obtain ⟨hin, rfl⟩ := hostWrite_next h
    have hstream := Memory.Fits.writeAll ⟨hs.stream_wf, hs.stream_below⟩ hin
    exact { hs with stream_wf := hstream.wf, stream_below := hstream.inside }
  | readData addr | readStream addr =>
    obtain ⟨-, -, b, -, rfl⟩ := hostRead_eq_next.mp h
    exact { hs with }
  | resetInput =>
    injection h with h
    exact h ▸ toReset_inv s

/-- Between commands the block waits, or takes the host's next action (log 6). -/
theorem fetch_idle (hphase : s.phase = .idle) :
    fetch s = .idle ∨ ∃ a rest, fetch s = hostAction a { s with inputs := rest } := by
  cases hin : s.inputs with
  | nil => exact .inl (by simp only [fetch, hphase, hin])
  | cons a rest => exact .inr ⟨a, rest, by simp only [fetch, hphase, hin]⟩

end

/-- Settles O59, by the host's action and the command it issues. -/
theorem stepKeepsTheInvariant : Obligations.StepKeepsTheInvariant := by
  intro s t hs h
  rw [step_eq_answer] at h
  rcases fetch_idle hs.idle with hfetch | ⟨a, rest, hfetch⟩ <;> rw [hfetch] at h
  · injection h with h
    exact h ▸ hs
  · exact hostAction_keeps_inv a (s := { s with inputs := rest }) { hs with } h

/-- Settles O60: power-on is the reset of the reset state. -/
theorem invariantHoldsAtReset : Obligations.InvariantHoldsAtReset := toReset_inv State.reset

/-- Settles O17: each register of R21 by its address. -/
theorem powerOnState : Obligations.PowerOnState := by
  refine ⟨fun a n h => ?_, rfl, fun _ => rfl, fun _ => rfl, fun _ => rfl⟩
  unfold registerNat at h
  split at h <;> cases h <;> rfl

end Sys2Proof.Machine
end

section
/-! What the host's write of memory bytes leaves (20_memory.md R67, 70_reset_and_hazards.md R320). -/

namespace Sys2Proof.Machine

section
variable {s : State} {addr : Nat} {bytes : List Byte} {rest : List HostAction}

theorem step_writeData (hphase : s.phase = .idle) (hinputs : s.inputs = .writeData addr bytes :: rest)
    (hcap : addr + bytes.length ≤ s.cfg.dataBytes) :
    step s = .next { s with inputs := rest, data := s.data.writeAll addr bytes } :=
  (step_of_hostAction_other hphase hinputs rfl).trans (hostWrite_inside hcap _)

theorem step_writeStream (hphase : s.phase = .idle) (hinputs : s.inputs = .writeStream addr bytes :: rest)
    (hcap : addr + bytes.length ≤ s.cfg.streamBytes) :
    step s = .next { s with inputs := rest, stream := s.stream.writeAll addr bytes } :=
  (step_of_hostAction_other hphase hinputs rfl).trans (hostWrite_inside hcap _)

end

/-- Settles O14: the step stores by `writeAll`, whose two read rules are the bytes written and the frame. -/
theorem hostWritesHoldTheirBytes : Obligations.HostWritesHoldTheirBytes := by
  intro s addr bytes rest hphase
  constructor
  · intro hinputs hcap
    exact ⟨_, step_writeData hphase hinputs hcap, rfl,
      fun _ => Memory.read_writeAll_same, fun _ => Memory.read_writeAll_other⟩
  · intro hinputs hcap
    exact ⟨_, step_writeStream hphase hinputs hcap, rfl,
      fun _ => Memory.read_writeAll_same, fun _ => Memory.read_writeAll_other⟩

end Sys2Proof.Machine
end

section
/-! The scratch need of a transposition: it is the largest window, and DEINT and INT fault exactly when `SCRATCH` is
smaller (20_memory.md R66, 41_transposer.md R163, R166, R167, 60_exceptions.md R274, R280). -/

namespace Sys2Proof.Machine

/-! ## The largest window -/

section
variable {len stride block : Nat} {win : Nat × Nat}

theorem mem_windows_whole : win ∈ windows len stride 0 ↔ win = (0, len) := List.mem_singleton

/-- The windows of `stride * block` bytes each, and the last one with what is left (R161). -/
theorem mem_windows_blocks (hblock : block ≠ 0) :
    win ∈ windows len stride block ↔
      (∃ q, q < len / (stride * block) ∧ win = (q * (stride * block), stride * block)) ∨
      win = (len / (stride * block) * (stride * block), len % (stride * block)) := by
  have hrest : len - len / (stride * block) * (stride * block) = len % (stride * block) := by
    rw [Nat.mod_eq_sub_div_mul]
  simp [windows, hblock, hrest, eq_comm]

theorem scratchNeed_whole (len stride : Nat) : scratchNeed len stride 0 = len := if_pos rfl

theorem scratchNeed_blocks (hblock : block ≠ 0) : scratchNeed len stride block = min len (stride * block) :=
  if_neg hblock

theorem window_length_le_scratchNeed (hstride : 0 < stride) (h : win ∈ windows len stride block) :
    win.2 ≤ scratchNeed len stride block := by
  by_cases hblock : block = 0
  · subst hblock
    rw [mem_windows_whole.mp h, scratchNeed_whole]
  · have hsize : 0 < stride * block := Nat.mul_pos hstride (Nat.pos_of_ne_zero hblock)
    rw [scratchNeed_blocks hblock]
    rcases (mem_windows_blocks hblock).mp h with ⟨q, hq, rfl⟩ | rfl
    · have hfits : stride * block ≤ len := (Nat.div_pos_iff.mp (Nat.zero_lt_of_lt hq)).2
      exact le_min hfits le_rfl
    · exact le_min (Nat.mod_le _ _) (Nat.mod_lt _ hsize).le

/-- The first window is the largest: a whole block where one fits, else all of the buffer. -/
theorem exists_window_length_eq_scratchNeed (hstride : 0 < stride) :
    ∃ win ∈ windows len stride block, win.2 = scratchNeed len stride block := by
  by_cases hblock : block = 0
  · subst hblock
    exact ⟨(0, len), mem_windows_whole.mpr rfl, (scratchNeed_whole len stride).symm⟩
  · have hsize : 0 < stride * block := Nat.mul_pos hstride (Nat.pos_of_ne_zero hblock)
    rw [scratchNeed_blocks hblock]
    rcases Nat.lt_or_ge len (stride * block) with hshort | hfits
    · refine ⟨_, (mem_windows_blocks hblock).mpr (.inr rfl), ?_⟩
      rw [Nat.mod_eq_of_lt hshort, min_eq_left hshort.le]
    · exact ⟨_, (mem_windows_blocks hblock).mpr (.inl ⟨0, Nat.div_pos hfits hsize, rfl⟩), (min_eq_right hfits).symm⟩

/-- The need in terms of the `BLOCK` register. -/
theorem scratchNeed_register (len stride : Nat) (block : BitVec 32) :
    scratchNeed len stride block.toNat = if block = 0 then len else min len (stride * block.toNat) := by
  have hzero : block.toNat = 0 ↔ block = 0 := BitVec.toNat_inj (y := 0)
  simp only [scratchNeed, hzero]

end

/-! ## The scratch check -/

/-- What DEINT and INT answer behind the fault gate (41_transposer.md R166, R167). -/
def State.transposeAnswer (s : State) (move : Nat → State → Nat × Nat → State) : Result :=
  (transpose move s.stride s.block.toNat s.dlen.toNat s).answer .transposer

section
variable {s : State} {move : Nat → State → Nat × Nat → State}

theorem exec_deint_fresh (hfault : s.fault = false) : exec .deint s = s.transposeAnswer deintWindow :=
  gate_open hfault _

theorem exec_int_fresh (hfault : s.fault = false) : exec .int s = s.transposeAnswer reintWindow :=
  gate_open hfault _

/-- A transposer's first fault invalidates nothing (60_exceptions.md R280). -/
theorem raise_transposer (hfault : s.fault = false) (c : Cause) : s.raise c .transposer = faulted s c.code :=
  State.raise_fresh s c .transposer hfault

theorem transpose_lacks_scratch {stride block len : Nat} (hstride : 1 < stride)
    (hlack : s.cfg.scratchBytes < scratchNeed len stride block) :
    transpose move stride block len s = .raise .allocation s := by
  rw [transpose, if_neg (Nat.not_le.mpr hstride), if_pos hlack]

theorem transpose_completes {stride block len : Nat} (hmove : MovesWindows move)
    (hroom : stride ≤ 1 ∨ scratchNeed len stride block ≤ s.cfg.scratchBytes) :
    ∃ t, transpose move stride block len s = .ok t ∧ s.Transposed len t := by
  have hends := transpose_ends hmove stride block len s
  rcases transpose_cases move stride block len s with ⟨-, h⟩ | ⟨hstride, hlack, -⟩ | ⟨-, -, h⟩
  · rw [h] at hends
    exact ⟨_, h, hends.1⟩
  · omega
  · rw [h] at hends
    exact ⟨_, h, hends.1⟩

theorem State.transposeAnswer_faulted (hfault : s.fault = false) (hstride : 1 < s.stride)
    (hlack : s.cfg.scratchBytes < scratchNeed s.dlen.toNat s.stride s.block.toNat) :
    s.transposeAnswer move = .next (faulted s 4) := by
  rw [transposeAnswer, transpose_lacks_scratch hstride hlack, Res.raise_answer, raise_transposer hfault]
  rfl

theorem State.transposeAnswer_completes (hmove : MovesWindows move) (hfault : s.fault = false)
    (hroom : s.stride ≤ 1 ∨ scratchNeed s.dlen.toNat s.stride s.block.toNat ≤ s.cfg.scratchBytes) :
    ∃ t, s.transposeAnswer move = .next t ∧ t.fault = false := by
  obtain ⟨t, ht, hmoved⟩ := transpose_completes hmove hroom
  refine ⟨t, by rw [transposeAnswer, ht, Res.ok_answer], ?_⟩
  rw [hmoved.frame]
  exact hfault

end

/-- Settles O38: the windows by their kinds, the faults by the scratch check that DEINT and INT share. -/
theorem transposerScratchFault : Obligations.TransposerScratchFault := by
  refine ⟨fun len stride block hstride => ⟨fun _ => window_length_le_scratchNeed hstride,
    exists_window_length_eq_scratchNeed hstride, rfl⟩, fun s hfault => ?_⟩
  rw [← scratchNeed_register, exec_deint_fresh hfault, exec_int_fresh hfault]
  constructor
  · intro hstride hlack
    exact ⟨s.transposeAnswer_faulted hfault hstride hlack, s.transposeAnswer_faulted hfault hstride hlack⟩
  · intro hroom
    replace hroom := hroom.imp_left Nat.le_of_eq
    exact ⟨s.transposeAnswer_completes deintWindow_moves hfault hroom,
      s.transposeAnswer_completes reintWindow_moves hfault hroom⟩

end Sys2Proof.Machine
end

section
/-! The operations of 40_bitstream.md on the packer, one rule each: the exact effect of WINIT, RINIT, WBITS and WFLUSH
(R131 to R136, R140 to R143). -/

namespace Sys2Proof.Machine

section
variable {s t u : State} {w f : Nat}

/-! ## The commands in a session that allows them -/

theorem exec_wbits_writing {n : BitVec 8} {imm : BitVec 32} (hfault : s.fault = false) (hmode : s.bsmode = .write)
    (hn : n.toNat ≤ 32) : exec (.wbits n imm) s = (bsWrite imm.toNat n.toNat s).answer .packer := by
  rw [exec, execWbits, gate_open hfault, if_neg (not_not_intro hmode), if_neg (Nat.not_lt.mpr hn)]

theorem exec_wflush_writing (hfault : s.fault = false) (hmode : s.bsmode = .write) :
    exec .wflush s = ((bsFlush s).andThen fun t => .ok { t with bsmode := .closed }).answer .packer := by
  rw [exec, execWflush, gate_open hfault, if_neg (not_not_intro hmode)]

/-! ## A word store -/

theorem emitWord_room (w : Nat) (hroom : s.spos.toNat + 4 ≤ s.cfg.streamBytes) : ∃ t, emitWord w s = .ok t :=
  ⟨_, emitWord_eq_ok.mpr ⟨hroom, rfl⟩⟩

theorem be32_getElem (x : BitVec 32) {j : Nat} (hj : j < 4) :
    (be32 x)[j]'hj = x.extractLsb' (24 - 8 * j) 8 := by
  match j, hj with
  | 0, _ | 1, _ | 2, _ | 3, _ => rfl

theorem extractLsb'_ofNat_byte (w : Nat) {i : Nat} (hi : i ≤ 24) :
    (BitVec.ofNat 32 w).extractLsb' i 8 = BitVec.ofNat 8 (w / 2 ^ i) := by
  apply BitVec.eq_of_getLsbD_eq
  intro j hj
  rw [BitVec.getLsbD_extractLsb', BitVec.getLsbD_ofNat, BitVec.getLsbD_ofNat, Nat.testBit_div_two_pow, Nat.add_comm i,
    decide_eq_true (show j + i < 32 by omega), Bool.true_and]

/-- Of the stored word, the most significant byte lies at the lowest address (R60, R133). -/
theorem emitWord_read_word (ht : emitWord w s = .ok t) {j : Nat} (hj : j < 4) :
    t.stream.read (s.spos.toNat + j) = some (BitVec.ofNat 8 (w / 2 ^ (24 - 8 * j))) := by
  obtain ⟨-, rfl⟩ := emitWord_eq_ok.mp ht
  rw [Memory.read_writeAll_same (bs := be32 _) hj, be32_getElem _ hj, extractLsb'_ofNat_byte w (by omega)]

theorem emitWord_read_other (ht : emitWord w s = .ok t) {a : Nat}
    (ha : a < s.spos.toNat ∨ s.spos.toNat + 4 ≤ a) : t.stream.read a = s.stream.read a := by
  obtain ⟨-, rfl⟩ := emitWord_eq_ok.mp ht
  exact Memory.read_writeAll_other ha

theorem emitWord_slen (ht : emitWord w s = .ok t) : t.slen = s.slen := by
  obtain ⟨-, rfl⟩ := emitWord_eq_ok.mp ht
  rfl

/-! ## The registers after a write -/

theorem State.setPacker_fill_toNat {acc fill n : Nat} (hfill : fill < 32) :
    (s.setPacker acc fill n).fill.toNat = fill := by
  rw [State.setPacker_fill, BitVec.toNat_ofNat, Nat.mod_eq_of_lt hfill]

/-- An accumulator of up to 31 bits fits the register. -/
theorem State.setPacker_acc_toNat {acc fill n : Nat} (hfill : fill < 32) (hacc : acc < 2 ^ fill) :
    (s.setPacker acc fill n).acc.toNat = acc := by
  have hwidth : acc < 2 ^ 32 := hacc.trans (Nat.pow_lt_pow_right (by decide) hfill)
  rw [State.setPacker_acc, BitVec.toNat_ofNat, Nat.mod_eq_of_lt hwidth]

/-! ## The end of a flush -/

theorem State.slenKeeps_spos (s : State) : s.slenKeeps s.spos.toNat = s.spos.toNat := by
  rw [State.slenKeeps, Nat.max_self, ite_self]

theorem bsFlush_room (hpending : 0 < s.fill.toNat) (hroom : s.spos.toNat + 4 ≤ s.cfg.streamBytes) :
    ∃ u, emitWord (s.acc.toNat * 2 ^ (32 - s.fill.toNat)) s = .ok u ∧ bsFlush s = .ok (u.flushed s.fill.toNat) := by
  obtain ⟨u, hu⟩ := emitWord_room (s.acc.toNat * 2 ^ (32 - s.fill.toNat)) hroom
  refine ⟨u, hu, ?_⟩
  rw [bsFlush_pending hpending, hu]
  rfl

theorem State.flushed_spos_toNat (u : State) (f : Nat) :
    (u.flushed f).spos.toNat = u.spos.toNat - (32 - f) / 8 := by
  rw [State.flushed, State.setSlen_spos, State.trimPad_spos, BitVec.toNat_ofNat]
  exact Nat.mod_eq_of_lt ((Nat.sub_le _ _).trans_lt u.spos.isLt)

theorem State.flushed_slen (u : State) (f : Nat) : (u.flushed f).slen = (u.flushed f).spos := by
  rw [State.flushed, State.setSlen_slen, State.setSlen_spos, BitVec.ofNat_toNat, BitVec.setWidth_eq]

/-- A flush takes the value of the trimmed pad bytes, and of every byte above a lowered `SLEN` (R134, R45). -/
theorem State.flushed_read (u : State) (f a : Nat) :
    (u.flushed f).stream.read a =
      if (u.flushed f).spos.toNat ≤ a ∧ (a < u.spos.toNat ∨ (u.flushed f).spos.toNat < u.slen.toNat) then none
      else u.stream.read a := by
  have hspos := u.flushed_spos_toNat f
  rw [State.flushed, State.setSlen_spos] at hspos
  rw [State.flushed, State.setSlen_read, State.slenKeeps_spos, State.trimPad_stream, Memory.read_forget,
    State.setSlen_spos, hspos, State.trimPad_slen, ← ite_or]
  exact if_congr (by omega) rfl rfl

end

/-! ## The statements -/

/-- Settles O22: past the fault gate, WINIT is `bs_winit` and the mode. -/
theorem winitOpensEmptySession : Obligations.WinitOpensEmptySession := by
  intro s hfault
  rw [exec, execWinit, gate_open hfault]
  rfl

/-- Settles O23: past the fault gate, RINIT is `bs_rinit` and the mode. -/
theorem rinitOpensReadSession : Obligations.RinitOpensReadSession := by
  intro s hfault
  rw [exec, execRinit, gate_open hfault]
  rfl

/-- Settles O24: the accumulator and `FILL` fit their registers (R31). -/
theorem wbitsFillsTheAccumulator : Obligations.WbitsFillsTheAccumulator := by
  intro s n imm hfault hmode hacc hroom
  have hwrite := bsWrite_room (v := imm.toNat) hroom
  have hexec := exec_wbits_writing (imm := imm) hfault hmode (show n.toNat ≤ 32 by omega)
  rw [hwrite, Res.ok_answer] at hexec
  exact ⟨_, hexec, bsWrite_frame hwrite, State.setPacker_acc_toNat hroom (append_bits_lt hacc _ _),
    State.setPacker_fill_toNat hroom⟩

/-- Settles O25: the word store, then the registers of what did not fit. -/
theorem wbitsStoresAFullWord : Obligations.WbitsStoresAFullWord := by
  intro s n imm hfault hmode _ hn hfull hroom
  have hrest : s.fill.toNat + n.toNat - 32 < 32 := by
    have := s.fill.isLt
    omega
  obtain ⟨u, hu⟩ := emitWord_room (s.acc.toNat * 2 ^ (32 - s.fill.toNat)
    + imm.toNat % 2 ^ n.toNat / 2 ^ (s.fill.toNat + n.toNat - 32)) hroom
  have hwrite := bsWrite_full (v := imm.toNat) hfull
  rw [hu, Res.ok_andThen] at hwrite
  have hexec := exec_wbits_writing (imm := imm) hfault hmode hn
  rw [hwrite, Res.ok_answer] at hexec
  exact ⟨_, hexec, bsWrite_frame hwrite, State.setPacker_fill_toNat hrest,
    State.setPacker_acc_toNat hrest (Nat.mod_lt _ (Nat.two_pow_pos _)), (emitWord_spos hu :),
    fun _ hj => (emitWord_read_word hu hj :), fun _ ha => (emitWord_read_other hu ha :)⟩

/-- Settles O27: the word store, then the trim. -/
theorem wflushStoresThePendingBits : Obligations.WflushStoresThePendingBits := by
  intro s hfault hmode _ hpending hroom
  obtain ⟨u, hu, hflush⟩ := bsFlush_room hpending hroom
  have hfill := s.fill.isLt
  have huspos := emitWord_spos hu
  have hspos : (u.flushed s.fill.toNat).spos.toNat = s.spos.toNat + (s.fill.toNat + 7) / 8 := by
    rw [State.flushed_spos_toNat]
    omega
  have hread := u.flushed_read s.fill.toNat
  rw [hspos, huspos, emitWord_slen hu] at hread
  refine ⟨{ u.flushed s.fill.toNat with bsmode := .closed }, ?_, ?_, hspos, ?_, ?_, ?_, ?_⟩
  · rw [exec_wflush_writing hfault hmode, hflush, Res.ok_andThen, Res.ok_answer]
  · have hframe := bsFlush_frame hflush
    rw [State.flushed_slen] at hframe
    exact congrArg (fun v : State => { v with bsmode := .closed }) hframe
  · intro j hj
    rw [hread, if_neg (by omega), emitWord_read_word hu (by omega)]
  · intro a hlow hhigh
    rw [hspos] at hlow
    rw [hread, if_pos (by omega)]
  · intro a ha
    rw [hread, if_neg (by omega), emitWord_read_other hu (.inl ha)]
  · intro a ha
    rw [hread, emitWord_read_other hu (.inr ha), hspos]
    exact if_congr (by omega) rfl rfl

/-- Settles O28: a flush with `FILL = 0` only sets `SLEN`. -/
theorem wflushWithNothingPending : Obligations.WflushWithNothingPending := by
  intro s hfault hmode hempty
  refine ⟨{ s.setSlen s.spos.toNat with bsmode := .closed }, ?_, ?_, fun a => ?_⟩
  · rw [exec_wflush_writing hfault hmode, bsFlush_empty hempty, Res.ok_andThen, Res.ok_answer]
  · rw [State.setSlen, BitVec.ofNat_toNat, BitVec.setWidth_eq]
  · rw [State.setSlen_read, State.slenKeeps_spos]

end Sys2Proof.Machine
end

section
/-! Bit strings and the numbers they stand for (00_scope.md R10), and RBITS (40_bitstream.md R137, R138, R144). -/

namespace Sys2Proof.Machine

/-! ## Bit strings and numbers -/

theorem toBits_getElem {n v j : Nat} (hj : j < (toBits n v).length) : (toBits n v)[j] = v.testBit (n - 1 - j) := by
  induction n generalizing j with
  | zero => exact absurd hj (Nat.not_lt_zero j)
  | succ n ih =>
    cases j with
    | zero => rfl
    | succ j => rw [show n + 1 - 1 - (j + 1) = n - 1 - j by omega]; exact ih (Nat.lt_of_succ_lt_succ hj)

/-- The low `n` bits do not depend on the bits above them. -/
theorem toBits_mod {n m : Nat} (h : n ≤ m) (v : Nat) : toBits n (v % 2 ^ m) = toBits n v := by
  induction n with
  | zero => rfl
  | succ n ih =>
    rw [toBits, toBits, ih (Nat.le_of_succ_le h), Nat.testBit_mod_two_pow, decide_eq_true (Nat.lt_of_succ_le h),
      Bool.true_and]

/-- The low `m + n` bits are `m` bits and then the low `n`. -/
theorem toBits_add (m n v : Nat) : toBits (m + n) v = toBits m (v / 2 ^ n) ++ toBits n v := by
  induction m with
  | zero => rw [Nat.zero_add]; rfl
  | succ m ih =>
    rw [Nat.add_right_comm, toBits, ih, toBits, Nat.testBit_div_two_pow, List.cons_append]

/-- A number with the low `n` bits of `v` appended, as a bit string (R132). -/
theorem toBits_append (m n a v : Nat) : toBits m a ++ toBits n v = toBits (m + n) (a * 2 ^ n + v % 2 ^ n) := by
  have hlow : (a * 2 ^ n + v % 2 ^ n) % 2 ^ n = v % 2 ^ n := by
    rw [Nat.mul_add_mod_self_right, Nat.mod_mod]
  have hhigh : (a * 2 ^ n + v % 2 ^ n) / 2 ^ n = a := by
    rw [Nat.add_comm, Nat.add_mul_div_right _ _ (Nat.two_pow_pos n),
      Nat.div_eq_of_lt (Nat.mod_lt _ (Nat.two_pow_pos n)), Nat.zero_add]
  rw [toBits_add, hhigh, ← toBits_mod (Nat.le_refl n) (a * 2 ^ n + v % 2 ^ n), hlow, toBits_mod (Nat.le_refl n)]

theorem ofBitsFrom_div (acc : Nat) (bs : List Bool) : ofBitsFrom acc bs / 2 ^ bs.length = acc := by
  induction bs generalizing acc with
  | nil => exact Nat.div_one acc
  | cons b bs ih =>
    have hb := Bool.toNat_lt b
    rw [ofBitsFrom, List.length_cons, Nat.pow_succ, ← Nat.div_div_eq_div_mul, ih]
    omega

theorem toBits_ofBitsFrom (acc : Nat) (bs : List Bool) : toBits bs.length (ofBitsFrom acc bs) = bs := by
  induction bs generalizing acc with
  | nil => rfl
  | cons b bs ih =>
    have hbit : (ofBitsFrom (2 * acc + b.toNat) bs).testBit bs.length = b := by
      rw [Nat.testBit_eq_decide_div_mod_eq, ofBitsFrom_div]
      cases b <;> simp
    rw [ofBitsFrom, List.length_cons, toBits, hbit, ih]

/-- A bit string is the bits of its number. -/
theorem toBits_ofBits {n : Nat} {bs : List Bool} (hn : bs.length = n) : toBits n (ofBits bs) = bs :=
  hn ▸ toBits_ofBitsFrom 0 bs

theorem ofBits_testBit {n j : Nat} {bs : List Bool} (hn : bs.length = n) (hj : j < bs.length) :
    (ofBits bs).testBit (n - 1 - j) = bs[j] := by
  have hbits := toBits_ofBits hn
  rw [← toBits_getElem (by rwa [hbits])]
  exact List.getElem_of_eq hbits _

/-! ## Reads of the stream -/

section
variable {s : State} {p n : Nat}

theorem sbit_eq_streamBit {k : Nat} (h : k < 8 * s.slen.toNat → (s.stream.read (k / 8)).isSome = true) :
    sbit s k = .ok (streamBit s k) := by
  by_cases hk : k < 8 * s.slen.toNat
  · obtain ⟨b, hb⟩ := Option.isSome_iff_exists.mp (h hk)
    rw [sbit_below hk hb, streamBit, decide_eq_true hk, Bool.true_and, hb, Option.getD_some]
  · rw [sbit_beyond (Nat.not_lt.mp hk), streamBit, decide_eq_false hk, Bool.false_and]

theorem peekBits_of_bitsWritten (h : bitsWritten s p n) :
    peekBits s n p = .ok ((List.range n).map fun j => streamBit s (p + j)) := by
  refine peekBits_eq_ok.mpr ⟨by simp, fun j hj => ?_⟩
  have hjn : j < n := by simpa using hj
  rw [List.getElem_map, List.getElem_range]
  exact sbit_eq_streamBit (h (p + j) (Nat.le_add_right p j) (Nat.add_lt_add_left hjn p))

theorem exec_rbits_reading {n : BitVec 8} {bs : List Bool} (hfault : s.fault = false) (hmode : s.bsmode = .read)
    (hn : n.toNat ≤ 32) (hbs : peekBits s n.toNat s.rpos = .ok bs) :
    exec (.rbits n) s = .next ((consume n.toNat s).returnBits (ofBits bs)) := by
  rw [exec, execRbits, gate_open hfault, if_neg (not_not_intro hmode), if_neg (Nat.not_lt.mpr hn),
    bsRead_eq_ok.mpr ⟨bs, hbs, rfl, rfl⟩]
  rfl

end

/-- Settles O29: the value is the number of the bit string that the read peeks at. -/
theorem rbitsReturnsTheNextBits : Obligations.RbitsReturnsTheNextBits := by
  intro s n hfault hmode hn hwritten
  have hpeek := peekBits_of_bitsWritten hwritten
  have hlen := (peekBits_eq_ok.mp hpeek).1
  refine ⟨_, (ofBits_lt _).trans_eq (congrArg (2 ^ ·) hlen), fun j hj => ?_,
    exec_rbits_reading hfault hmode hn hpeek⟩
  rw [ofBits_testBit hlen (hlen.symm ▸ hj), List.getElem_map, List.getElem_range]

end Sys2Proof.Machine
end

section
/-! The packing law (40_bitstream.md R135): a packer that is `k` bits into a session has stored the session's bits up to
the last whole word and holds the others in `ACC`; the flush stores these, with zeros behind them. -/

namespace Sys2Proof.Machine

/-! ## The bits that a memory holds -/

/-- The bits of the bytes from address 0 on begin with `bits` (00_scope.md R11). -/
def Memory.HoldsBits (m : Memory) (bits : List Bool) : Prop :=
  ∀ k, (h : k < bits.length) → ∃ b, m.read (k / 8) = some b ∧ b.getLsbD (7 - k % 8) = bits[k]

section
variable {m m' : Memory} {s t u : State} {bits bits' stored : List Bool} {k n v w : Nat}

theorem Memory.HoldsBits.sbit (h : s.stream.HoldsBits bits) (hk : k < bits.length) (hslen : k < 8 * s.slen.toNat) :
    sbit s k = .ok bits[k] := by
  obtain ⟨b, hread, hbit⟩ := h k hk
  rw [sbit_below hslen hread, hbit]

theorem Memory.HoldsBits.of_append (h : m.HoldsBits (bits ++ bits')) : m.HoldsBits bits := by
  intro k hk
  obtain ⟨b, hread, hbit⟩ := h k (by rw [List.length_append]; omega)
  exact ⟨b, hread, hbit.trans (List.getElem_append_left hk)⟩

theorem Memory.HoldsBits.of_reads (h : m.HoldsBits bits)
    (hreads : ∀ a, 8 * a < bits.length → m'.read a = m.read a) : m'.HoldsBits bits := by
  intro k hk
  rw [hreads (k / 8) (by omega)]
  exact h k hk

/-- A word stored behind whole words appends its 32 bits (R133). -/
theorem emitWord_holdsBits (h : s.stream.HoldsBits stored) (hlen : stored.length = 8 * s.spos.toNat)
    (ht : emitWord w s = .ok t) : t.stream.HoldsBits (stored ++ toBits 32 w) := by
  intro k hk
  rw [List.length_append, toBits_length] at hk
  by_cases hold : k < stored.length
  · rw [emitWord_read_other ht (.inl (by omega)), List.getElem_append_left hold]
    exact h k hold
  · obtain ⟨j, hj⟩ : ∃ j, k / 8 = s.spos.toNat + j := ⟨k / 8 - s.spos.toNat, by omega⟩
    refine ⟨_, hj ▸ emitWord_read_word ht (by omega), ?_⟩
    rw [List.getElem_append_right (Nat.not_lt.mp hold), toBits_getElem, BitVec.getLsbD_ofNat,
      decide_eq_true (by omega), Bool.true_and, Nat.testBit_div_two_pow]
    congr 1
    omega

/-! ## The packer inside a session -/

/-- The session that `s` is in has appended `bits`: `STREAM` holds the whole words `stored`, `ACC` the rest (R132). -/
structure State.Packs (s : State) (stored bits : List Bool) : Prop where
  whole : stored.length = 8 * s.spos.toNat
  inStream : s.stream.HoldsBits stored
  split : bits = stored ++ toBits s.fill.toNat s.acc.toNat
  counted : s.bitlen = BitVec.ofNat 64 bits.length
  /-- no byte is valid before the flush -/
  slen_zero : s.slen = 0

theorem State.Packs.length (h : s.Packs stored bits) : bits.length = 8 * s.spos.toNat + s.fill.toNat := by
  rw [h.split, List.length_append, toBits_length, h.whole]

/-- `BITLEN` does not wrap. -/
theorem State.Packs.bitlen_toNat (h : s.Packs stored bits) : s.bitlen.toNat = bits.length := by
  have hlength := h.length
  have hspos := s.spos.isLt
  have hfill := s.fill.isLt
  rw [h.counted, BitVec.toNat_ofNat, Nat.mod_eq_of_lt (by omega)]

theorem bsWinit_packs (s : State) : (bsWinit s).Packs [] [] :=
  ⟨rfl, nofun, rfl, rfl, rfl⟩

/-- The accumulator register holds the `FILL` low bits of what is written to it. -/
theorem State.setPacker_pending {acc fill : Nat} (hfill : fill < 32) :
    toBits (s.setPacker acc fill n).fill.toNat (s.setPacker acc fill n).acc.toNat = toBits fill acc := by
  rw [State.setPacker_fill_toNat hfill, State.setPacker_acc, BitVec.toNat_ofNat, toBits_mod hfill.le]

theorem State.Packs.setPacker_counted {acc fill : Nat} (h : s.Packs stored bits) (hu : u.bitlen = s.bitlen) :
    (u.setPacker acc fill n).bitlen = BitVec.ofNat 64 (bits ++ toBits n v).length := by
  rw [State.setPacker_bitlen, hu, h.counted, List.length_append, toBits_length, BitVec.ofNat_add]

/-- `bs_write` appends the low `n` bits of `v`, whether they fill a word or not (R132). -/
theorem bsWrite_packs (hn : n ≤ 32) (h : s.Packs stored bits) (ht : bsWrite v n s = .ok t) :
    ∃ stored', t.Packs stored' (bits ++ toBits n v) := by
  have hfill := s.fill.isLt
  by_cases hroom : s.fill.toNat + n < 32
  · rw [bsWrite_room hroom] at ht
    obtain rfl := Res.ok.inj ht
    refine ⟨stored, h.whole, h.inStream, ?_, h.setPacker_counted rfl, h.slen_zero⟩
    rw [State.setPacker_pending hroom, ← toBits_append, ← List.append_assoc, ← h.split]
  · obtain ⟨k, hk⟩ : ∃ k, n = 32 - s.fill.toNat + k := ⟨s.fill.toNat + n - 32, by omega⟩
    rw [bsWrite_full (Nat.not_lt.mp hroom), show s.fill.toNat + n - 32 = k by omega] at ht
    obtain ⟨u, hu, ht⟩ := Res.andThen_eq_ok.mp ht
    obtain rfl := Res.ok.inj ht
    have hspos := emitWord_spos hu
    refine ⟨_, ?_, (emitWord_holdsBits h.inStream h.whole hu :), ?_, h.setPacker_counted (emitWord_bitlen hu),
      (emitWord_slen hu).trans h.slen_zero⟩
    · rw [List.length_append, toBits_length, h.whole, State.setPacker_spos, hspos, Nat.mul_add]
    · have hword : toBits 32 (s.acc.toNat * 2 ^ (32 - s.fill.toNat) + v % 2 ^ n / 2 ^ k) =
          toBits s.fill.toNat s.acc.toNat ++ toBits (32 - s.fill.toNat) (v / 2 ^ k) := by
        rw [toBits_append, hk, Nat.add_comm _ k, Nat.pow_add, Nat.mod_mul_right_div_self,
          Nat.add_sub_cancel' hfill.le]
      have hrest : toBits k (v % 2 ^ n % 2 ^ k) = toBits k v := by
        rw [toBits_mod (Nat.le_refl k), toBits_mod (by omega)]
      rw [hword, State.setPacker_pending (by omega), hrest, h.split, hk, toBits_add]
      simp only [List.append_assoc]

theorem writeFields_packs {fs : List (Nat × Nat)} (hfs : ∀ f ∈ fs, f.2 ≤ 32) (h : s.Packs stored bits)
    (ht : writeFields fs s = .ok t) : ∃ stored', t.Packs stored' (bits ++ sessionBits fs) := by
  induction fs generalizing s stored bits with
  | nil =>
    obtain rfl := Res.ok.inj ht
    exact ⟨stored, by rwa [sessionBits, List.append_nil]⟩
  | cons f fs ih =>
    obtain ⟨u, hu, ht⟩ := Res.andThen_eq_ok.mp ht
    obtain ⟨stored', hpacks⟩ := bsWrite_packs (hfs f List.mem_cons_self) h hu
    rw [sessionBits, ← List.append_assoc]
    exact ih (fun g hg => hfs g (List.mem_cons_of_mem f hg)) hpacks ht

/-! ## The flush -/

/-- The valid bytes after a flush hold the session's bits and less than a byte of zeros (R134). -/
theorem bsFlush_holdsBits (h : s.Packs stored bits) (ht : bsFlush s = .ok t) :
    ∃ z, z < 8 ∧ 8 * t.slen.toNat = bits.length + z ∧ t.stream.HoldsBits (bits ++ List.replicate z false) := by
  have hlength := h.length
  by_cases hpending : 0 < s.fill.toNat
  · have hfill := s.fill.isLt
    rw [bsFlush_pending hpending] at ht
    obtain ⟨u, hu, ht⟩ := Res.andThen_eq_ok.mp ht
    obtain rfl : u.flushed s.fill.toNat = t := Res.ok.inj ht
    have hspos := u.flushed_spos_toNat s.fill.toNat
    rw [emitWord_spos hu] at hspos
    obtain ⟨z, pad, hz, hpad⟩ : ∃ z pad, z < 8 ∧ 32 - s.fill.toNat = z + 8 * pad :=
      ⟨(32 - s.fill.toNat) % 8, (32 - s.fill.toNat) / 8, by omega, by omega⟩
    have hslen : 8 * (u.flushed s.fill.toNat).slen.toNat = bits.length + z := by
      rw [State.flushed_slen, hspos, hlength]
      omega
    have hword : stored ++ toBits 32 (s.acc.toNat * 2 ^ (32 - s.fill.toNat)) =
        (bits ++ List.replicate z false) ++ List.replicate (8 * pad) false := by
      have happend := toBits_append s.fill.toNat (32 - s.fill.toNat) s.acc.toNat 0
      rw [Nat.zero_mod, Nat.add_zero, Nat.add_sub_cancel' hfill.le, toBits_zero, hpad, List.replicate_add] at happend
      rw [hpad, ← happend, h.split]
      simp only [List.append_assoc]
    have hstored := emitWord_holdsBits h.inStream h.whole hu
    rw [hword] at hstored
    refine ⟨z, hz, hslen, hstored.of_append.of_reads fun a ha => ?_⟩
    rw [List.length_append, List.length_replicate, ← hslen, State.flushed_slen] at ha
    rw [State.flushed_read, if_neg (by omega)]
  · have hfill : s.fill = 0 := BitVec.eq_of_toNat_eq (Nat.eq_zero_of_not_pos hpending)
    rw [bsFlush_empty hfill] at ht
    obtain rfl := Res.ok.inj ht
    have hbits : bits ++ List.replicate 0 false = stored := by
      rw [h.split, hfill]
      simp [toBits]
    refine ⟨0, by decide, ?_, ?_⟩
    · rw [State.setSlen_slen, BitVec.ofNat_toNat, BitVec.setWidth_eq, hlength, hfill]
      rfl
    · rw [hbits]
      refine h.inStream.of_reads fun a ha => ?_
      rw [State.setSlen_read, h.slen_zero, if_neg (by simp)]

end

/-- Settles O31: the packer's bits by induction over the fields, the stream by the flush. -/
theorem packingLaw : Obligations.PackingLaw := by
  intro s t fs hfs ht
  obtain ⟨u, hu, hflush⟩ := Res.andThen_eq_ok.mp ht
  obtain ⟨stored, hpacks⟩ := writeFields_packs hfs (bsWinit_packs s) hu
  rw [List.nil_append] at hpacks
  obtain ⟨z, hz, hslen, hbits⟩ := bsFlush_holdsBits hpacks hflush
  have hbitlen : t.bitlen = u.bitlen := (congrArg State.bitlen (bsFlush_frame hflush) :)
  refine ⟨hbitlen ▸ hpacks.bitlen_toNat, by omega, fun k hk => ?_⟩
  rw [hbits.sbit (by rw [List.length_append, List.length_replicate]; omega) hk]
  by_cases hkbits : k < (sessionBits fs).length
  · rw [List.getElem_append_left hkbits, List.getD_eq_getElem _ _ hkbits]
  · rw [List.getElem_append_right (Nat.not_lt.mp hkbits), List.getElem_replicate,
      List.getD_eq_default _ _ (Nat.not_lt.mp hkbits)]

end Sys2Proof.Machine
end

section
/-! The mirror law (40_bitstream.md R145). Reads whose widths cut the stream into fields return these fields; the
writer's own fields are one way to cut it, and every list of widths is another. -/

namespace Sys2Proof.Machine

section
variable {s : State} {fs : List (Nat × Nat)} {ns : List Nat} {bits : List Bool}

/-! ## Bit strings as fields -/

/-- The values of the fields, as reads of their widths return them. -/
def fieldValues (fs : List (Nat × Nat)) : List Nat := fs.map fun f => f.1 % 2 ^ f.2

theorem sessionBits_length (fs : List (Nat × Nat)) : (sessionBits fs).length = (fs.map Prod.snd).sum := by
  induction fs with
  | nil => rfl
  | cons f fs ih => rw [sessionBits, List.length_append, toBits_length, ih, List.map_cons, List.sum_cons]

/-- Every list of widths cuts a bit string of their total length into fields. -/
theorem exists_fields (hlen : bits.length = ns.sum) : ∃ fs, fs.map Prod.snd = ns ∧ sessionBits fs = bits := by
  induction ns generalizing bits with
  | nil => exact ⟨[], rfl, (List.eq_nil_of_length_eq_zero hlen).symm⟩
  | cons n ns ih =>
    rw [List.sum_cons] at hlen
    obtain ⟨fs, hns, hfs⟩ := ih (bits := bits.drop n) (by rw [List.length_drop]; omega)
    refine ⟨(ofBits (bits.take n), n) :: fs, by rw [List.map_cons, hns], ?_⟩
    rw [sessionBits, toBits_ofBits (by rw [List.length_take]; omega), hfs, List.take_append_drop]

theorem fieldValues_lt (fs : List (Nat × Nat)) : ∀ f ∈ (fieldValues fs).zip (fs.map Prod.snd), f.1 < 2 ^ f.2 := by
  intro f hf
  rw [fieldValues, List.zip_map', List.mem_map] at hf
  obtain ⟨g, -, rfl⟩ := hf
  exact Nat.mod_lt _ (Nat.two_pow_pos _)

/-- The values hold all the bits of the fields. -/
theorem sessionBits_fieldValues (fs : List (Nat × Nat)) :
    sessionBits ((fieldValues fs).zip (fs.map Prod.snd)) = sessionBits fs := by
  induction fs with
  | nil => rfl
  | cons f fs ih =>
    change toBits f.2 (f.1 % 2 ^ f.2) ++ sessionBits ((fieldValues fs).zip (fs.map Prod.snd)) = _
    rw [ih, toBits_mod (Nat.le_refl _), sessionBits]

/-! ## Reads of fields -/

theorem bsRead_of_streamHolds {n v : Nat} (h : streamHolds s s.rpos (toBits n v)) :
    bsRead n s = .ok (v % 2 ^ n, consume n s) := by
  have hpeek := streamHolds_iff.mp h
  rw [toBits_length] at hpeek
  exact bsRead_eq_ok.mpr ⟨_, hpeek, ofBits_toBits n v, rfl⟩

/-- The state after reads of several widths: the cursor has moved over them all, and `UNDERRUN` stays clear if they end
within the valid bytes (R137, R138). -/
structure State.ReadOn (s : State) (n : Nat) (u : State) : Prop where
  rpos : u.rpos = s.rpos + n
  underrun : s.underrun = false → s.rpos + n ≤ 8 * s.slen.toNat → u.underrun = false

theorem State.ReadOn.consume {u : State} {n m : Nat} (h : (consume n s).ReadOn m u) : s.ReadOn (n + m) u where
  rpos := by rw [h.rpos, consume_rpos, Nat.add_assoc]
  underrun hclear hinside := by
    refine h.underrun ?_ (by rw [consume_rpos, consume_slen]; omega)
    rw [consume_inside hclear (by omega)]
    exact hclear

/-- Where the stream holds fields, reads of their widths return their values. -/
theorem readFields_of_streamHolds (h : streamHolds s s.rpos (sessionBits fs)) :
    ∃ u, readFields (fs.map Prod.snd) s = .ok (fieldValues fs, u) ∧ s.ReadOn (sessionBits fs).length u := by
  induction fs generalizing s with
  | nil => exact ⟨s, rfl, rfl, fun hclear _ => hclear⟩
  | cons f fs ih =>
    obtain ⟨hfirst, hrest⟩ := streamHolds_append h
    rw [toBits_length] at hrest
    obtain ⟨u, hread, hon⟩ := ih (s := consume f.2 s) hrest
    refine ⟨u, ?_, ?_⟩
    · rw [List.map_cons, readFields, bsRead_of_streamHolds hfirst]
      simp only [hread]
      rfl
    · rw [sessionBits, List.length_append, toBits_length]
      exact hon.consume

/-! ## The stream of a session -/

/-- The bits of the zero-extended stream, the pad and the zeros beyond the end included (R135, R11). -/
theorem flushed_sbit {t : State} (hfs : ∀ f ∈ fs, f.2 ≤ 32)
    (ht : (writeFields fs (bsWinit s)).andThen bsFlush = .ok t) (k : Nat) :
    sbit t k = .ok ((sessionBits fs).getD k false) := by
  obtain ⟨-, hslen, hvalid⟩ := packingLaw s t fs hfs ht
  by_cases hk : k < 8 * t.slen.toNat
  · exact hvalid k hk
  · rw [sbit_beyond (Nat.not_lt.mp hk), List.getD_eq_default _ _ (by omega)]

theorem streamHolds_zeroExtended (hbits : ∀ k, sbit s k = .ok (bits.getD k false)) (n : Nat) :
    streamHolds s 0 ((bits ++ List.replicate n false).take n) := by
  intro k hk
  rw [Nat.zero_add, hbits, List.getElem_take]
  congr 1
  by_cases hkbits : k < bits.length
  · rw [List.getElem_append_left hkbits, List.getD_eq_getElem _ _ hkbits]
  · rw [List.getElem_append_right (Nat.not_lt.mp hkbits), List.getElem_replicate,
      List.getD_eq_default _ _ (Nat.not_lt.mp hkbits)]

theorem streamHolds_bsRinit (h : streamHolds s 0 bits) : streamHolds (bsRinit s) (bsRinit s).rpos bits :=
  fun k hk => (sbit_congr rfl rfl _).trans (h k hk)

end

/-- Settles O32: the writer's fields lie at the front of the stream, and any widths cut it into fields of their own. -/
theorem mirrorLaw : Obligations.MirrorLaw := by
  intro s t fs hfs ht
  obtain ⟨hbitlen, hslen, -⟩ := packingLaw s t fs hfs ht
  have hstream := fun n => streamHolds_zeroExtended (flushed_sbit hfs ht) n
  constructor
  · have hown := hstream (sessionBits fs).length
    rw [List.take_left' rfl] at hown
    obtain ⟨u, hread, hon⟩ := readFields_of_streamHolds (streamHolds_bsRinit hown)
    refine ⟨u, hread, hon.underrun rfl ?_, ?_⟩
    · rw [bsRinit_rpos, bsRinit_slen]
      omega
    · rw [hon.rpos, bsRinit_rpos, Nat.zero_add, hbitlen]
  · intro ns _
    obtain ⟨gs, hns, hgs⟩ := exists_fields (ns := ns)
      (bits := (sessionBits fs ++ List.replicate ns.sum false).take ns.sum) (by simp)
    obtain ⟨u, hread, hon⟩ := readFields_of_streamHolds (streamHolds_bsRinit (hgs ▸ hstream ns.sum))
    have hvalues := sessionBits_fieldValues gs
    have hlt := fieldValues_lt gs
    have hrpos := hon.rpos
    rw [sessionBits_length, bsRinit_rpos, Nat.zero_add] at hrpos
    rw [hns] at hread hvalues hlt hrpos
    refine ⟨_, u, hread, ?_, hrpos, hlt, hvalues.trans hgs⟩
    rw [fieldValues, List.length_map, ← hns, List.length_map]

end Sys2Proof.Machine
end

section
/-! The permutation of a window: the planes in channel order, each in its own order (41_transposer.md R162). -/

namespace Sys2Proof.Machine

section
variable {len stride c j j' : Nat}

/-! ## Planes -/

/-- A plane has the elements that every channel has, and one more in the first `len mod stride` channels. -/
theorem planeLen_eq (hc : c < stride) :
    planeLen len stride c = len / stride + if c < len % stride then 1 else 0 := by
  have hstride : 0 < stride := Nat.zero_lt_of_lt hc
  have hrem : len % stride < stride := Nat.mod_lt _ hstride
  have hsplit : len + stride - 1 - c = len % stride + stride - 1 - c + stride * (len / stride) := by
    have := Nat.mod_add_div len stride
    omega
  rw [planeLen, hsplit, Nat.add_mul_div_left _ _ hstride, Nat.add_comm]
  congr 1
  split
  · exact Nat.div_eq_of_lt_le (by omega) (by omega)
  · exact Nat.div_eq_of_lt (by omega)

theorem planeLen_eq_channel_count (hc : c < stride) :
    planeLen len stride c = ((List.range len).filter (fun j => decide (j % stride = c))).length := by
  have hcount := Nat.count_modEq_card len (Nat.zero_lt_of_lt hc) c
  simp only [Nat.ModEq, Nat.mod_eq_of_lt hc] at hcount
  rw [planeLen_eq hc, ← hcount, Nat.count, List.countP_eq_length_filter]

/-- Where plane `c` starts: behind `c` planes, of which the first `len mod stride` are one longer. -/
theorem planeOff_eq (hc : c ≤ stride) : planeOff len stride c = c * (len / stride) + min c (len % stride) := by
  induction c with
  | zero => simp [planeOff]
  | succ c ih =>
    rw [planeOff, ih (Nat.le_of_succ_le hc), planeLen_eq hc, Nat.succ_mul]
    split <;> omega

theorem planeOff_stride (hstride : 0 < stride) : planeOff len stride stride = len := by
  rw [planeOff_eq le_rfl, Nat.min_eq_right (Nat.mod_lt _ hstride).le, Nat.div_add_mod]

theorem planeOff_mono (len stride : Nat) : Monotone (planeOff len stride) :=
  monotone_nat_of_le_succ fun _ => Nat.le_add_right _ _

/-! ## Positions -/

/-- Position `j` is inside its plane. -/
theorem div_lt_planeLen (hstride : 0 < stride) (hj : j < len) : j / stride < planeLen len stride (j % stride) := by
  have hsplit := Nat.div_add_mod' j stride
  rw [planeLen, Nat.lt_iff_add_one_le, Nat.le_div_iff_mul_le hstride, Nat.succ_mul]
  omega

theorem planeOff_le_dest (len stride j : Nat) : planeOff len stride (j % stride) ≤ dest len stride j :=
  Nat.le_add_right _ _

theorem dest_lt_next_plane (hstride : 0 < stride) (hj : j < len) :
    dest len stride j < planeOff len stride (j % stride + 1) :=
  Nat.add_lt_add_left (div_lt_planeLen hstride hj) _

theorem dest_lt (hstride : 0 < stride) (hj : j < len) : dest len stride j < len :=
  calc dest len stride j
      < planeOff len stride (j % stride + 1) := dest_lt_next_plane hstride hj
    _ ≤ planeOff len stride stride := planeOff_mono len stride (Nat.mod_lt j hstride)
    _ = len := planeOff_stride hstride

theorem dest_lt_dest_of_channel_lt (hstride : 0 < stride) (hj : j < len) (hchannel : j % stride < j' % stride) :
    dest len stride j < dest len stride j' :=
  calc dest len stride j
      < planeOff len stride (j % stride + 1) := dest_lt_next_plane hstride hj
    _ ≤ planeOff len stride (j' % stride) := planeOff_mono len stride hchannel
    _ ≤ dest len stride j' := planeOff_le_dest len stride j'

theorem dest_lt_dest_of_channel_eq (hlt : j < j') (hchannel : j % stride = j' % stride) :
    dest len stride j < dest len stride j' := by
  have hdiv : j / stride < j' / stride := by
    refine lt_of_le_of_ne (Nat.div_le_div_right hlt.le) fun hdiv => hlt.ne ?_
    rw [← Nat.div_add_mod j stride, hdiv, hchannel, Nat.div_add_mod]
  rw [dest, dest, hchannel]
  exact Nat.add_lt_add_left hdiv _

/-- Two positions differ in their channel, or in their order within it. -/
theorem dest_inj (hstride : 0 < stride) (hj : j < len) (hj' : j' < len) (h : dest len stride j = dest len stride j') :
    j = j' := by
  rcases lt_trichotomy (j % stride) (j' % stride) with hchannel | hchannel | hchannel
  · exact absurd h (dest_lt_dest_of_channel_lt hstride hj hchannel).ne
  · rcases lt_trichotomy j j' with hlt | heq | hlt
    · exact absurd h (dest_lt_dest_of_channel_eq hlt hchannel).ne
    · exact heq
    · exact absurd h (dest_lt_dest_of_channel_eq hlt hchannel.symm).ne'
  · exact absurd h (dest_lt_dest_of_channel_lt hstride hj' hchannel).ne'

theorem dest_one (len j : Nat) : dest len 1 j = j := by
  rw [dest, Nat.mod_one, Nat.div_one, planeOff, Nat.zero_add]

/-- With at most one element in every channel there is nothing to reorder. -/
theorem dest_eq_self (hlen : len ≤ stride) (hj : j < len) : dest len stride j = j := by
  have hjstride : j < stride := hj.trans_le hlen
  rw [dest, Nat.mod_eq_of_lt hjstride, Nat.div_eq_of_lt hjstride, planeOff_eq hjstride.le, Nat.add_zero]
  rcases hlen.lt_or_eq with hlt | rfl
  · rw [Nat.div_eq_of_lt hlt, Nat.mod_eq_of_lt hlt, Nat.mul_zero, Nat.zero_add, min_eq_left hj.le]
  · rw [Nat.div_self (Nat.zero_lt_of_lt hj), Nat.mod_self, Nat.mul_one, Nat.min_zero, Nat.add_zero]

/-- The positions of a window, reordered, are the positions of the window. -/
theorem map_dest_perm (hstride : 0 < stride) : ((List.range len).map (dest len stride)).Perm (List.range len) := by
  have hnodup : ((List.range len).map (dest len stride)).Nodup :=
    List.nodup_range.map_on fun j hj j' hj' => dest_inj hstride (List.mem_range.mp hj) (List.mem_range.mp hj')
  have hsubset : (List.range len).map (dest len stride) ⊆ List.range len := by
    intro p hp
    obtain ⟨j, hj, rfl⟩ := List.mem_map.mp hp
    exact List.mem_range.mpr (dest_lt hstride (List.mem_range.mp hj))
  exact (hnodup.subperm hsubset).perm_of_length_le (by rw [List.length_map])

theorem exists_dest_eq (hstride : 0 < stride) {p : Nat} (hp : p < len) : ∃ j, j < len ∧ dest len stride j = p := by
  obtain ⟨j, hj, hdest⟩ := List.mem_map.mp ((map_dest_perm hstride).mem_iff.mpr (List.mem_range.mpr hp))
  exact ⟨j, List.mem_range.mp hj, hdest⟩

end

/-- Settles O33: the planes by their lengths and starts, the bijection by the order of its values. -/
theorem destPermutesTheWindow : Obligations.DestPermutesTheWindow := by
  intro len stride hstride
  exact ⟨fun c hc => ⟨planeLen_eq_channel_count hc, planeLen_eq hc⟩,
    fun j => dest_lt hstride,
    fun j j' => dest_inj hstride,
    fun p => exists_dest_eq hstride,
    fun j j' hj _ => dest_lt_dest_of_channel_lt hstride hj,
    fun j j' hlt _ => dest_lt_dest_of_channel_eq hlt,
    fun hlen j => dest_eq_self hlen⟩

end Sys2Proof.Machine
end

section
/-! The windows of a buffer: laid side by side, they are the buffer (41_transposer.md R161). -/

namespace Sys2Proof.Machine

/-- The places of a window in the buffer. -/
def windowPlaces (win : Nat × Nat) : List Nat := (List.range win.2).map (win.1 + ·)

section
variable {len stride block a j : Nat} {win win' : Nat × Nat}

theorem mem_windowPlaces : a ∈ windowPlaces win ↔ win.1 ≤ a ∧ a < win.1 + win.2 := by
  simp only [windowPlaces, List.mem_map, List.mem_range]
  exact ⟨fun ⟨j, hj, ha⟩ => by omega, fun ha => ⟨a - win.1, by omega, by omega⟩⟩

theorem place_mem (hj : j < win.2) : win.1 + j ∈ windowPlaces win :=
  List.mem_map_of_mem (List.mem_range.mpr hj)

theorem windowPlaces_zero (n : Nat) : windowPlaces (0, n) = List.range n := by
  simp [windowPlaces]

theorem range_append_windowPlaces (m n : Nat) : List.range m ++ windowPlaces (m, n) = List.range (m + n) :=
  List.range_add.symm

theorem windows_blocks (hblock : block ≠ 0) :
    windows len stride block =
      (List.range (len / (stride * block))).map (fun q => (q * (stride * block), stride * block)) ++
        [(len / (stride * block) * (stride * block), len % (stride * block))] := by
  simp only [windows, if_neg hblock, Nat.mod_eq_sub_div_mul]

theorem full_windows_places (size full : Nat) :
    ((List.range full).map (fun q => (q * size, size))).flatMap windowPlaces = List.range (full * size) := by
  induction full with
  | zero => rw [Nat.zero_mul]; rfl
  | succ full ih =>
    rw [List.range_succ, List.map_append, List.flatMap_append, ih, List.map_singleton, List.flatMap_singleton,
      range_append_windowPlaces, Nat.succ_mul]

/-- Every byte of the buffer is in the windows once, in order. -/
theorem windows_places (len stride block : Nat) :
    (windows len stride block).flatMap windowPlaces = List.range len := by
  by_cases hblock : block = 0
  · subst hblock
    exact (List.flatMap_singleton _ _).trans (windowPlaces_zero len)
  · rw [windows_blocks hblock, List.flatMap_append, full_windows_places, List.flatMap_singleton,
      range_append_windowPlaces, Nat.div_add_mod']

theorem exists_window (ha : a < len) : ∃ win ∈ windows len stride block, a ∈ windowPlaces win :=
  List.mem_flatMap.mp (windows_places len stride block ▸ List.mem_range.mpr ha)

theorem windows_disjoint (len stride block : Nat) :
    (windows len stride block).Pairwise fun win win' => (windowPlaces win).Disjoint (windowPlaces win') :=
  (List.nodup_flatMap.mp (windows_places len stride block ▸ List.nodup_range)).2

theorem window_unique (hwin : win ∈ windows len stride block) (hwin' : win' ∈ windows len stride block)
    (ha : a ∈ windowPlaces win) (ha' : a ∈ windowPlaces win') : win' = win := by
  have hsymm : Std.Symm fun win win' => (windowPlaces win).Disjoint (windowPlaces win') := ⟨fun _ _ h => h.symm⟩
  by_contra hne
  exact (windows_disjoint len stride block).forall hwin' hwin hne ha' ha

/-- Every window starts at a multiple of the stride. -/
theorem stride_dvd_window (h : win ∈ windows len stride block) : stride ∣ win.1 := by
  by_cases hblock : block = 0
  · subst hblock
    rw [mem_windows_whole.mp h]
    exact dvd_zero stride
  · have hsize (q : Nat) : stride ∣ q * (stride * block) := (Nat.dvd_mul_right stride block).mul_left q
    rcases (mem_windows_blocks hblock).mp h with ⟨q, -, rfl⟩ | rfl
    · exact hsize q
    · exact hsize _

end

/-- Settles O34: the list of windows as it is built, and that its places are the buffer's. -/
theorem windowsPartitionTheBuffer : Obligations.WindowsPartitionTheBuffer := by
  intro len stride block _
  refine ⟨fun hblock => if_pos hblock, fun hblock => ?_, fun win hwin => ⟨stride_dvd_window hwin, window_end_le hwin⟩,
    fun a ha => ?_⟩
  · rw [windows_blocks hblock.ne']
    refine ⟨by simp, fun q hq => ?_, ?_⟩
    · rw [List.getElem?_append_left (by simpa using hq), List.getElem?_map, List.getElem?_range hq]
      rfl
    · rw [List.getElem?_append_right (by simp), List.length_map, List.length_range, Nat.sub_self]
      rfl
  · obtain ⟨win, hwin, haw⟩ := exists_window (stride := stride) (block := block) ha
    obtain ⟨hlow, hhigh⟩ := mem_windowPlaces.mp haw
    exact ⟨win, hwin, hlow, hhigh, fun win' hwin' hlow' hhigh' =>
      window_unique hwin hwin' haw (mem_windowPlaces.mpr ⟨hlow', hhigh'⟩)⟩

end Sys2Proof.Machine
end

section
/-! How a transposition moves the bytes of its windows (41_transposer.md R164, R165, R168, R169). The place that a byte
comes from and the place that it goes to are both given by a reordering of the window's positions: DEINT goes from `j` to
`dest j`, INT from `dest j` to `j`. -/

namespace Sys2Proof.Machine

/-! ## Reorderings of a window -/

/-- `place n` reorders the positions of a window of `n` bytes. -/
def Reorders (place : Nat → Nat → Nat) : Prop := ∀ n, ((List.range n).map (place n)).Perm (List.range n)

/-- Each byte at its own position. -/
def inPlace (_len j : Nat) : Nat := j

theorem inPlace_reorders : Reorders inPlace := fun n => .of_eq (List.map_id (List.range n))

theorem dest_reorders {stride : Nat} (hstride : 0 < stride) : Reorders (dest · stride) :=
  fun _ => map_dest_perm hstride

section
variable {place : Nat → Nat → Nat} {n j p : Nat}

theorem Reorders.lt (h : Reorders place) (hj : j < n) : place n j < n :=
  List.mem_range.mp ((h n).mem_iff.mp (List.mem_map_of_mem (List.mem_range.mpr hj)))

theorem Reorders.exists_eq (h : Reorders place) (hp : p < n) : ∃ j, j < n ∧ place n j = p := by
  obtain ⟨j, hj, hplace⟩ := List.mem_map.mp ((h n).mem_iff.mpr (List.mem_range.mpr hp))
  exact ⟨j, List.mem_range.mp hj, hplace⟩

theorem Reorders.inj {k : Nat} (h : Reorders place) (hj : j < n) (hk : k < n) (heq : place n j = place n k) : j = k :=
  List.inj_on_of_nodup_map ((h n).nodup_iff.mpr List.nodup_range) (List.mem_range.mpr hj) (List.mem_range.mpr hk) heq

theorem Reorders.windowPlaces_perm (h : Reorders place) (win : Nat × Nat) :
    ((List.range win.2).map fun j => win.1 + place win.2 j).Perm (windowPlaces win) := by
  have hmap := (h win.2).map (win.1 + ·)
  rwa [List.map_map] at hmap

end

/-! ## Windows moved -/

/-- From `m` to `m'` the byte at position `src j` of each window has moved to position `dst j`, and outside the windows
nothing has changed. -/
structure Memory.WindowsMoved (wins : List (Nat × Nat)) (dst src : Nat → Nat → Nat) (m m' : Memory) : Prop where
  moved : ∀ win ∈ wins, ∀ j, j < win.2 → m'.read (win.1 + dst win.2 j) = m.read (win.1 + src win.2 j)
  rest : ∀ a, (∀ win ∈ wins, a ∉ windowPlaces win) → m'.read a = m.read a

section
variable {wins : List (Nat × Nat)} {win : Nat × Nat} {dst src : Nat → Nat → Nat} {m m' m'' : Memory}

theorem Memory.WindowsMoved.nil (m : Memory) : m.WindowsMoved [] dst src m := ⟨nofun, fun _ _ => rfl⟩

/-- Windows that do not meet are moved one after another. -/
theorem Memory.WindowsMoved.cons (hdst : Reorders dst) (hsrc : Reorders src) (hfirst : m.WindowsMoved [win] dst src m')
    (hrest : m'.WindowsMoved wins dst src m'')
    (hapart : ∀ win' ∈ wins, (windowPlaces win).Disjoint (windowPlaces win')) :
    m.WindowsMoved (win :: wins) dst src m'' where
  moved win' hwin' j hj := by
    rcases List.mem_cons.mp hwin' with rfl | hwin'
    · rw [hrest.rest _ fun w hw => hapart w hw (place_mem (hdst.lt hj))]
      exact hfirst.moved win' List.mem_cons_self j hj
    · rw [hrest.moved win' hwin' j hj]
      exact hfirst.rest _ fun w hw => List.mem_singleton.mp hw ▸ (hapart win' hwin').symm (place_mem (hsrc.lt hj))
  rest a ha := by
    rw [hrest.rest a fun w hw => ha w (List.mem_cons_of_mem _ hw)]
    exact hfirst.rest a fun w hw => ha w (List.mem_singleton.mp hw ▸ List.mem_cons_self)

/-- A move and the move back restore every byte. -/
theorem Memory.WindowsMoved.restores (hsrc : Reorders src) (h : m.WindowsMoved wins dst src m')
    (h' : m'.WindowsMoved wins src dst m'') : sameBytes m m'' := by
  intro a
  by_cases ha : ∃ win ∈ wins, a ∈ windowPlaces win
  · obtain ⟨win, hwin, haw⟩ := ha
    obtain ⟨hlow, hhigh⟩ := mem_windowPlaces.mp haw
    obtain ⟨j, hj, hplace⟩ := hsrc.exists_eq (n := win.2) (p := a - win.1) (by omega)
    obtain rfl : win.1 + src win.2 j = a := by omega
    rw [h'.moved win hwin j hj, h.moved win hwin j hj]
  · push Not at ha
    rw [h'.rest a ha, h.rest a ha]

/-- What the windows hold is permuted. -/
theorem Memory.WindowsMoved.perm (hdst : Reorders dst) (hsrc : Reorders src) (h : m.WindowsMoved wins dst src m') :
    ((wins.flatMap windowPlaces).map m'.read).Perm ((wins.flatMap windowPlaces).map m.read) := by
  rw [List.map_flatMap, List.map_flatMap]
  refine List.Perm.flatMap_left _ fun win hwin => ?_
  have hmoved : ((List.range win.2).map fun j => win.1 + dst win.2 j).map m'.read =
      ((List.range win.2).map fun j => win.1 + src win.2 j).map m.read := by
    rw [List.map_map, List.map_map]
    exact List.map_congr_left fun j hj => h.moved win hwin j (List.mem_range.mp hj)
  have harrived := (hdst.windowPlaces_perm win).map m'.read
  have hleft := (hsrc.windowPlaces_perm win).map m.read
  exact harrived.symm.trans (hmoved ▸ hleft)

end

/-! ## One window -/

/-- `SCRATCH` holds each byte at its target, where no two bytes have the same. -/
theorem gather_read {target source : Nat → Nat} {n j : Nat} {data scratch : Memory}
    (hinj : ∀ i k, i < n → k < n → target i = target k → i = k) (hj : j < n) :
    (gather target source n data scratch).read (target j) = data.read (source j) := by
  induction n with
  | zero => exact absurd hj (Nat.not_lt_zero j)
  | succ n ih =>
    rw [gather, List.range_succ, List.foldl_append]
    change ((gather target source n data scratch).put (target n) (data.read (source n))).read (target j) = _
    rw [Memory.read_put]
    split
    · next heq => rw [hinj j n hj (Nat.lt_succ_self n) heq]
    · next hne =>
      exact ih (fun i k hi hk => hinj i k (hi.trans (Nat.lt_succ_self n)) (hk.trans (Nat.lt_succ_self n)))
        (lt_of_le_of_ne (Nat.le_of_lt_succ hj) fun h => hne (congrArg target h))

section
variable {s t : State} {dst src : Nat → Nat → Nat} {stride block len : Nat}

theorem State.moveWindow_moved (hdst : Reorders dst) (s : State) (win : Nat × Nat) :
    s.data.WindowsMoved [win] dst src
      (s.moveWindow win.1 win.2 (dst win.2) (fun j => win.1 + src win.2 j)).data where
  moved win' hwin' j hj := by
    obtain rfl := List.mem_singleton.mp hwin'
    have hlt := hdst.lt hj
    rw [State.moveWindow_data, copyBack_read, if_pos (by omega), Nat.add_sub_cancel_left]
    exact gather_read (fun i k hi hk => hdst.inj hi hk) hj
  rest a ha := by
    have hout := mem_windowPlaces.not.mp (ha win List.mem_cons_self)
    rw [State.moveWindow_data, copyBack_read, if_neg hout]

/-! ## All windows -/

/-- `move` takes each byte of a window from its place by `src` to its place by `dst`; one channel stands still. -/
structure MovesBytes (move : Nat → State → Nat × Nat → State) (stride : Nat) (dst src : Nat → Nat → Nat) : Prop where
  window : ∀ (s : State) (win : Nat × Nat), s.data.WindowsMoved [win] dst src (move stride s win).data
  dst_reorders : Reorders dst
  src_reorders : Reorders src
  still : stride ≤ 1 → dst = src

theorem dest_eq_inPlace (hstride : 0 < stride) (hone : stride ≤ 1) : (dest · stride) = inPlace := by
  obtain rfl : stride = 1 := by omega
  exact funext fun n => funext fun j => dest_one n j

theorem deintWindow_movesBytes (hstride : 0 < stride) : MovesBytes deintWindow stride (dest · stride) inPlace where
  window s win := s.moveWindow_moved (dest_reorders hstride) win
  dst_reorders := dest_reorders hstride
  src_reorders := inPlace_reorders
  still := dest_eq_inPlace hstride

theorem reintWindow_movesBytes (hstride : 0 < stride) : MovesBytes reintWindow stride inPlace (dest · stride) where
  window s win := s.moveWindow_moved inPlace_reorders win
  dst_reorders := inPlace_reorders
  src_reorders := dest_reorders hstride
  still hone := (dest_eq_inPlace hstride hone).symm

variable {move : Nat → State → Nat × Nat → State}

theorem MovesBytes.foldl (hmove : MovesBytes move stride dst src) {wins : List (Nat × Nat)}
    (hapart : wins.Pairwise fun win win' => (windowPlaces win).Disjoint (windowPlaces win')) (s : State) :
    s.data.WindowsMoved wins dst src (wins.foldl (move stride) s).data := by
  induction wins generalizing s with
  | nil => exact .nil _
  | cons win wins ih =>
    obtain ⟨hfirst, hrest⟩ := List.pairwise_cons.mp hapart
    exact .cons hmove.dst_reorders hmove.src_reorders (hmove.window s win) (ih hrest _) hfirst

theorem MovesBytes.of_transpose (hmove : MovesBytes move stride dst src)
    (h : transpose move stride block len s = .ok t) :
    s.data.WindowsMoved (windows len stride block) dst src t.data := by
  rcases transpose_cases move stride block len s with ⟨hone, hcase⟩ | ⟨-, -, hcase⟩ | ⟨-, -, hcase⟩
  · obtain rfl := Res.ok.inj (hcase.symm.trans h)
    rw [hmove.still hone]
    exact ⟨fun _ _ _ _ => rfl, fun _ _ => rfl⟩
  · cases hcase.symm.trans h
  · obtain rfl := Res.ok.inj (hcase.symm.trans h)
    exact hmove.foldl (windows_disjoint len stride block) s

/-- What the buffer holds is permuted. -/
theorem MovesBytes.transpose_perm (hmove : MovesBytes move stride dst src)
    (h : transpose move stride block len s = .ok t) :
    ((List.range len).map t.data.read).Perm ((List.range len).map s.data.read) := by
  have hperm := (hmove.of_transpose h).perm hmove.dst_reorders hmove.src_reorders
  rwa [windows_places] at hperm

/-! ## DEINT and INT -/

theorem State.stride_pos (s : State) : 0 < s.stride := Nat.succ_pos _

/-- DEINT and INT fault, or transpose. -/
theorem State.transposeAnswer_next (hfault : s.fault = false) (h : s.transposeAnswer move = .next t) :
    t = faulted s 4 ∨ transpose move s.stride s.block.toNat s.dlen.toNat s = .ok t := by
  rcases Res.answer_eq_next.mp h with hok | ⟨c, u, hraise, rfl⟩
  · exact .inr hok
  · rcases transpose_cases move s.stride s.block.toNat s.dlen.toNat s with ⟨-, hcase⟩ | ⟨-, -, hcase⟩ | ⟨-, -, hcase⟩
    · cases hcase.symm.trans hraise
    · obtain ⟨rfl, rfl⟩ := Res.raise.inj (hcase.symm.trans hraise)
      exact .inl (raise_transposer hfault _)
    · cases hcase.symm.trans hraise

theorem State.transposeAnswer_ok (hfault : s.fault = false) (htfault : t.fault = false)
    (h : s.transposeAnswer move = .next t) :
    transpose move s.stride s.block.toNat s.dlen.toNat s = .ok t := by
  refine (State.transposeAnswer_next hfault h).resolve_left ?_
  rintro rfl
  cases htfault

theorem scratchFits_iff : scratchFits s stride len ↔
    stride ≤ 1 ∨ scratchNeed len stride s.block.toNat ≤ s.cfg.scratchBytes := by
  rw [scratchNeed_register, scratchFits]

/-- The exact effect of DEINT and INT where the scratch fits (R164 to R167). -/
theorem State.transposeAnswer_moves (hwindows : MovesWindows move) (hmove : MovesBytes move s.stride dst src)
    (hfits : scratchFits s s.stride s.dlen.toNat) :
    ∃ t, s.transposeAnswer move = .next t ∧ t = { s with data := t.data, scratch := t.scratch } ∧
      (∀ win ∈ windows s.dlen.toNat s.stride s.block.toNat, ∀ j, j < win.2 →
        t.data.read (win.1 + dst win.2 j) = s.data.read (win.1 + src win.2 j)) ∧
      (∀ a, s.dlen.toNat ≤ a → t.data.read a = s.data.read a) ∧
      (s.stride = 1 → sameBytes s.data t.data) := by
  obtain ⟨t, ht, htransposed⟩ := transpose_completes hwindows (scratchFits_iff.mp hfits)
  have hmoved := hmove.of_transpose ht
  refine ⟨t, by rw [transposeAnswer, ht, Res.ok_answer], htransposed.frame, hmoved.moved, fun a ha => ?_, fun hone => ?_⟩
  · refine hmoved.rest a fun win hwin haw => ?_
    have hend := window_end_le hwin
    have hlt := (mem_windowPlaces.mp haw).2
    omega
  · rw [transpose, if_pos hone.le] at ht
    exact Res.ok.inj ht ▸ fun _ => rfl

/-- The transposition in the other direction runs with the same parameters. -/
theorem transpose_keeps_params (hwindows : MovesWindows move) (h : transpose move stride block len s = .ok t) :
    t.stride = s.stride ∧ t.block = s.block ∧ t.dlen = s.dlen := by
  have hends := transpose_ends hwindows stride block len s
  rw [h, Res.ok_ends] at hends
  rw [hends.1.frame]
  exact ⟨rfl, rfl, rfl⟩

/-- The inverse law for the two commands of either order. -/
theorem State.transposeAnswer_restores {back : Nat → State → Nat × Nat → State} {u : State}
    (hwindows : MovesWindows move) (hmove : MovesBytes move s.stride dst src)
    (hback : MovesBytes back s.stride src dst)
    (hs : s.fault = false) (ht : t.fault = false) (hu : u.fault = false)
    (hfirst : s.transposeAnswer move = .next t) (hsecond : t.transposeAnswer back = .next u) :
    sameBytes s.data u.data := by
  have hst := State.transposeAnswer_ok hs ht hfirst
  have htu := State.transposeAnswer_ok ht hu hsecond
  obtain ⟨hstride, hblock, hdlen⟩ := transpose_keeps_params hwindows hst
  rw [hstride, hblock, hdlen] at htu
  exact (hmove.of_transpose hst).restores hmove.src_reorders (hback.of_transpose htu)

theorem State.transposeAnswer_perm (hmove : MovesBytes move s.stride dst src) (hfault : s.fault = false)
    (h : s.transposeAnswer move = .next t) :
    ((List.range s.dlen.toNat).map t.data.read).Perm ((List.range s.dlen.toNat).map s.data.read) := by
  rcases State.transposeAnswer_next hfault h with rfl | hok
  · exact .refl _
  · exact hmove.transpose_perm hok

end

/-- Settles O35: both directions are one move of windows, with source and destination exchanged. -/
theorem transposerMovesEachByte : Obligations.TransposerMovesEachByte := by
  intro s hfault hfits
  rw [exec_deint_fresh hfault, exec_int_fresh hfault]
  exact ⟨State.transposeAnswer_moves deintWindow_moves (deintWindow_movesBytes s.stride_pos) hfits,
    State.transposeAnswer_moves reintWindow_moves (reintWindow_movesBytes s.stride_pos) hfits⟩

/-- Settles O36: two transpositions that fault neither move the same windows, there and back. -/
theorem transposerInverseLaw : Obligations.TransposerInverseLaw := by
  intro s t u hs ht hu
  rw [exec_deint_fresh hs, exec_int_fresh hs, exec_int_fresh ht, exec_deint_fresh ht]
  have hdeint := deintWindow_movesBytes s.stride_pos
  have hint := reintWindow_movesBytes s.stride_pos
  exact ⟨State.transposeAnswer_restores deintWindow_moves hdeint hint hs ht hu,
    State.transposeAnswer_restores reintWindow_moves hint hdeint hs ht hu⟩

/-- Settles O37: a fault moves nothing, and a move permutes each window. -/
theorem transposerKeepsTheBytes : Obligations.TransposerKeepsTheBytes := by
  intro s t hfault h
  rw [exec_deint_fresh hfault, exec_int_fresh hfault] at h
  exact h.elim (State.transposeAnswer_perm (deintWindow_movesBytes s.stride_pos) hfault)
    (State.transposeAnswer_perm (reintWindow_movesBytes s.stride_pos) hfault)

end Sys2Proof.Machine
end

section
/-! How the lines of ENC end (42_encode.md R180 to R191). They write the packer's registers, `STREAM` and the working
registers alone; the one fault they raise is `Allocation`; and they are refused only where a byte of the buffer that they
read holds no value, since every residual that they need is of a position that the scan has passed. -/

namespace Sys2Proof.Machine

/-! ## Completing, allocating, refusing -/

/-- A sub-operation completes with `ok`, or raises `Allocation` in a state of which `raised` holds, or it is refused and
`refused` says why. -/
def Res.Allocates (r : Res) (ok raised : State → Prop) (refused : Prop) : Prop :=
  match r with
  | .ok t => ok t
  | .raise c t => c = .allocation ∧ raised t
  | .refuse _ => refused

section
variable {r : Res} {f : State → Res} {P Q R R' : State → Prop} {D D' : Prop}

theorem Res.Allocates.andThen (h : r.Allocates P R D) (hf : ∀ u, P u → (f u).Allocates Q R D) :
    (r.andThen f).Allocates Q R D := by
  cases r with
  | ok u => exact hf u h
  | raise c u => exact h
  | refuse e => exact h

theorem Res.Allocates.mono (h : r.Allocates P R D) (hok : ∀ u, P u → Q u) (hraised : ∀ u, R u → R' u)
    (hrefused : D → D') : r.Allocates Q R' D' := by
  cases r with
  | ok u => exact hok u h
  | raise c u => exact h.imp_right (hraised u)
  | refuse e => exact hrefused h

end

/-! ## Residuals of written bytes -/

theorem sample_refused {m : Memory} {a : Nat} {e : Refusal} (h : sample m a = .error e) : m.read a = none := by
  unfold sample at h
  split at h
  · cases h
  · next he => exact (Memory.value_eq_error.mp he).1

/-- A residual needs no byte behind its own (R181, R182). -/
theorem resid_refused {m : Memory} {i t : Nat} {e : Refusal} (h : resid m i t = .error e) :
    ∃ a, a ≤ i ∧ m.read a = none := by
  unfold resid at h
  split at h
  · next hx => exact ⟨i, le_rfl, sample_refused hx⟩
  · split at h
    · next hpred =>
      unfold pred at hpred
      split at hpred
      · next hfirst =>
        unfold pred1 at hfirst
        split at hfirst
        · exact ⟨i - 1, Nat.sub_le i 1, sample_refused hfirst⟩
        · cases hfirst
      · split at hpred
        · next hgrad =>
          obtain ⟨a, ha, hread, -⟩ := grad_refused hgrad
          exact ⟨a, ha.le, hread⟩
        · cases hpred
    · cases h

theorem not_written_of_resid {m : Memory} {i t len : Nat} {e : Refusal} (hi : i < len) (h : resid m i t = .error e) :
    ¬ written m 0 len := by
  obtain ⟨a, ha, hread⟩ := resid_refused h
  intro hwritten
  have hsome := hwritten a (Nat.zero_le a) (ha.trans_lt hi)
  rw [hread] at hsome
  cases hsome

/-! ## The lines that emit -/

/-- Lines of ENC lead from `s` to `t`, and the packer has stayed below the capacity. -/
structure State.Emits (s t : State) : Prop where
  frame : t = { s with acc := t.acc, fill := t.fill, spos := t.spos, bitlen := t.bitlen
                       stream := t.stream, enc := t.enc }
  spos_cap : s.spos.toNat ≤ s.cfg.streamBytes → t.spos.toNat ≤ s.cfg.streamBytes

/-- A part of ENC started in `s`, where it completes, leaves working registers of which `P` holds; it needs no byte at or
above `len`. -/
def Res.EmitsFrom (s : State) (len : Nat) (r : Res) (P : EncRegs → Prop) : Prop :=
  r.Allocates (fun u => s.Emits u ∧ P u.enc) s.Emits (¬ written s.data 0 len)

section
variable {s t u : State} {len n : Nat} {P Q : EncRegs → Prop}

theorem State.Emits.refl (s : State) : s.Emits s := ⟨rfl, id⟩

theorem State.Emits.data (h : s.Emits t) : t.data = s.data := (congrArg State.data h.frame :)
theorem State.Emits.cfg (h : s.Emits t) : t.cfg = s.cfg := (congrArg State.cfg h.frame :)
theorem State.Emits.fault (h : s.Emits t) : t.fault = s.fault := (congrArg State.fault h.frame :)

theorem State.Emits.trans (h : s.Emits t) (h' : t.Emits u) : s.Emits u where
  frame := h'.frame.trans (congrArg (fun v : State => { v with
    acc := u.acc, fill := u.fill, spos := u.spos, bitlen := u.bitlen, stream := u.stream, enc := u.enc }) h.frame)
  spos_cap hcap := h.cfg ▸ h'.spos_cap (h.cfg.symm ▸ h.spos_cap hcap)

theorem State.emits_enc (s : State) (regs : EncRegs) : s.Emits { s with enc := regs } := ⟨rfl, id⟩

theorem Res.EmitsFrom.of_emits {r : Res} (hu : s.Emits u) (h : r.EmitsFrom u len P) : r.EmitsFrom s len P :=
  Res.Allocates.mono h (fun _ ⟨hv, hp⟩ => ⟨hu.trans hv, hp⟩) (fun _ hv => hu.trans hv) (hu.data ▸ id)

theorem Res.EmitsFrom.andThen {r : Res} {f : State → Res} (h : r.EmitsFrom s len P)
    (hf : ∀ u, P u.enc → (f u).EmitsFrom u len Q) : (r.andThen f).EmitsFrom s len Q :=
  Res.Allocates.andThen h fun u ⟨hu, henc⟩ => (hf u henc).of_emits hu

theorem Res.EmitsFrom.mono {r : Res} (h : r.EmitsFrom s len P) (hPQ : ∀ regs, P regs → Q regs) :
    r.EmitsFrom s len Q :=
  Res.Allocates.mono h (fun _ ⟨hu, hp⟩ => ⟨hu, hPQ _ hp⟩) (fun _ => id) id

/-- A line that only sets the working registers. -/
theorem Res.emitsFrom_enc (regs : EncRegs) (h : P regs) : (Res.ok { s with enc := regs }).EmitsFrom s len P :=
  ⟨s.emits_enc regs, h⟩

theorem bsWrite_spos_cap {v : Nat} (h : bsWrite v n s = .ok t) (hcap : s.spos.toNat ≤ s.cfg.streamBytes) :
    t.spos.toNat ≤ s.cfg.streamBytes := by
  by_cases hroom : s.fill.toNat + n < 32
  · rw [bsWrite_room hroom] at h
    obtain rfl := Res.ok.inj h
    exact hcap
  · rw [bsWrite_full (Nat.not_lt.mp hroom)] at h
    obtain ⟨u, hu, h⟩ := Res.andThen_eq_ok.mp h
    obtain rfl := Res.ok.inj h
    exact (emitWord_spos hu).trans_le (emitWord_eq_ok.mp hu).1

theorem bsWrite_emits (v n : Nat) (s : State) (len : Nat) : (bsWrite v n s).EmitsFrom s len (· = s.enc) := by
  cases h : bsWrite v n s with
  | ok t =>
    have hframe := bsWrite_frame h
    have henc : t.enc = s.enc := (congrArg State.enc hframe :)
    have hbitlen : t.bitlen = s.bitlen + BitVec.ofNat 64 n := (congrArg State.bitlen hframe :)
    refine ⟨⟨?_, bsWrite_spos_cap h⟩, henc⟩
    rw [henc, hbitlen]
    exact hframe
  | raise c t =>
    obtain ⟨hc, rfl, -⟩ := bsWrite_raise h
    exact ⟨hc, .refl t⟩
  | refuse e => exact absurd h (bsWrite_ne_refuse v n s e)

variable (t : Nat)

theorem writeValues_emits {width count q : Nat} (hq : q + count ≤ len) (s : State) :
    (writeValues t width count q s).EmitsFrom s len (· = s.enc) := by
  induction count generalizing q s with
  | zero => exact ⟨.refl s, rfl⟩
  | succ count ih =>
    unfold writeValues
    cases hr : resid s.data q t with
    | error e => exact not_written_of_resid (by omega) hr
    | ok r => exact (bsWrite_emits _ _ s len).andThen fun u hu => hu ▸ ih (by omega) u

/-- The pending run's positions are scanned ones, and they are emitted (R189). -/
theorem flushPending_emits (hlen : s.enc.e + s.enc.cnt2 ≤ len) :
    (flushPending t s).EmitsFrom s len (· = { s.enc with e := s.enc.e + s.enc.cnt2 }) := by
  have hcount := bsWrite_emits s.enc.cnt2 7 s len
  have hcode := hcount.andThen (Q := (· = s.enc)) fun u hu => hu ▸ bsWrite_emits (code s.enc.bits2) 3 u len
  have hvalues := hcode.andThen (Q := (· = s.enc)) fun u hu =>
    hu ▸ writeValues_emits (width := s.enc.bits2) t hlen u
  exact hvalues.andThen fun u hu => Res.emitsFrom_enc _ (by rw [hu])

/-- `n` positions are scanned: those emitted, the pending run and the current run (R186). -/
def EncRegs.Scanned (n : Nat) (regs : EncRegs) : Prop := regs.i = n ∧ regs.e + regs.cnt2 + regs.cnt1 = n

/-- After `close_current` the pending run holds what was the current one: all `n` positions are emitted or pending
(R190). -/
def EncRegs.Closed (i n : Nat) (regs : EncRegs) : Prop := regs.i = i ∧ regs.e + regs.cnt2 = n

theorem closeCurrent_emits (hruns : s.enc.e + s.enc.cnt2 + s.enc.cnt1 = n) (hlen : n ≤ len) :
    (closeCurrent t s).EmitsFrom s len (EncRegs.Closed s.enc.i n) := by
  unfold closeCurrent
  split
  · exact Res.emitsFrom_enc _ ⟨rfl, by dsimp only; omega⟩
  · refine (flushPending_emits t (by omega)).andThen fun u hu => Res.emitsFrom_enc _ ?_
    rw [hu]
    exact ⟨rfl, hruns⟩

/-- One more residual starts a run, lengthens it, or closes it and starts the next one (R186). -/
theorem scanStep_emits (h : s.enc.Scanned n) (hn : n < len) :
    (scanStep t s).EmitsFrom s len (EncRegs.Scanned (n + 1)) := by
  obtain ⟨hi, hruns⟩ := h
  unfold scanStep
  cases hr : resid s.data s.enc.i t with
  | error e => exact not_written_of_resid (hi ▸ hn) hr
  | ok r =>
    have hscanned : s.scanned.enc.i = n + 1 := congrArg (· + 1) hi
    refine Res.EmitsFrom.of_emits (s.emits_enc _ : s.Emits s.scanned) ?_
    dsimp only
    split
    · next hempty =>
      have hpending : s.enc.e + s.enc.cnt2 = n := by rwa [show s.enc.cnt1 = 0 from hempty] at hruns
      exact Res.emitsFrom_enc _ ⟨hscanned, congrArg (· + 1) hpending⟩
    · split
      · exact Res.emitsFrom_enc _ ⟨hscanned, congrArg (· + 1) hruns⟩
      · refine (closeCurrent_emits t (s := s.scanned) hruns hn.le).andThen fun u hu => Res.emitsFrom_enc _ ?_
        exact ⟨hu.1.trans hscanned, congrArg (· + 1) hu.2⟩

theorem scan_emits (k : Nat) (h : s.enc.Scanned n) (hk : n + k ≤ len) :
    (scan t k s).EmitsFrom s len (EncRegs.Scanned (n + k)) := by
  induction k generalizing s n with
  | zero => exact ⟨.refl s, h⟩
  | succ k ih =>
    refine (scanStep_emits t h (by omega)).andThen fun u hu => ?_
    rw [← Nat.add_assoc, Nat.add_right_comm]
    exact ih hu (by omega)

theorem flushRest_emits {i : Nat} (h : s.enc.Closed i len) : (flushRest t s).EmitsFrom s len fun _ => True := by
  unfold flushRest
  split
  · exact ⟨.refl s, trivial⟩
  · exact (flushPending_emits t h.2.le).mono fun _ _ => trivial

/-- Steps 2 to 4 of ENC, from the opened packer on. -/
theorem encodeBody_emits (stride len : Nat) (s : State) :
    (encodeBody stride t len s).EmitsFrom (bsWinit s) len fun _ => True := by
  have hskip := bsWrite_emits (stride - 1) 2 (bsWinit s) len
  have hstrip := hskip.andThen (Q := fun _ => True) fun u _ => (bsWrite_emits (t - 1) 16 u len).mono fun _ _ => trivial
  have hopen := hstrip.andThen (Q := EncRegs.Scanned 0) fun u _ => Res.emitsFrom_enc {} ⟨rfl, rfl⟩
  have hscan := hopen.andThen fun u hu => scan_emits t len hu (Nat.zero_add len).le
  rw [Nat.zero_add] at hscan
  have hclose := hscan.andThen (Q := EncRegs.Closed len len) fun u hu => hu.1 ▸ closeCurrent_emits t hu.2 le_rfl
  exact hclose.andThen fun u hu => flushRest_emits t hu

end

end Sys2Proof.Machine
end

section
/-! How ENC ends (42_encode.md R180, 41_transposer.md R163, 60_exceptions.md R274, R280, R281, R283). -/

namespace Sys2Proof.Machine

section
variable {s t d : State}

/-! ## The flush -/

theorem bsFlush_raise {c : Cause} (h : bsFlush s = .raise c t) : c = .allocation ∧ t = s := by
  by_cases hpending : 0 < s.fill.toNat
  · rw [bsFlush_pending hpending] at h
    rcases Res.andThen_eq_raise.mp h with hword | ⟨u, -, hrest⟩
    · obtain ⟨-, rfl, rfl⟩ := emitWord_eq_raise.mp hword
      exact ⟨rfl, rfl⟩
    · cases hrest
  · rw [bsFlush_empty (BitVec.eq_of_toNat_eq (Nat.eq_zero_of_not_pos hpending))] at h
    cases h

theorem bsFlush_slen_cap (h : bsFlush s = .ok t) (hcap : s.spos.toNat ≤ s.cfg.streamBytes) :
    t.slen.toNat ≤ s.cfg.streamBytes := by
  rcases bsFlush_cases s with ⟨-, hflush⟩ | ⟨w, u, hu, hflush⟩ | ⟨c, hflush⟩
  · obtain rfl := Res.ok.inj (hflush.symm.trans h)
    rw [State.setSlen_slen, BitVec.ofNat_toNat, BitVec.setWidth_eq]
    exact hcap
  · obtain rfl := Res.ok.inj (hflush.symm.trans h)
    rw [State.flushed_slen, State.flushed_spos_toNat, emitWord_spos hu]
    exact (Nat.sub_le _ _).trans (emitWord_eq_ok.mp hu).1
  · cases hflush.symm.trans h

/-! ## The input of the encoder -/

/-- A deinterleaved buffer is written where the buffer was (R169). -/
theorem deint_written {stride block len : Nat} (hstride : 0 < stride) (h : deint stride block len s = .ok d)
    (hwritten : written s.data 0 len) : written d.data 0 len := by
  have hperm := (deintWindow_movesBytes hstride).transpose_perm h
  intro a _ ha
  have hmem : d.data.read a ∈ (List.range len).map d.data.read := List.mem_map_of_mem (List.mem_range.mpr ha)
  obtain ⟨b, hb, hread⟩ := List.mem_map.mp (hperm.mem_iff.mp hmem)
  rw [← hread]
  exact hwritten b (Nat.zero_le b) (List.mem_range.mp hb)

/-! ## The steps of ENC -/

/-- At a line of ENC from the opened packer on, with the capacities `cfg`. -/
structure State.Encoding (cfg : Config) (s : State) : Prop where
  no_fault : s.fault = false
  same_cfg : s.cfg = cfg
  spos_cap : s.spos.toNat ≤ cfg.streamBytes

section
variable {cfg : Config} {D : Prop} {stride block len : Nat}

theorem bsWinit_encoding (hfault : s.fault = false) (hcfg : s.cfg = cfg) : (bsWinit s).Encoding cfg :=
  ⟨hfault, hcfg, Nat.zero_le _⟩

theorem State.Emits.encoding (h : s.Emits t) (hs : s.Encoding cfg) : t.Encoding cfg := by
  obtain ⟨hfault, rfl, hspos⟩ := hs
  exact ⟨h.fault.trans hfault, h.cfg, h.spos_cap hspos⟩

theorem encodeBody_allocates (strip : Nat) (hd : (bsWinit d).Encoding cfg) :
    (encodeBody stride strip len d).Allocates (State.Encoding cfg) (State.Encoding cfg) (¬ written d.data 0 len) :=
  Res.Allocates.mono (encodeBody_emits strip stride len d) (fun _ hu => hu.1.encoding hd)
    (fun _ hu => hu.encoding hd) id

theorem reint_allocates (hroom : stride ≤ 1 ∨ scratchNeed len stride block ≤ cfg.scratchBytes)
    (hs : s.Encoding cfg) : (reint stride block len s).Allocates (State.Encoding cfg) (State.Encoding cfg) D := by
  obtain ⟨hfault, rfl, hspos⟩ := hs
  obtain ⟨t, ht, htransposed⟩ := transpose_completes reintWindow_moves hroom
  rw [reint, ht]
  exact htransposed.frame ▸ ⟨hfault, rfl, hspos⟩

theorem bsFlush_allocates (hs : s.Encoding cfg) :
    (bsFlush s).Allocates (fun t => t.fault = false ∧ t.slen.toNat ≤ cfg.streamBytes) (State.Encoding cfg) D := by
  cases h : bsFlush s with
  | ok t =>
    have htfault : t.fault = s.fault := (congrArg State.fault (bsFlush_frame h) :)
    exact ⟨htfault.trans hs.no_fault, hs.same_cfg ▸ bsFlush_slen_cap h (hs.same_cfg.symm ▸ hs.spos_cap)⟩
  | raise c t =>
    obtain ⟨hc, rfl⟩ := bsFlush_raise h
    exact ⟨hc, hs⟩
  | refuse e => exact absurd h (bsFlush_ne_refuse s e)

end

/-- ENC from the deinterleaved buffer on, as `exec` has it. -/
def encodeRest (s d : State) : Res :=
  (((encodeBody s.stride s.stripLen s.dlen.toNat d).andThen (reint s.stride s.block.toNat s.dlen.toNat)).andThen
    bsFlush).andThen fun v => .ok v.endEncode

/-- How ENC ends without a fault: the chunk has room below the capacity. -/
def State.Encoded (s t : State) : Prop :=
  t.fault = false ∧ t.bsmode = .closed ∧ t.slen.toNat ≤ s.cfg.streamBytes

theorem encodeRest_allocates (hd : (bsWinit d).Encoding s.cfg) (hfits : scratchFits s s.stride s.dlen.toNat) :
    (encodeRest s d).Allocates s.Encoded (State.Encoding s.cfg) (¬ written d.data 0 s.dlen.toNat) := by
  have hbody := encodeBody_allocates (stride := s.stride) (len := s.dlen.toNat) s.stripLen hd
  have hreint := hbody.andThen fun _ => reint_allocates (scratchFits_iff.mp hfits)
  have hflush := hreint.andThen fun _ => bsFlush_allocates
  exact hflush.andThen fun v ⟨hfault, hslen⟩ => ⟨hfault, rfl, hslen⟩

theorem exec_enc_deinterleaved (hfault : s.fault = false)
    (hd : deint s.stride s.block.toNat s.dlen.toNat s = .ok d) :
    exec .enc s = (encodeRest s d).answer .encPacker := by
  rw [exec, execEnc, gate_open hfault, hd]
  rfl

/-- Without the scratch that the deinterleave needs (R163). -/
theorem exec_enc_lacks_scratch (hfault : s.fault = false) (hlack : ¬ scratchFits s s.stride s.dlen.toNat) :
    exec .enc s = .next (faultedPacker s 4) := by
  rw [scratchFits_iff, not_or, Nat.not_le, Nat.not_le] at hlack
  rw [exec, execEnc, gate_open hfault, deint, transpose_lacks_scratch hlack.1 hlack.2]
  exact congrArg Host.Outcome.next (State.raise_fresh s .allocation .encScratch hfault)

/-- With it, ENC completes, or raises `Allocation` in the packer, or needs a byte of its input that is not there. -/
theorem exec_enc_cases (hfault : s.fault = false) (hfits : scratchFits s s.stride s.dlen.toNat) :
    (∃ t, exec .enc s = .next t ∧ s.Encoded t) ∨
    (∃ u : State, u.fault = false ∧ exec .enc s = .next (u.raise .allocation .encPacker)) ∨
    (¬ written s.data 0 s.dlen.toNat ∧ ∃ e, exec .enc s = .refused e) := by
  obtain ⟨d, hd, htransposed⟩ := transpose_completes deintWindow_moves (scratchFits_iff.mp hfits)
  have hencoding : (bsWinit d).Encoding s.cfg := by
    rw [htransposed.frame]
    exact bsWinit_encoding hfault rfl
  have hrest := encodeRest_allocates hencoding hfits
  rw [exec_enc_deinterleaved hfault hd]
  cases hr : encodeRest s d with
  | ok t =>
    rw [hr] at hrest
    exact .inl ⟨t, rfl, hrest⟩
  | raise c u =>
    rw [hr] at hrest
    obtain ⟨rfl, hu⟩ := hrest
    exact .inr (.inl ⟨u, hu.no_fault, rfl⟩)
  | refuse e =>
    rw [hr] at hrest
    exact .inr (.inr ⟨fun hwritten => hrest (deint_written s.stride_pos hd hwritten), e, rfl⟩)

/-- A capacity is a number of whole words (R7). -/
theorem Config.whole_words_le {cfg : Config} {n : Nat} (h : n ≤ cfg.streamBytes) :
    4 * ((n + 3) / 4) ≤ cfg.streamBytes := by
  rw [Config.streamBytes] at h ⊢
  omega

/-- A fault in the packer loses all that ENC had written (R280, R281). -/
theorem raise_encPacker_invalidates (hfault : s.fault = false) :
    let t := s.raise .allocation .encPacker
    t.cause = 4 ∧ t.bsmode = .none ∧ t.slen = 0 ∧ t.stream = [] ∧ t.dlen = 0 ∧ t.data = [] := by
  rw [State.raise_fresh s _ _ hfault]
  exact ⟨rfl, rfl, rfl, rfl, rfl, rfl⟩

end

/-- Settles O43: the scratch check first, then the three ends of the lines behind it. -/
theorem encFaultInvalidatesOutputs : Obligations.EncFaultInvalidatesOutputs := by
  intro s hfault
  refine ⟨exec_enc_lacks_scratch hfault, fun hfits hwritten => ?_, fun t ht htfault => ?_⟩
  · rcases exec_enc_cases hfault hfits with ⟨t, ht, hclean, hmode, hslen⟩ | ⟨u, hu, ht⟩ | ⟨hunwritten, -⟩
    · exact ⟨t, ht, .inl ⟨hclean, hmode, Config.whole_words_le hslen⟩⟩
    · exact ⟨_, ht, .inr ⟨State.raise_fault u _ _, (raise_encPacker_invalidates hu).1⟩⟩
    · exact absurd hwritten hunwritten
  · by_cases hfits : scratchFits s s.stride s.dlen.toNat
    · rcases exec_enc_cases hfault hfits with ⟨v, hv, hclean, -⟩ | ⟨u, hu, hv⟩ | ⟨-, e, hv⟩
      · obtain rfl := Host.Outcome.next.inj (hv.symm.trans ht)
        rw [hclean] at htfault
        cases htfault
      · obtain rfl := Host.Outcome.next.inj (hv.symm.trans ht)
        obtain ⟨hcause, hmode, hslen, hstream, hdlen, hdata⟩ := raise_encPacker_invalidates hu
        exact ⟨hcause, hmode, hslen, fun _ => hstream ▸ rfl, fun _ => ⟨hdlen, fun _ => hdata ▸ rfl⟩⟩
      · cases hv.symm.trans ht
    · obtain rfl := Host.Outcome.next.inj ((exec_enc_lacks_scratch hfault hfits).symm.trans ht)
      exact ⟨rfl, rfl, rfl, fun _ => rfl, fun h => absurd h hfits⟩

end Sys2Proof.Machine
end

section
/-! The merge rule of `close_current()` (42_encode.md R187, R190). -/

namespace Sys2Proof.Machine

theorem mergesWell_iff {regs : EncRegs} :
    mergesWell regs = true ↔ regs.cnt1 + regs.cnt2 ≤ 127 ∧
      (regs.cnt1 + regs.cnt2) * max regs.bits1 regs.bits2 < regs.cnt2 * regs.bits2 + regs.cnt1 * regs.bits1 + 10 := by
  rw [mergesWell, Bool.and_eq_true, decide_eq_true_eq, decide_eq_true_eq]
  rfl

section
variable {s : State} {t : Nat}

theorem closeCurrent_merges (h : mergesWell s.enc = true) : closeCurrent t s = .ok s.mergeRuns := if_pos h

theorem closeCurrent_rotates (h : ¬ mergesWell s.enc = true) :
    closeCurrent t s = (flushPending t s).andThen fun u => .ok u.rotateRuns := if_neg h

end

/-- Settles O39: the two branches of `close_current()`, by its test. -/
theorem mergeOnlyWhenStrictlyCheaper : Obligations.MergeOnlyWhenStrictlyCheaper := fun _ _ =>
  ⟨fun h => closeCurrent_merges (mergesWell_iff.mpr h), fun h => closeCurrent_rotates (mergesWell_iff.not.mpr h)⟩

end Sys2Proof.Machine
end

section
/-! The frame of ENC (42_encode.md R180, R192). -/

namespace Sys2Proof.Machine

/-- The part of the state that no line of ENC but its last writes: all but the packer's registers, `SLEN`, the memories
and the encoder's working registers, which are blanked. -/
def State.encKept (s : State) : State :=
  { s with bitlen := 0, acc := 0, fill := 0, spos := 0, slen := 0, data := [], stream := [], scratch := [], enc := {} }

section
variable {s t u d v w : State} {stride block len strip : Nat}

theorem State.Transposed.encKept (h : s.Transposed len t) : t.encKept = s.encKept :=
  (congrArg State.encKept h.frame :)

theorem State.Emits.encKept (h : s.Emits t) : t.encKept = s.encKept := (congrArg State.encKept h.frame :)

theorem bsFlush_encKept (h : bsFlush s = .ok t) : t.encKept = s.encKept :=
  (congrArg State.encKept (bsFlush_frame h) :)

/-- The lines of ENC behind its deinterleave, where they complete. -/
theorem encodeRest_eq_ok (h : encodeRest s d = .ok t) :
    ∃ u v w, encodeBody s.stride s.stripLen s.dlen.toNat d = .ok u ∧
      reint s.stride s.block.toNat s.dlen.toNat u = .ok v ∧ bsFlush v = .ok w ∧ w.endEncode = t := by
  obtain ⟨w, hw, ht⟩ := Res.andThen_eq_ok.mp h
  obtain ⟨v, hv, hflush⟩ := Res.andThen_eq_ok.mp hw
  obtain ⟨u, hu, hreint⟩ := Res.andThen_eq_ok.mp hv
  exact ⟨u, v, w, hu, hreint, hflush, Res.ok.inj ht⟩

theorem deint_transposed (h : deint stride block len s = .ok d) : s.Transposed len d := by
  have hends := transpose_ends deintWindow_moves stride block len s
  rw [← deint, h] at hends
  exact hends.1

theorem reint_transposed (h : reint stride block len s = .ok d) : s.Transposed len d := by
  have hends := transpose_ends reintWindow_moves stride block len s
  rw [← reint, h] at hends
  exact hends.1

/-- A transposition raises its fault before any byte moves (R163). -/
theorem deint_raise {c : Cause} (h : deint stride block len s = .raise c d) : d = s := by
  have hends := transpose_ends deintWindow_moves stride block len s
  rw [← deint, h] at hends
  exact hends

theorem reint_raise {c : Cause} (h : reint stride block len s = .raise c d) : d = s := by
  have hends := transpose_ends reintWindow_moves stride block len s
  rw [← reint, h] at hends
  exact hends

theorem encodeBody_frame (h : encodeBody stride strip len d = .ok u) : (bsWinit d).Emits u := by
  have hemits := encodeBody_emits strip stride len d
  rw [h] at hemits
  exact hemits.1

theorem encodeBody_encKept (h : encodeBody stride strip len d = .ok u) : u.encKept = d.encKept :=
  (encodeBody_frame h).encKept

/-- A fault in the packer is raised at a line of ENC. -/
theorem encodeRest_raise {c : Cause} (h : encodeRest s d = .raise c t) : t.encKept = d.encKept := by
  rcases Res.andThen_eq_raise.mp h with h | ⟨w, -, h⟩
  · rcases Res.andThen_eq_raise.mp h with h | ⟨v, hv, hflush⟩
    · rcases Res.andThen_eq_raise.mp h with hbody | ⟨u, hu, hreint⟩
      · have hemits := encodeBody_emits s.stripLen s.stride s.dlen.toNat d
        rw [hbody] at hemits
        exact hemits.2.encKept
      · exact reint_raise hreint ▸ encodeBody_encKept hu
    · obtain ⟨u, hu, hreint⟩ := Res.andThen_eq_ok.mp hv
      obtain ⟨-, rfl⟩ := bsFlush_raise hflush
      exact (reint_transposed hreint).encKept.trans (encodeBody_encKept hu)
  · cases h

/-- ENC past the fault gate: it completes, or a fault is raised at one of its lines. -/
theorem exec_enc_next (hfault : s.fault = false) (h : exec .enc s = .next t) :
    (∃ d, deint s.stride s.block.toNat s.dlen.toNat s = .ok d ∧ encodeRest s d = .ok t) ∨
    ∃ c u site, State.encKept u = s.encKept ∧ u.raise c site = t := by
  cases hd : deint s.stride s.block.toNat s.dlen.toNat s with
  | ok d =>
    rw [exec_enc_deinterleaved hfault hd] at h
    rcases Res.answer_eq_next.mp h with hok | ⟨c, u, hraise, ht⟩
    · exact .inl ⟨d, rfl, hok⟩
    · exact .inr ⟨c, u, _, (encodeRest_raise hraise).trans (deint_transposed hd).encKept, ht⟩
  | raise c u =>
    rw [exec, execEnc, gate_open hfault, hd] at h
    exact .inr ⟨c, u, _, congrArg State.encKept (deint_raise hd), Host.Outcome.next.inj h⟩
  | refuse e => exact absurd hd (transpose_ne_refuse _ _ _ _ _ e)

/-- What a completed ENC leaves, apart from `DATA` and the chunk (R180). -/
theorem encodeRest_frame (hd : deint s.stride s.block.toNat s.dlen.toNat s = .ok d) (h : encodeRest s d = .ok t) :
    t = { s with
      bsmode := .closed, slen := t.slen, bitlen := t.bitlen, acc := t.acc, fill := t.fill, spos := t.spos
      data := t.data, stream := t.stream, scratch := [], enc := {}, dec := {}, phase := .idle } := by
  obtain ⟨u, v, w, hu, hv, hw, rfl⟩ := encodeRest_eq_ok h
  have hkept : w.encKept = s.encKept :=
    calc w.encKept
        = v.encKept := bsFlush_encKept hw
      _ = u.encKept := (reint_transposed hv).encKept
      _ = d.encKept := encodeBody_encKept hu
      _ = s.encKept := (deint_transposed hd).encKept
  exact congrArg (fun k : State => { k with
    bsmode := .closed, slen := w.slen, bitlen := w.bitlen, acc := w.acc, fill := w.fill, spos := w.spos
    data := w.data, stream := w.stream, scratch := [], enc := {}, dec := {}, phase := .idle }) hkept

/-- The re-interleave moves every byte back (R168, R192). -/
theorem encodeRest_data (hd : deint s.stride s.block.toNat s.dlen.toNat s = .ok d) (h : encodeRest s d = .ok t) :
    sameBytes s.data t.data := by
  obtain ⟨u, v, w, hu, hv, hw, rfl⟩ := encodeRest_eq_ok h
  have hflush : w.data = v.data := (congrArg State.data (bsFlush_frame hw) :)
  have hthere := (deintWindow_movesBytes s.stride_pos).of_transpose hd
  have hback := (reintWindow_movesBytes s.stride_pos).of_transpose hv
  rw [(encodeBody_frame hu).data] at hback
  rw [State.endEncode_data, hflush]
  exact hthere.restores inPlace_reorders hback

end

/-- What no ENC changes, whichever way it ends. -/
def State.EncLeaves (s t : State) : Prop :=
  sameParams s t ∧ t.rpos = s.rpos ∧ t.result = s.result ∧ t.underrun = s.underrun ∧ samePorts s t

section
variable {s t u : State}

theorem State.encLeaves_of_encKept (h : t.encKept = s.encKept) : s.EncLeaves t := by
  have hfields : s.EncLeaves t.encKept := h ▸ ⟨⟨rfl, rfl, rfl⟩, rfl, rfl, rfl, rfl, rfl, rfl, rfl⟩
  exact hfields

theorem State.EncLeaves.raise (h : s.EncLeaves u) (c : Cause) (site : RaisedIn) : s.EncLeaves (u.raise c site) := by
  simpa [State.EncLeaves, sameParams, samePorts] using h

end

/-- Settles O42: a fault keeps what its line kept, and a completed ENC has moved every byte back. -/
theorem encFrame : Obligations.EncFrame := by
  intro s t h
  suffices hends : s.EncLeaves t ∧ (t.fault = false → t.dlen = s.dlen ∧ sameBytes s.data t.data) by
    obtain ⟨⟨hparams, hrpos, hresult, hunder, hports⟩, hdata⟩ := hends
    exact ⟨hparams, hrpos, hresult, hunder, hports, hdata⟩
  cases hfault : s.fault with
  | true =>
    obtain rfl := Host.Outcome.next.inj ((gate_shut hfault _).symm.trans h)
    exact ⟨State.encLeaves_of_encKept rfl, fun _ => ⟨rfl, fun _ => rfl⟩⟩
  | false =>
    rcases exec_enc_next hfault h with ⟨d, hd, ht⟩ | ⟨c, u, site, hkept, rfl⟩
    · have hframe := encodeRest_frame hd ht
      have hdata := encodeRest_data hd ht
      have hdlen : t.dlen = s.dlen := (congrArg State.dlen hframe :)
      refine ⟨?_, fun _ => ⟨hdlen, hdata⟩⟩
      rw [hframe]
      exact ⟨⟨rfl, rfl, rfl⟩, rfl, rfl, rfl, rfl, rfl, rfl, rfl⟩
    · refine ⟨(State.encLeaves_of_encKept hkept).raise c site, fun hclean => ?_⟩
      rw [State.raise_fault] at hclean
      cases hclean

end Sys2Proof.Machine
end

section
/-! Runs of residuals and their tokens (42_encode.md R182, R186 to R190; 30_encoding.md R97 to R105). -/

namespace Sys2Proof.Machine

/-- The width of a run: the largest run width that its residuals need (R186, R190). -/
def runWidth (run : List Int) : Nat := (run.map fun r => norm (width r)).foldl max 0

/-- The token that a run of residuals is written as (R189). -/
def residualToken (run : List Int) : Nat × List Nat :=
  (runWidth run, run.map fun r => (r + (bias (runWidth run) : Int)).toNat)

/-- The residuals of a buffer from position `q` on begin with the given ones (R182). -/
def Residuals (m : Memory) (t : Nat) : Nat → List Int → Prop
  | _, [] => True
  | q, r :: rs => resid m q t = .ok r ∧ Residuals m t (q + 1) rs

section
variable {m : Memory} {t q : Nat} {r : Int} {xs ys run : List Int}

/-! ## Widths -/

theorem runWidth_append (xs ys : List Int) : runWidth (xs ++ ys) = max (runWidth xs) (runWidth ys) := by
  rw [runWidth, List.map_append, List.foldl_append, ← runWidth]
  conv_lhs => rw [← Nat.max_zero (runWidth xs)]
  exact List.foldl_assoc

theorem runWidth_singleton (r : Int) : runWidth [r] = norm (width r) := Nat.zero_max _

theorem runWidth_cons (r : Int) (run : List Int) : runWidth (r :: run) = max (norm (width r)) (runWidth run) := by
  rw [← runWidth_singleton]
  exact runWidth_append [r] run

theorem runWidth_le (run : List Int) : runWidth run ≤ 8 := by
  induction run with
  | nil => exact Nat.zero_le 8
  | cons r run ih =>
    rw [runWidth_cons]
    exact max_le (norm_width_le r) ih

/-! ## Residuals of a buffer -/

theorem residuals_append : Residuals m t q (xs ++ ys) ↔ Residuals m t q xs ∧ Residuals m t (q + xs.length) ys := by
  induction xs generalizing q with
  | nil => exact (and_iff_right trivial).symm
  | cons x xs ih =>
    have hshift : q + 1 + xs.length = q + (x :: xs).length := by
      rw [List.length_cons]
      omega
    rw [List.cons_append, Residuals, Residuals, ih, hshift, and_assoc]

theorem residuals_singleton : Residuals m t q [r] ↔ resid m q t = .ok r := and_iff_left trivial

theorem sample_eq_ok {a : Nat} {x : Int} :
    sample m a = .ok x ↔ ∃ b : Byte, m.read a = some b ∧ (b.toNat : Int) = x := by
  unfold sample Memory.value
  cases m.read a <;> simp

theorem sample_eq_error {a : Nat} {e : Refusal} :
    sample m a = .error e ↔ m.read a = none ∧ Refusal.unspecifiedByte .data a = e := by
  unfold sample Memory.value
  cases m.read a <;> simp

/-- A residual in terms of the byte, its predecessor and the gradient (R181, R182). -/
theorem resid_eq_ok : resid m q t = .ok r ↔ ∃ (x : Byte) (p g : Int), m.read q = some x ∧ pred1 m q = .ok p ∧
    grad m q t = .ok g ∧ wrapS8 (x.toNat - (p + g)) = r := by
  unfold resid pred
  constructor
  · intro h
    split at h
    · cases h
    · next x hx =>
      split at h
      · cases h
      · next v hv =>
        split at hv
        · cases hv
        · next p hp =>
          split at hv
          · cases hv
          · next g hg =>
            obtain ⟨byte, hread, rfl⟩ := sample_eq_ok.mp hx
            obtain rfl := Except.ok.inj hv
            exact ⟨byte, p, g, hread, hp, hg, Except.ok.inj h⟩
  · rintro ⟨x, p, g, hx, hp, hg, rfl⟩
    rw [sample_eq_ok.mpr ⟨x, hx, rfl⟩, hp, hg]

theorem pred1_eq_error {e : Refusal} (h : pred1 m q = .error e) :
    ∃ a, a ≤ q ∧ m.read a = none ∧ Refusal.unspecifiedByte .data a = e := by
  unfold pred1 at h
  split at h
  · exact ⟨q - 1, Nat.sub_le q 1, sample_eq_error.mp h⟩
  · cases h

/-- A residual that cannot be had names a byte at or below its position that holds no value (R316, U1). -/
theorem resid_eq_error {e : Refusal} (h : resid m q t = .error e) :
    ∃ a, a ≤ q ∧ m.read a = none ∧ Refusal.unspecifiedByte .data a = e := by
  cases hx : sample m q with
  | error e' =>
    simp only [resid, hx] at h
    exact Except.error.inj h ▸ ⟨q, le_rfl, sample_eq_error.mp hx⟩
  | ok x =>
    cases hp : pred1 m q with
    | error e' =>
      simp only [resid, pred, hx, hp] at h
      exact Except.error.inj h ▸ pred1_eq_error hp
    | ok p =>
      cases hg : grad m q t with
      | error e' =>
        simp only [resid, pred, hx, hp, hg] at h
        obtain ⟨a, ha, hread⟩ := grad_refused hg
        exact Except.error.inj h ▸ ⟨a, ha.le, hread⟩
      | ok g =>
        simp only [resid, pred, hx, hp, hg] at h
        cases h

/-- A buffer whose residuals can be had holds a value everywhere. -/
theorem Residuals.read_isSome (h : Residuals m t q xs) {a : Nat} (hlow : q ≤ a) (hhigh : a < q + xs.length) :
    (m.read a).isSome = true := by
  induction xs generalizing q with
  | nil => exact absurd hhigh (by rw [List.length_nil]; omega)
  | cons x xs ih =>
    obtain ⟨hx, hxs⟩ := h
    rw [List.length_cons] at hhigh
    rcases hlow.eq_or_lt with rfl | hlow
    · obtain ⟨byte, -, -, hread, -⟩ := resid_eq_ok.mp hx
      rw [hread]
      rfl
    · exact ih hxs hlow (by omega)

/-! ## The length of a chunk -/

theorem valueBits_length (w : Nat) (us : List Nat) : (valueBits w us).length = us.length * w := by
  induction us with
  | nil => exact (Nat.zero_mul w).symm
  | cons u us ih => rw [valueBits, List.length_append, toBits_length, ih, List.length_cons, Nat.succ_mul, Nat.add_comm]

theorem tokenCode_length (tok : Nat × List Nat) : (tokenCode tok).length = 10 + tok.2.length * tok.1 := by
  rw [tokenCode, List.length_append, List.length_append, toBits_length, toBits_length, valueBits_length]

theorem tokensCode_append (toks toks' : List (Nat × List Nat)) :
    tokensCode (toks ++ toks') = tokensCode toks ++ tokensCode toks' := by
  induction toks with
  | nil => rfl
  | cons tok toks ih => rw [List.cons_append, tokensCode, tokensCode, ih, List.append_assoc]

theorem chunkBits_append (a : BitVec 2) (b : BitVec 16) (toks : List (Nat × List Nat)) (tok : Nat × List Nat) :
    chunkBits a b (toks ++ [tok]) = chunkBits a b toks ++ tokenCode tok := by
  have hlast : tokensCode [tok] = tokenCode tok := List.append_nil _
  rw [chunkBits, tokensCode_append, hlast, chunkBits, List.append_assoc, List.append_assoc, List.append_assoc]

theorem chunkBits_length (a : BitVec 2) (b : BitVec 16) (toks : List (Nat × List Nat)) :
    (chunkBits a b toks).length = 18 + (tokensCode toks).length := by
  rw [chunkBits, List.length_append, List.length_append, toBits_length, toBits_length]

/-- A token takes at most 18 bits for each of its values: 8 bits of value, and 10 of its own (R193 (e)). -/
theorem residualToken_length_le (hrun : 1 ≤ run.length) :
    10 + run.length * runWidth run ≤ 18 * run.length := by
  have hwidth := Nat.mul_le_mul_left run.length (runWidth_le run)
  omega

theorem tokensCode_length_le {runs : List (List Int)} (hruns : ∀ run ∈ runs, 1 ≤ run.length) :
    (tokensCode (runs.map residualToken)).length ≤ 18 * runs.flatten.length := by
  induction runs with
  | nil => exact Nat.zero_le _
  | cons run runs ih =>
    have hfirst := residualToken_length_le (hruns run List.mem_cons_self)
    have hrest := ih fun run hrun => hruns run (List.mem_cons_of_mem _ hrun)
    have hcount : (residualToken run).2.length = run.length := List.length_map _
    rw [List.map_cons, tokensCode, List.length_append, tokenCode_length, hcount, List.flatten_cons, List.length_append]
    exact (Nat.add_le_add hfirst hrest).trans_eq (Nat.mul_add 18 _ _).symm

end

end Sys2Proof.Machine
end

section
/-! The packer in a session, with what the lines of ENC need of it (10_state.md R31, R32; 40_bitstream.md R132 to
R135). -/

namespace Sys2Proof.Machine

/-- The packer has appended `bits` since the session was opened, in whole words and the rest in `ACC`. -/
structure State.Session (s : State) (bits : List Bool) : Prop where
  packs : ∃ stored, s.Packs stored bits
  aligned : s.spos.toNat % 4 = 0
  acc_below : s.acc.toNat < 2 ^ s.fill.toNat

section
variable {s t : State} {bits : List Bool} {v n : Nat}

theorem State.Session.length (h : s.Session bits) : bits.length = 8 * s.spos.toNat + s.fill.toNat := by
  obtain ⟨stored, hpacks⟩ := h.packs
  exact hpacks.length

theorem bsWinit_session (s : State) : (bsWinit s).Session [] := ⟨⟨[], bsWinit_packs s⟩, rfl, Nat.one_pos⟩

/-- The session is the packer's, `STREAM`'s and `SLEN`'s alone. -/
theorem State.Session.of_frame (h : s.Session bits)
    (ht : t = { s with data := t.data, scratch := t.scratch, enc := t.enc }) : t.Session bits := by
  obtain ⟨⟨stored, hwhole, hstream, hsplit, hcounted, hslen⟩, haligned, hacc⟩ := h
  rw [ht]
  exact ⟨⟨stored, hwhole, hstream, hsplit, hcounted, hslen⟩, haligned, hacc⟩

theorem bsWrite_session (hn : n ≤ 32) (h : s.Session bits) (ht : bsWrite v n s = .ok t) :
    t.Session (bits ++ toBits n v) := by
  suffices hregs : t.spos.toNat % 4 = 0 ∧ t.acc.toNat < 2 ^ t.fill.toNat by
    obtain ⟨stored, hpacks⟩ := h.packs
    exact ⟨bsWrite_packs hn hpacks ht, hregs.1, hregs.2⟩
  have haligned := h.aligned
  have hfill := s.fill.isLt
  by_cases hroom : s.fill.toNat + n < 32
  · have hacc := append_bits_lt h.acc_below v n
    rw [bsWrite_room hroom] at ht
    obtain rfl := Res.ok.inj ht
    rw [State.setPacker_acc_toNat hroom hacc, State.setPacker_fill_toNat hroom]
    exact ⟨haligned, hacc⟩
  · have hrest : s.fill.toNat + n - 32 < 32 := by omega
    have hacc : v % 2 ^ n % 2 ^ (s.fill.toNat + n - 32) < 2 ^ (s.fill.toNat + n - 32) :=
      Nat.mod_lt _ (Nat.two_pow_pos _)
    rw [bsWrite_full (Nat.not_lt.mp hroom)] at ht
    obtain ⟨u, hu, ht⟩ := Res.andThen_eq_ok.mp ht
    obtain rfl := Res.ok.inj ht
    have hspos := emitWord_spos hu
    rw [State.setPacker_acc_toNat hrest hacc, State.setPacker_fill_toNat hrest, State.setPacker_spos]
    exact ⟨by omega, hacc⟩

/-- A word store lacks room only where the bits written and the new ones exceed `STREAM_CAP` (R133, R274). -/
theorem bsWrite_lacks_room {c : Cause} (h : s.Session bits) (ht : bsWrite v n s = .raise c t) :
    8 * s.cfg.streamBytes < bits.length + n := by
  have hlength := h.length
  obtain ⟨-, -, hfull⟩ := bsWrite_raise ht
  by_cases hroom : s.fill.toNat + n < 32
  · rw [bsWrite_room hroom] at ht
    cases ht
  · omega

/-- A flush has room where `STREAM_CAP` holds the session's bits in whole words. -/
theorem bsFlush_has_room (h : s.Session bits) (hroom : 4 * ((bits.length + 31) / 32) ≤ s.cfg.streamBytes) :
    ∃ t, bsFlush s = .ok t := by
  by_cases hpending : 0 < s.fill.toNat
  · have hlength := h.length
    have haligned := h.aligned
    obtain ⟨u, -, hflush⟩ := bsFlush_room hpending (by omega)
    exact ⟨_, hflush⟩
  · exact ⟨_, bsFlush_empty (BitVec.eq_of_toNat_eq (Nat.eq_zero_of_not_pos hpending))⟩

/-- After a flush the accumulator is empty, and the packer stands at the chunk's end (R134). -/
theorem bsFlush_empties (h : s.Session bits) (ht : bsFlush s = .ok t) :
    t.acc = 0 ∧ t.fill = 0 ∧ t.spos = t.slen := by
  rcases bsFlush_cases s with ⟨hfill, hflush⟩ | ⟨w, u, -, hflush⟩ | ⟨c, hflush⟩
  · obtain rfl := Res.ok.inj (hflush.symm.trans ht)
    have hacc := h.acc_below
    rw [hfill] at hacc
    refine ⟨BitVec.eq_of_toNat_eq (Nat.lt_one_iff.mp hacc), hfill, ?_⟩
    rw [State.setSlen_spos, State.setSlen_slen, BitVec.ofNat_toNat, BitVec.setWidth_eq]
  · obtain rfl := Res.ok.inj (hflush.symm.trans ht)
    exact ⟨rfl, rfl, (State.flushed_slen u _).symm⟩
  · cases hflush.symm.trans ht

/-- The chunk of a session: its length in bits and in bytes, and its bits with zeros behind them (R134, R135). -/
structure State.HoldsChunk (t : State) (bits : List Bool) : Prop where
  bitlen : t.bitlen.toNat = bits.length
  slen : t.slen.toNat = (bits.length + 7) / 8
  written : written t.stream 0 t.slen.toNat
  sbit : ∀ k, sbit t k = .ok (bits.getD k false)

theorem bsFlush_holdsChunk (h : s.Session bits) (ht : bsFlush s = .ok t) : t.HoldsChunk bits := by
  obtain ⟨stored, hpacks⟩ := h.packs
  obtain ⟨z, hz, hslen, hbits⟩ := bsFlush_holdsBits hpacks ht
  have hlength : (bits ++ List.replicate z false).length = 8 * t.slen.toNat := by
    rw [List.length_append, List.length_replicate, hslen]
  have hbitlen : t.bitlen = s.bitlen := (congrArg State.bitlen (bsFlush_frame ht) :)
  refine ⟨hbitlen ▸ hpacks.bitlen_toNat, by omega, fun a _ ha => ?_, fun k => ?_⟩
  · obtain ⟨byte, hread, -⟩ := hbits (8 * a) (by omega)
    rw [Nat.mul_div_cancel_left a (by decide)] at hread
    rw [hread]
    rfl
  · by_cases hk : k < 8 * t.slen.toNat
    · rw [hbits.sbit (hlength ▸ hk) hk]
      by_cases hkbits : k < bits.length
      · rw [List.getElem_append_left hkbits, List.getD_eq_getElem _ _ hkbits]
      · rw [List.getElem_append_right (Nat.not_lt.mp hkbits), List.getElem_replicate,
          List.getD_eq_default _ _ (Nat.not_lt.mp hkbits)]
    · rw [sbit_beyond (Nat.not_lt.mp hk), List.getD_eq_default _ _ (by omega)]

end

end Sys2Proof.Machine
end

section
/-! What ENC writes (42_encode.md R185 to R191): the header, and a token for each run of residuals, in order. It fails
only where the stream has no room for the most that a buffer of its length can take (R193 (e)), or where a byte of the
buffer holds no value (R316). -/

namespace Sys2Proof.Machine

/-- How a part of ENC ends that encodes `len` bytes of the deinterleaved buffer of `d`. -/
def Res.Writes (d : State) (len : Nat) (r : Res) (ok : State → Prop) : Prop :=
  match r with
  | .ok t => ok t
  | .raise _ _ => 8 * d.cfg.streamBytes < 18 + 18 * len
  | .refuse e => ∃ a, a < len ∧ d.data.read a = none ∧ Refusal.unspecifiedByte .data a = e

/-- ENC has written `bits` of the deinterleaved buffer of `d`. -/
structure State.HasWritten (d : State) (bits : List Bool) (s : State) : Prop where
  data : s.data = d.data
  cfg : s.cfg = d.cfg
  session : s.Session bits

/-- Besides the chunk of the emitted runs: the encoder's registers for these and for the pending run (R187). -/
structure State.Emitted (d : State) (a : BitVec 2) (b : BitVec 16) (runs : List (List Int)) (pending : List Int)
    (s : State) : Prop where
  chunk : d.HasWritten (chunkBits a b (runs.map residualToken)) s
  counts : ∀ run ∈ runs, 1 ≤ run.length ∧ run.length ≤ 127
  e : s.enc.e = runs.flatten.length
  cnt2 : s.enc.cnt2 = pending.length
  bits2 : s.enc.bits2 = runWidth pending
  pending_le : pending.length ≤ 127

/-- The registers of the current run as well (R186). -/
structure State.Running (d : State) (a : BitVec 2) (b : BitVec 16) (runs : List (List Int)) (pending current : List Int)
    (s : State) : Prop extends State.Emitted d a b runs pending s where
  cnt1 : s.enc.cnt1 = current.length
  bits1 : s.enc.bits1 = runWidth current
  current_le : current.length ≤ 127

/-- The residuals `rs` are emitted or pending: `close_current` has run (R190). -/
def State.Closed (d : State) (a : BitVec 2) (b : BitVec 16) (rs : List Int) (s : State) : Prop :=
  ∃ runs pending, runs.flatten ++ pending = rs ∧ d.Emitted a b runs pending s

/-- The residuals `rs` of the buffer are scanned (R186). -/
def State.Scanned (d : State) (a : BitVec 2) (b : BitVec 16) (rs : List Int) (s : State) : Prop :=
  s.enc.i = rs.length ∧ Residuals d.data (b.toNat + 1) 0 rs ∧
    ∃ runs pending current, runs.flatten ++ pending ++ current = rs ∧ d.Running a b runs pending current s

section
variable {d s t : State} {len : Nat} {P Q : State → Prop} {bits : List Bool}

theorem Res.Writes.andThen {r : Res} {f : State → Res} (h : r.Writes d len P)
    (hf : ∀ u, P u → (f u).Writes d len Q) : (r.andThen f).Writes d len Q := by
  cases r with
  | ok u => exact hf u h
  | raise c u => exact h
  | refuse e => exact h

theorem Res.Writes.mono {r : Res} (h : r.Writes d len P) (hPQ : ∀ u, P u → Q u) : r.Writes d len Q := by
  cases r with
  | ok u => exact hPQ u h
  | raise c u => exact h
  | refuse e => exact h

theorem State.HasWritten.enc (h : d.HasWritten bits s) (regs : EncRegs) : d.HasWritten bits { s with enc := regs } :=
  ⟨h.data, h.cfg, h.session.of_frame rfl⟩

/-! ## Writing -/

theorem bsWrite_writes {n : Nat} (v : Nat) (hn : n ≤ 32) (h : d.HasWritten bits s)
    (hroom : bits.length + n ≤ 18 + 18 * len) :
    (bsWrite v n s).Writes d len fun u => d.HasWritten (bits ++ toBits n v) u ∧ u.enc = s.enc := by
  cases hw : bsWrite v n s with
  | ok u =>
    have hframe := bsWrite_frame hw
    have hdata : u.data = s.data := (congrArg State.data hframe :)
    have hcfg : u.cfg = s.cfg := (congrArg State.cfg hframe :)
    exact ⟨⟨hdata.trans h.data, hcfg.trans h.cfg, bsWrite_session hn h.session hw⟩,
      (congrArg State.enc hframe :)⟩
  | raise c u =>
    have hlack := bsWrite_lacks_room h.session hw
    rw [h.cfg] at hlack
    exact hlack.trans_le hroom
  | refuse e => exact absurd hw (bsWrite_ne_refuse v n s e)

/-- The value loop writes the biased residuals (R189). -/
theorem writeValues_writes {t q w : Nat} {run : List Int} (hw : w ≤ 8) (hresid : Residuals d.data t q run)
    (h : d.HasWritten bits s) (hroom : bits.length + run.length * w ≤ 18 + 18 * len) :
    (writeValues t w run.length q s).Writes d len fun u =>
      d.HasWritten (bits ++ valueBits w (run.map fun r => (r + (bias w : Int)).toNat)) u ∧ u.enc = s.enc := by
  induction run generalizing q s bits with
  | nil => exact ⟨(List.append_nil bits).symm ▸ h, rfl⟩
  | cons r run ih =>
    obtain ⟨hr, hresid⟩ := hresid
    rw [List.length_cons, Nat.succ_mul] at hroom
    rw [List.length_cons, writeValues, h.data, hr]
    refine (bsWrite_writes _ (by omega) h (by omega)).andThen fun u ⟨hu, henc⟩ => ?_
    refine (ih hresid hu (by rw [List.length_append, toBits_length]; omega)).mono fun v ⟨hv, hvenc⟩ => ?_
    rw [List.map_cons, valueBits, ← List.append_assoc]
    exact ⟨hv, hvenc.trans henc⟩

theorem flushPending_writes {t : Nat} {run : List Int} (hresid : Residuals d.data t s.enc.e run)
    (hcount : s.enc.cnt2 = run.length) (hbits : s.enc.bits2 = runWidth run)
    (h : d.HasWritten bits s) (hroom : bits.length + (10 + run.length * runWidth run) ≤ 18 + 18 * len) :
    (flushPending t s).Writes d len fun u =>
      d.HasWritten (bits ++ tokenCode (residualToken run)) u ∧ u.enc = { s.enc with e := s.enc.e + run.length } := by
  rw [flushPending, hbits, hcount]
  have hhead := bsWrite_writes run.length (show 7 ≤ 32 by decide) h (show _ ≤ 18 + 18 * len by omega)
  have hcode := hhead.andThen (f := bsWrite (code (runWidth run)) 3) (Q := fun u =>
      d.HasWritten (bits ++ toBits 7 run.length ++ toBits 3 (code (runWidth run))) u ∧ u.enc = s.enc)
    fun u ⟨hu, henc⟩ => (bsWrite_writes _ (show 3 ≤ 32 by decide) hu
      (by rw [List.length_append, toBits_length]; omega)).mono fun v ⟨hv, hvenc⟩ => ⟨hv, hvenc.trans henc⟩
  have hvalues := hcode.andThen (f := writeValues t (runWidth run) run.length s.enc.e) (Q := fun u =>
      d.HasWritten (bits ++ tokenCode (residualToken run)) u ∧ u.enc = s.enc)
    fun u ⟨hu, henc⟩ => (writeValues_writes (runWidth_le run) hresid hu
      (by simp only [List.length_append, toBits_length]; omega)).mono fun v ⟨hv, hvenc⟩ => by
        refine ⟨?_, hvenc.trans henc⟩
        rw [tokenCode, residualToken, List.length_map, ← List.append_assoc, ← List.append_assoc]
        exact hv
  refine hvalues.andThen fun u ⟨hu, henc⟩ => ⟨hu.enc _, ?_⟩
  rw [State.emitted_enc, henc, hcount]

end

section
variable {d s : State} {a : BitVec 2} {b : BitVec 16} {len : Nat} {runs : List (List Int)}
  {pending current rs : List Int}

/-! ## The scan -/

/-- The pending run joins the emitted ones. -/
theorem State.Emitted.flushPending_writes (h : d.Emitted a b runs pending s) (hpending : 1 ≤ pending.length)
    (hlen : runs.flatten.length + pending.length ≤ len)
    (hresid : Residuals d.data (b.toNat + 1) 0 (runs.flatten ++ pending)) :
    (flushPending (b.toNat + 1) s).Writes d len fun u =>
      d.HasWritten (chunkBits a b ((runs ++ [pending]).map residualToken)) u ∧
      u.enc = { s.enc with e := s.enc.e + pending.length } := by
  rw [residuals_append, Nat.zero_add, ← h.e] at hresid
  have hchunk := tokensCode_length_le fun run hrun => (h.counts run hrun).1
  have htoken := residualToken_length_le hpending
  refine (Machine.flushPending_writes hresid.2 h.cnt2 h.bits2 h.chunk ?_).mono fun u hu => ?_
  · rw [chunkBits_length]
    omega
  · rw [List.map_append, List.map_singleton, chunkBits_append]
    exact hu

theorem counts_append (hruns : ∀ run ∈ runs, 1 ≤ run.length ∧ run.length ≤ 127)
    (hpending : 1 ≤ pending.length ∧ pending.length ≤ 127) :
    ∀ run ∈ runs ++ [pending], 1 ≤ run.length ∧ run.length ≤ 127 := by
  intro run hrun
  rcases List.mem_append.mp hrun with hrun | hrun
  · exact hruns run hrun
  · exact List.mem_singleton.mp hrun ▸ hpending

theorem flatten_append_singleton : (runs ++ [pending]).flatten = runs.flatten ++ pending := by
  rw [List.flatten_append, List.flatten_singleton]

/-- With nothing pending the merge is for free. -/
theorem State.Running.merges_empty (h : d.Running a b runs [] current s) : mergesWell s.enc = true := by
  have hcount := h.cnt2
  have hbits := h.bits2
  have hcurrent := h.current_le
  rw [← h.cnt1] at hcurrent
  rw [List.length_nil] at hcount
  have hwidth : runWidth [] = 0 := rfl
  rw [mergesWell_iff, hcount, hbits, hwidth, Nat.max_zero, Nat.add_zero]
  omega

/-- `close_current` leaves the current run pending, merged or alone (R190). -/
theorem closeCurrent_writes (h : d.Running a b runs pending current s)
    (hlen : (runs.flatten ++ pending ++ current).length ≤ len)
    (hresid : Residuals d.data (b.toNat + 1) 0 (runs.flatten ++ pending ++ current)) :
    (closeCurrent (b.toNat + 1) s).Writes d len fun u =>
      u.enc.i = s.enc.i ∧ d.Closed a b (runs.flatten ++ pending ++ current) u := by
  rw [List.length_append, List.length_append] at hlen
  by_cases hmerge : mergesWell s.enc = true
  · rw [closeCurrent_merges hmerge]
    obtain ⟨hcount, -⟩ := mergesWell_iff.mp hmerge
    rw [h.cnt1, h.cnt2] at hcount
    refine ⟨rfl, runs, pending ++ current, (List.append_assoc _ _ _).symm, h.chunk.enc _, h.counts, h.e, ?_, ?_, ?_⟩
    · rw [State.mergeRuns_enc, List.length_append, Nat.add_comm pending.length, ← h.cnt1, ← h.cnt2]
    · rw [State.mergeRuns_enc, runWidth_append, Nat.max_comm, h.bits1, h.bits2]
    · rwa [List.length_append, Nat.add_comm]
  · rw [closeCurrent_rotates hmerge]
    have hpending : 1 ≤ pending.length := by
      refine List.length_pos_iff.mpr ?_
      rintro rfl
      exact hmerge h.merges_empty
    refine (h.toEmitted.flushPending_writes hpending (by omega) (residuals_append.mp hresid).1).andThen
      fun u ⟨hu, henc⟩ => ?_
    refine ⟨?_, runs ++ [pending], current, by rw [flatten_append_singleton], hu.enc _,
      counts_append h.counts ⟨hpending, h.pending_le⟩, ?_, ?_, ?_, h.current_le⟩
    · rw [State.rotateRuns_enc, henc]
    · rw [State.rotateRuns_enc, henc, flatten_append_singleton, List.length_append, ← h.e]
    · rw [State.rotateRuns_enc, henc, ← h.cnt1]
    · rw [State.rotateRuns_enc, henc, ← h.bits1]

theorem State.Emitted.enc_i (h : d.Emitted a b runs pending s) (i : Nat) :
    d.Emitted a b runs pending { s with enc := { s.enc with i := i } } :=
  ⟨h.chunk.enc _, h.counts, h.e, h.cnt2, h.bits2, h.pending_le⟩

/-- A new current run. -/
theorem State.Emitted.setCurrent (h : d.Emitted a b runs pending s) (hcurrent : current.length ≤ 127) :
    d.Running a b runs pending current (s.setCurrent current.length (runWidth current)) :=
  ⟨⟨h.chunk.enc _, h.counts, h.e, h.cnt2, h.bits2, h.pending_le⟩, rfl, rfl, hcurrent⟩

/-- One more residual starts a run, lengthens the current one, or closes it and starts the next (R186). -/
theorem scanStep_writes (h : d.Scanned a b rs s) (hlen : rs.length < len) :
    (scanStep (b.toNat + 1) s).Writes d len fun u => ∃ r, d.Scanned a b (rs ++ [r]) u := by
  obtain ⟨hi, hscanned, runs, pending, current, rfl, hrun⟩ := h
  rw [scanStep, hrun.chunk.data, hi]
  generalize hrs : runs.flatten ++ pending ++ current = rs at *
  cases hr : resid d.data rs.length (b.toNat + 1) with
  | error e =>
    obtain ⟨x, hx, hread⟩ := resid_eq_error hr
    exact ⟨x, hx.trans_lt hlen, hread⟩
  | ok r =>
    have hresid : Residuals d.data (b.toNat + 1) 0 (rs ++ [r]) :=
      residuals_append.mpr ⟨hscanned, residuals_singleton.mpr ((Nat.zero_add rs.length).symm ▸ hr)⟩
    have hnext : s.scanned.enc.i = (rs ++ [r]).length := by
      rw [State.scanned_enc, hi, List.length_append, List.length_singleton]
    have hemitted : d.Emitted a b runs pending s.scanned := hrun.toEmitted.enc_i _
    dsimp only
    rw [← runWidth_singleton]
    split
    · next hempty =>
      have hcurrent : current = [] := List.eq_nil_of_length_eq_zero (hrun.cnt1.symm.trans hempty)
      rw [hcurrent, List.append_nil] at hrs
      exact ⟨r, hnext, hresid, runs, pending, [r], by rw [hrs], hemitted.setCurrent (show 1 ≤ 127 by decide)⟩
    · split
      · next hlonger =>
        obtain ⟨hroom, hwidth⟩ := hlonger
        have hcount : s.scanned.enc.cnt1 + 1 = (current ++ [r]).length := by
          rw [List.length_append, List.length_singleton, ← hrun.cnt1]
          rfl
        have hbits : runWidth [r] = runWidth (current ++ [r]) := by
          rw [runWidth_append, ← hrun.bits1, hwidth]
          exact (Nat.max_self _).symm
        rw [hbits, hcount]
        refine ⟨r, hnext, hresid, runs, pending, current ++ [r], by rw [← List.append_assoc, hrs], ?_⟩
        exact hemitted.setCurrent (hcount ▸ hroom)
      · have hrunning : d.Running a b runs pending current s.scanned :=
          ⟨hemitted, hrun.cnt1, hrun.bits1, hrun.current_le⟩
        have hclose := closeCurrent_writes hrunning (hrs ▸ hlen.le) (hrs ▸ hscanned)
        refine hclose.andThen fun u ⟨hui, hclosed⟩ => ?_
        rw [hrs] at hclosed
        obtain ⟨runs', pending', hrs', hu⟩ := hclosed
        exact ⟨r, hui.trans hnext, hresid, runs', pending', [r], by rw [hrs'],
          hu.setCurrent (show 1 ≤ 127 by decide)⟩

theorem scan_writes (k : Nat) (h : d.Scanned a b rs s) (hlen : rs.length + k ≤ len) :
    (scan (b.toNat + 1) k s).Writes d len fun u => ∃ rs', rs'.length = rs.length + k ∧ d.Scanned a b rs' u := by
  induction k generalizing rs s with
  | zero => exact ⟨rs, rfl, h⟩
  | succ k ih =>
    refine (scanStep_writes h (by omega)).andThen fun u ⟨r, hu⟩ => ?_
    have hlength : (rs ++ [r]).length = rs.length + 1 := by rw [List.length_append, List.length_singleton]
    refine (ih hu (by omega)).mono fun v ⟨rs', hrs', hv⟩ => ⟨rs', by omega, hv⟩

/-! ## The chunk -/

/-- The chunk of all `len` residuals is written: runs of `1 .. 127` of them, in order (R193 (a) to (c)). -/
def State.WroteRuns (d : State) (a : BitVec 2) (b : BitVec 16) (len : Nat) (runs : List (List Int))
    (s : State) : Prop :=
  (∀ run ∈ runs, 1 ≤ run.length ∧ run.length ≤ 127) ∧ runs.flatten.length = len ∧
    Residuals d.data (b.toNat + 1) 0 runs.flatten ∧ d.HasWritten (chunkBits a b (runs.map residualToken)) s

theorem flushRest_writes (h : d.Closed a b rs s) (hlen : rs.length = len)
    (hresid : Residuals d.data (b.toNat + 1) 0 rs) :
    (flushRest (b.toNat + 1) s).Writes d len fun u => ∃ runs, d.WroteRuns a b len runs u := by
  obtain ⟨runs, pending, rfl, hs⟩ := h
  have hlengths := hlen
  rw [List.length_append] at hlengths
  unfold flushRest
  split
  · next hempty =>
    obtain rfl : pending = [] := List.eq_nil_of_length_eq_zero (hs.cnt2.symm.trans hempty)
    rw [List.append_nil] at hlen hresid
    exact ⟨runs, hs.counts, hlen, hresid, hs.chunk⟩
  · next hpending =>
    rw [hs.cnt2, ← Ne, ← Nat.one_le_iff_ne_zero] at hpending
    refine (hs.flushPending_writes hpending (by omega) hresid).mono fun u ⟨hu, _⟩ => ?_
    rw [← flatten_append_singleton] at hlen hresid
    exact ⟨runs ++ [pending], counts_append hs.counts ⟨hpending, hs.pending_le⟩, hlen, hresid, hu⟩

/-- The header (R185). -/
theorem writeHeader_writes (d : State) (a : BitVec 2) (b : BitVec 16) (len : Nat) :
    ((bsWrite a.toNat 2 (bsWinit d)).andThen (bsWrite b.toNat 16)).Writes d len (d.HasWritten (chunkBits a b [])) := by
  have hempty : d.HasWritten [] (bsWinit d) := ⟨rfl, rfl, bsWinit_session d⟩
  have hskip := bsWrite_writes a.toNat (show 2 ≤ 32 by decide) hempty (show 0 + 2 ≤ 18 + 18 * len by omega)
  refine hskip.andThen fun u ⟨hu, _⟩ => ?_
  refine (bsWrite_writes b.toNat (show 16 ≤ 32 by decide) hu (show 2 + 16 ≤ 18 + 18 * len by omega)).mono
    fun v ⟨hv, _⟩ => ?_
  rw [chunkBits, tokensCode, List.append_nil]
  exact hv

/-- Steps 2 to 4 of ENC (R185, R186, R191). -/
theorem encodeBody_writes (d : State) (a : BitVec 2) (b : BitVec 16) (len : Nat) :
    (encodeBody (a.toNat + 1) (b.toNat + 1) len d).Writes d len fun u => ∃ runs, d.WroteRuns a b len runs u := by
  have hopen := (writeHeader_writes d a b len).andThen (f := fun u => .ok { u with enc := {} })
    (Q := d.Scanned a b []) fun u hu => ⟨rfl, trivial, [], [], [], rfl,
      ⟨hu.enc _, nofun, rfl, rfl, rfl, Nat.zero_le _⟩, rfl, rfl, Nat.zero_le _⟩
  have hscan := hopen.andThen fun u hu => scan_writes len hu (Nat.zero_add len).le
  have hclose := hscan.andThen (f := closeCurrent (b.toNat + 1)) (Q := fun u => ∃ rs : List Int, rs.length = len ∧
      Residuals d.data (b.toNat + 1) 0 rs ∧ d.Closed a b rs u) fun u ⟨rs, hlength, hu⟩ => by
    obtain ⟨-, hresid, runs, pending, current, rfl, hrun⟩ := hu
    have hlen := hlength.trans (Nat.zero_add len)
    exact (closeCurrent_writes hrun hlen.le hresid).mono fun v ⟨_, hv⟩ => ⟨_, hlen, hresid, hv⟩
  exact hclose.andThen fun u ⟨rs, hlen, hresid, hu⟩ => flushRest_writes hu hlen hresid

end

end Sys2Proof.Machine
end

section
/-! What a completed ENC has left in the packer and in `STREAM`, and when ENC completes (42_encode.md R180, R192,
R193 (e); 70_reset_and_hazards.md R316). -/

namespace Sys2Proof.Machine

section
variable {s t d : State} {bits : List Bool} {stride block len : Nat}

theorem State.Transposed.session (h : s.Transposed len t) (hs : s.Session bits) : t.Session bits := by
  rw [h.frame]
  exact hs.of_frame rfl

theorem State.HoldsChunk.endEncode (h : s.HoldsChunk bits) : s.endEncode.HoldsChunk bits :=
  ⟨h.bitlen, h.slen, h.written, fun k => (sbit_congr rfl rfl k).trans (h.sbit k)⟩

/-- ENC has left the chunk of the runs `runs`, which carry the residuals of the deinterleaved buffer of `d` in order
(R193 (a) to (d)). -/
structure State.EncodedRuns (s d : State) (runs : List (List Int)) (t : State) : Prop where
  counts : ∀ run ∈ runs, 1 ≤ run.length ∧ run.length ≤ 127
  length : runs.flatten.length = s.dlen.toNat
  residuals : Residuals d.data s.stripLen 0 runs.flatten
  chunk : t.HoldsChunk (chunkBits s.skip s.strip (runs.map residualToken))

theorem encodeBody_wrote {u : State} (h : encodeBody s.stride s.stripLen s.dlen.toNat d = .ok u) :
    ∃ runs, d.WroteRuns s.skip s.strip s.dlen.toNat runs u := by
  have hwrites := encodeBody_writes d s.skip s.strip s.dlen.toNat
  rw [← State.stride, ← State.stripLen, h] at hwrites
  exact hwrites

theorem encodeRest_encodedRuns (h : encodeRest s d = .ok t) : ∃ runs, s.EncodedRuns d runs t := by
  obtain ⟨u, v, w, hu, hv, hw, rfl⟩ := encodeRest_eq_ok h
  obtain ⟨runs, hcounts, hlength, hresid, hwritten⟩ := encodeBody_wrote hu
  exact ⟨runs, hcounts, hlength, hresid,
    (bsFlush_holdsChunk ((reint_transposed hv).session hwritten.session) hw).endEncode⟩

theorem encodeRest_empties (h : encodeRest s d = .ok t) : t.acc = 0 ∧ t.fill = 0 ∧ t.spos = t.slen := by
  obtain ⟨u, v, w, hu, hv, hw, rfl⟩ := encodeRest_eq_ok h
  obtain ⟨runs, -, -, -, hwritten⟩ := encodeBody_wrote hu
  exact (bsFlush_empties ((reint_transposed hv).session hwritten.session) hw :)

/-- The chunk of `DLEN` bytes takes at most `18 + 18 * DLEN` bits (R193 (e)). -/
theorem State.EncodedRuns.bits_le {runs : List (List Int)} (h : s.EncodedRuns d runs t) :
    (chunkBits s.skip s.strip (runs.map residualToken)).length ≤ 18 + 18 * s.dlen.toNat := by
  rw [chunkBits_length, ← h.length]
  exact Nat.add_le_add_left (tokensCode_length_le fun run hrun => (h.counts run hrun).1) 18

/-! ## When ENC completes -/

/-- With room for the most that the buffer can take, ENC completes, or it needs a byte of its input that is not
there. -/
theorem encodeRest_with_room (hd : deint s.stride s.block.toNat s.dlen.toNat s = .ok d)
    (hfits : scratchFits s s.stride s.dlen.toNat)
    (hroom : 4 * ((18 + 18 * s.dlen.toNat + 31) / 32) ≤ s.cfg.streamBytes) :
    (∃ t, encodeRest s d = .ok t) ∨
    ∃ a, a < s.dlen.toNat ∧ d.data.read a = none ∧ encodeRest s d = .refuse (.unspecifiedByte .data a) := by
  have hdcfg : d.cfg = s.cfg := (congrArg State.cfg (deint_transposed hd).frame :)
  have hwrites := encodeBody_writes d s.skip s.strip s.dlen.toNat
  rw [← State.stride, ← State.stripLen] at hwrites
  cases hu : encodeBody s.stride s.stripLen s.dlen.toNat d with
  | ok u =>
    rw [hu] at hwrites
    obtain ⟨runs, hcounts, hlength, -, hwritten⟩ := hwrites
    have hbits := tokensCode_length_le fun run hrun => (hcounts run hrun).1
    have hucfg : u.cfg = s.cfg := hwritten.cfg.trans hdcfg
    obtain ⟨v, hv, htransposed⟩ := transpose_completes (s := u) reintWindow_moves
      (hucfg ▸ scratchFits_iff.mp hfits)
    have hvcfg : v.cfg = s.cfg := (congrArg State.cfg htransposed.frame).trans hucfg
    obtain ⟨w, hw⟩ := bsFlush_has_room (htransposed.session hwritten.session) (by
      rw [hvcfg, chunkBits_length]
      omega)
    exact .inl ⟨w.endEncode, by rw [encodeRest, hu, Res.ok_andThen, reint, hv, Res.ok_andThen, hw, Res.ok_andThen]⟩
  | raise c u =>
    rw [hu] at hwrites
    have hlack : 8 * d.cfg.streamBytes < 18 + 18 * s.dlen.toNat := hwrites
    rw [hdcfg] at hlack
    omega
  | refuse e =>
    rw [hu] at hwrites
    obtain ⟨a, ha, hread, rfl⟩ := hwrites
    exact .inr ⟨a, ha, hread, by rw [encodeRest, hu]; rfl⟩

/-- The deinterleaved buffer is written only where the buffer was (R169). -/
theorem written_of_deint (hstride : 0 < stride) (h : deint stride block len s = .ok d)
    (hwritten : written d.data 0 len) : written s.data 0 len := by
  have hperm := (deintWindow_movesBytes hstride).transpose_perm h
  intro a _ ha
  have hmem : s.data.read a ∈ (List.range len).map s.data.read := List.mem_map_of_mem (List.mem_range.mpr ha)
  obtain ⟨x, hx, hread⟩ := List.mem_map.mp (hperm.mem_iff.mpr hmem)
  rw [← hread]
  exact hwritten x (Nat.zero_le x) (List.mem_range.mp hx)

theorem State.EncodedRuns.written {runs : List (List Int)} (h : s.EncodedRuns d runs t) :
    written d.data 0 s.dlen.toNat := fun _ hlow hhigh =>
  h.residuals.read_isSome hlow (by rwa [Nat.zero_add, h.length])

end

/-- Settles O40: the two ends that ENC has with room; in the first the input is written, in the second it is not. -/
theorem encCompletes : Obligations.EncCompletes := by
  intro s hfault hfits hroom
  obtain ⟨d, hd, -⟩ := transpose_completes deintWindow_moves (scratchFits_iff.mp hfits)
  rw [exec_enc_deinterleaved hfault hd]
  rcases encodeRest_with_room hd hfits hroom with ⟨t, ht⟩ | ⟨a, ha, hread, ht⟩
  · obtain ⟨runs, hruns⟩ := encodeRest_encodedRuns ht
    rw [ht]
    refine ⟨fun _ => ⟨t, rfl, ?_, encodeRest_data hd ht, ?_, ?_, hruns.chunk.written⟩, fun hunwritten => ?_⟩
    · obtain ⟨hacc, hfill, hspos⟩ := encodeRest_empties ht
      have hframe := encodeRest_frame hd ht
      rwa [hacc, hfill, hspos] at hframe
    · exact hruns.chunk.bitlen.trans_le hruns.bits_le
    · rw [hruns.chunk.slen, hruns.chunk.bitlen]
    · exact absurd (written_of_deint s.stride_pos hd hruns.written) hunwritten
  · rw [ht]
    refine ⟨fun hwritten => ?_, fun _ => ⟨a, ha, rfl⟩⟩
    have hsome := deint_written s.stride_pos hd hwritten a (Nat.zero_le a) ha
    rw [hread] at hsome
    cases hsome

end Sys2Proof.Machine
end

section
/-! The bytes that DEC has stored, as a list (43_decode.md R220, R224, R225). -/

namespace Sys2Proof.Machine

/-- The bytes of a memory from address 0 on begin with the given ones. -/
def Memory.HoldsBytes (m : Memory) (q : List Byte) : Prop := ∀ j, j < q.length → m.read j = q[j]?

section
variable {m m' : Memory} {q : List Byte} {x : Byte} {j t w : Nat}

theorem Memory.HoldsBytes.read (h : m.HoldsBytes q) (hj : j < q.length) : m.read j = some (q.getD j 0) := by
  rw [h j hj, List.getD_eq_getElem _ _ hj, List.getElem?_eq_getElem hj]

theorem Memory.HoldsBytes.sample (h : m.HoldsBytes q) (hj : j < q.length) :
    sample m j = .ok ((q.getD j 0).toNat : Int) :=
  sample_eq_ok.mpr ⟨_, h.read hj, rfl⟩

/-- One byte more. -/
theorem Memory.HoldsBytes.concat (h : m.HoldsBytes q) (hsame : ∀ j, j < q.length → m'.read j = m.read j)
    (hx : m'.read q.length = some x) : m'.HoldsBytes (q ++ [x]) := by
  intro j hj
  rw [List.length_append, List.length_singleton] at hj
  rcases (Nat.le_of_lt_succ hj).lt_or_eq with hlow | rfl
  · rw [hsame j hlow, h j hlow, List.getElem?_append_left hlow]
  · rw [hx, List.getElem?_concat_length]

theorem Memory.HoldsBytes.write (h : m.HoldsBytes q) (x : Byte) : (m.write q.length x).HoldsBytes (q ++ [x]) :=
  h.concat (fun _ hj => Memory.read_write_other x hj.ne) (Memory.read_write_same m _ x)

/-- The gradient and the first-order prediction behind the bytes (R181). -/
theorem Memory.HoldsBytes.grad (h : m.HoldsBytes q) (t : Nat) : grad m q.length t = .ok (listGrad q t) := by
  unfold Machine.grad listGrad
  split
  · rw [sampleDiff, h.sample (by omega), h.sample (by omega)]
  · rfl

theorem Memory.HoldsBytes.pred1 (h : m.HoldsBytes q) : pred1 m q.length = .ok ((q.getLastD 0).toNat : Int) := by
  unfold Machine.pred1
  split
  · rw [h.sample (by omega), List.getLastD_eq_getLast?, List.getLast?_eq_getElem?, List.getD_eq_getElem?_getD]
  · next hempty =>
    obtain rfl : q = [] := List.eq_nil_of_length_eq_zero (by omega)
    rfl

theorem listAppend_length (t w : Nat) (q : List Byte) (u : Nat) : (listAppend t w q u).length = q.length + 1 :=
  List.length_append

theorem foldl_listAppend_length (t w : Nat) (us : List Nat) (q : List Byte) :
    (us.foldl (listAppend t w) q).length = q.length + us.length := by
  induction us generalizing q with
  | nil => rfl
  | cons u us ih => rw [List.foldl_cons, ih, listAppend_length, List.length_cons, Nat.add_assoc, Nat.add_comm 1]

theorem listDecode_length (t : Nat) (toks : List (Nat × List Nat)) (q : List Byte) :
    (listDecode t toks q).length = q.length + tokensCount toks := by
  induction toks generalizing q with
  | nil => rfl
  | cons tok toks ih => rw [listDecode, ih, foldl_listAppend_length, tokensCount, Nat.add_assoc]

end

end Sys2Proof.Machine
end

section
/-! The token at DEC's cursor (30_encoding.md R99; 43_decode.md R220, R230 to R237). -/

namespace Sys2Proof.Machine

section
variable {s : State} {us : List Nat} {k c n : Nat}

theorem fieldBits_ofNat (k : Nat) (us : List Nat) : fieldBits (us.map (BitVec.ofNat k)) = valueBits k us := by
  induction us with
  | nil => rfl
  | cons u us ih => rw [List.map_cons, fieldBits, ih, BitVec.toNat_ofNat, toBits_mod (Nat.le_refl k), valueBits]

theorem map_toNat_ofNat (h : ∀ u ∈ us, u < 2 ^ k) : (us.map (BitVec.ofNat k)).map BitVec.toNat = us := by
  rw [List.map_map]
  exact (List.map_congr_left fun u hu => Nat.mod_eq_of_lt (h u hu)).trans (List.map_id us)

/-- The token at the cursor is found and is a run of its width with its fields. -/
def State.FindsToken (s : State) (tok : Nat × List Nat) : Prop :=
  ∃ el, fetchToken s = .found el ∧ execElement el s = runToken tok.1 tok.2 s

/-- A run form with value fields, all of which fit in `DATA`. -/
theorem findsToken_of_fields (mk : List (BitVec k) → StreamElement) (hc : code k = c) (hc8 : c < 8)
    (hk : codeWidth c = k) (hdecode : ∀ n bs, Sys2Proof.decodeRun n c bs = decodeValues n bs mk)
    (hexec : ∀ vs, execElement (mk vs) s = runToken k (vs.map BitVec.toNat) s) (hlow : 1 ≤ us.length)
    (hhigh : us.length ≤ 127) (hfits : ∀ u ∈ us, u < 2 ^ k) (hroom : s.dec.n + us.length ≤ s.cfg.dataBytes)
    (h : streamHolds s s.rpos (tokenCode (k, us))) : s.FindsToken (k, us) := by
  have hlength : (us.map (BitVec.ofNat k)).length = us.length := List.length_map _
  have hbits : runBits c (us.map (BitVec.ofNat k)) = tokenCode (k, us) := by
    rw [runBits, fieldBits_ofNat, hlength, tokenCode, hc]
  obtain ⟨vs, hvs, hsame, hfound⟩ := fetchToken_run (us.map (BitVec.ofNat k)) mk hc8 hk hdecode
    (hlength.symm ▸ hlow) (hlength.symm ▸ hhigh) (by
      rw [hbits, List.take_of_length_le]
      · exact h
      · rw [tokenCode_length, hlength, Nat.min_eq_left (by omega), Nat.mul_comm])
  rw [List.take_of_length_le (by omega), List.take_of_length_le (by omega)] at hsame
  refine ⟨mk vs, hfound, ?_⟩
  rw [hexec, hsame, map_toNat_ofNat hfits]

/-- The run form without value bits (R230). -/
theorem findsToken_of_count (hlow : 1 ≤ n) (hhigh : n ≤ 127)
    (h : streamHolds s s.rpos (toBits 7 n ++ toBits 3 0)) : s.FindsToken (0, List.replicate n 0) := by
  obtain ⟨hcount, hcode⟩ := streamHolds_append h
  simp only [streamHolds_iff, toBits_length] at hcount hcode
  have hn : n % 2 ^ 7 = n := Nat.mod_eq_of_lt (by omega)
  have hne : n ≠ 0 := by omega
  refine ⟨.runW0 (BitVec.ofNat 7 n), ?_, ?_⟩
  · have hnoValues : codeWidth (0 % 2 ^ 3) * valuesReached s n = 0 := Nat.zero_mul _
    have hnoRest : codeWidth (0 % 2 ^ 3) * (n - valuesReached s n) = 0 := Nat.zero_mul _
    have hpeek (p : Nat) : peekBits s 0 p = .ok [] := rfl
    have hdecode : decodeToken (toBits 7 n ++ toBits 3 0) = .ok (.runW0 (BitVec.ofNat 7 n), []) := by
      have htoken := takeField_toBits 7 0 n (toBits 3 0)
      have hform := takeField_toBits 3 0 0 []
      rw [Nat.zero_mul, Nat.zero_add, hn] at htoken
      rw [List.append_nil] at hform
      simp only [decodeToken, htoken, hne, if_false, hform]
      rfl
    simp only [fetchToken, hcount, hcode, ofBits_toBits, hn, hne, if_false, fetchRun, hnoValues, hnoRest, hpeek,
      List.replicate_zero, List.append_nil, hdecode, Element.ofDecode]
  · change runToken 0 (List.replicate (n % 2 ^ 7) 0) s = _
    rw [hn]

theorem findsToken {tok : Nat × List Nat} (hok : tokenOk tok) (hroom : s.dec.n + tok.2.length ≤ s.cfg.dataBytes)
    (h : streamHolds s s.rpos (tokenCode tok)) : s.FindsToken tok := by
  obtain ⟨w, us⟩ := tok
  obtain ⟨hwidth, hlow, hhigh, hfits⟩ := hok
  simp only [List.mem_cons, List.not_mem_nil, or_false] at hwidth
  rcases hwidth with rfl | rfl | rfl | rfl | rfl | rfl | rfl | rfl
  · have hzeros : us = List.replicate us.length 0 :=
      List.eq_replicate_iff.mpr ⟨rfl, fun u hu => Nat.lt_one_iff.mp (hfits u hu)⟩
    rw [hzeros]
    exact findsToken_of_count hlow hhigh (streamHolds_append h).1
  all_goals
    exact findsToken_of_fields _ rfl (by decide) rfl (fun _ _ => rfl) (fun _ => rfl) hlow hhigh hfits hroom h

/-- The END at the cursor: a count field of 0 (R108). -/
theorem fetchToken_end (h : streamHolds s s.rpos (toBits 7 0)) : fetchToken s = .found .endMark := by
  rw [streamHolds_iff, toBits_length] at h
  simp only [fetchToken, h, ofBits_toBits]
  rfl

/-- The header at the cursor (R98). -/
theorem fetchHeader_found_of_streamHolds {a : BitVec 2} {b : BitVec 16}
    (h : streamHolds s s.rpos (toBits 2 a.toNat ++ toBits 16 b.toNat)) : fetchHeader s = .found (.hdr a b) := by
  have hpeek := streamHolds_iff.mp h
  rw [List.length_append, toBits_length, toBits_length] at hpeek
  have hskip := takeField_toBits 2 0 a.toNat (toBits 16 b.toNat)
  have hstrip := takeField_toBits 16 0 b.toNat []
  rw [Nat.zero_mul, Nat.zero_add, Nat.mod_eq_of_lt a.isLt] at hskip
  rw [Nat.zero_mul, Nat.zero_add, Nat.mod_eq_of_lt b.isLt, List.append_nil] at hstrip
  simp only [fetchHeader, hpeek, decodeHeader, hskip, hstrip, Element.ofDecode, BitVec.ofNat_toNat, BitVec.setWidth_eq]

end

end Sys2Proof.Machine
end

section
/-! DEC on a chunk of tokens: element by element, it stores the bytes of the list decoder (43_decode.md R220 to
R228). -/

namespace Sys2Proof.Machine

/-- DEC of the stream of `s` stands at bit `p` between two elements, with the header's fields read and `q` decoded. -/
structure State.Decoding (s : State) (a : BitVec 2) (b : BitVec 16) (p : Nat) (q : List Byte) (u : State) : Prop where
  frame : u = { s with
    skip := a, strip := b, underrun := false, rpos := p, phase := .tokens, data := u.data, dec := u.dec }
  count : u.dec.n = q.length
  last : u.dec.act = q.getLastD 0
  skip : u.dec.hs = a.toNat + 1
  strip : u.dec.ht = b.toNat + 1
  bytes : u.data.HoldsBytes q

section
variable {s u : State} {a : BitVec 2} {b : BitVec 16} {p n : Nat} {q : List Byte} {us : List Nat}
  {toks : List (Nat × List Nat)}

theorem State.Decoding.rpos (h : s.Decoding a b p q u) : u.rpos = p := (congrArg State.rpos h.frame :)
theorem State.Decoding.phase (h : s.Decoding a b p q u) : u.phase = .tokens := (congrArg State.phase h.frame :)
theorem State.Decoding.cfg (h : s.Decoding a b p q u) : u.cfg = s.cfg := (congrArg State.cfg h.frame :)
theorem State.Decoding.slen (h : s.Decoding a b p q u) : u.slen = s.slen := (congrArg State.slen h.frame :)

theorem State.Decoding.streamHolds {bits : List Bool} (h : s.Decoding a b p q u) (hbits : streamHolds s p bits) :
    streamHolds u u.rpos bits := by
  rw [h.rpos]
  intro k hk
  have hstream : u.stream = s.stream := (congrArg State.stream h.frame :)
  exact (sbit_congr h.slen hstream _).trans (hbits k hk)

/-- A read that stays inside the stream (R227). -/
theorem State.Decoding.read (h : s.Decoding a b p q u) (hinside : p + n ≤ 8 * s.slen.toNat) :
    ∃ v, checkUnderrun (consume n u) = .ok v ∧ s.Decoding a b (p + n) q v ∧ v.dec = u.dec := by
  have hunder : u.underrun = false := (congrArg State.underrun h.frame :)
  have hconsume := consume_inside hunder (n := n) (by rwa [h.rpos, h.slen])
  rw [h.rpos] at hconsume
  have hframe := congrArg (fun v : State => { v with rpos := p + n }) h.frame
  exact ⟨_, checkUnderrun_eq_ok.mpr ⟨hconsume ▸ hunder, hconsume⟩,
    ⟨hframe, h.count, h.last, h.skip, h.strip, h.bytes⟩, rfl⟩

/-- A value with room in `DATA` (R225, R226). -/
theorem State.Decoding.expandValue (h : s.Decoding a b p q u) (hroom : q.length < s.cfg.dataBytes) (x : Nat) :
    ∃ v, expandValue x u = .ok v ∧ s.Decoding a b p (listAppend (b.toNat + 1) u.dec.bits q x) v ∧
      v.dec.bits = u.dec.bits := by
  have hgrad := h.bytes.grad (b.toNat + 1)
  rw [← h.count, ← h.strip] at hgrad
  refine ⟨u.append (reconstruct u.dec.act (listGrad q (b.toNat + 1)) x u.dec.bits), ?_,
    ⟨?_, ?_, ?_, h.skip, h.strip, ?_⟩, rfl⟩
  · rw [Machine.expandValue, if_neg (by rw [h.cfg, h.count]; omega), hgrad, h.strip]
  · exact congrArg (fun v : State => { v with
      data := u.data.write u.dec.n (reconstruct u.dec.act (listGrad q (b.toNat + 1)) x u.dec.bits)
      dec := { u.dec with
        act := reconstruct u.dec.act (listGrad q (b.toNat + 1)) x u.dec.bits, n := u.dec.n + 1 } }) h.frame
  · rw [listAppend_length, ← h.count]
    rfl
  · rw [listAppend, List.getLastD_concat, ← h.last]
    rfl
  · rw [State.append_data, h.count, h.last]
    exact h.bytes.write _

theorem State.Decoding.expandValues (h : s.Decoding a b p q u)
    (hinside : p + us.length * u.dec.bits ≤ 8 * s.slen.toNat) (hroom : q.length + us.length ≤ s.cfg.dataBytes) :
    ∃ v, expandValues us u = .ok v ∧
      s.Decoding a b (p + us.length * u.dec.bits) (us.foldl (listAppend (b.toNat + 1) u.dec.bits) q) v := by
  induction us generalizing p q u with
  | nil => exact ⟨u, rfl, by rwa [List.length_nil, Nat.zero_mul]⟩
  | cons x us ih =>
    rw [List.length_cons] at hinside hroom
    rw [Nat.succ_mul] at hinside
    obtain ⟨v, hv, hread, hvdec⟩ := h.read (n := u.dec.bits) (by omega)
    obtain ⟨w, hw, hvalue, hwbits⟩ := hread.expandValue (by omega) x
    rw [hvdec] at hvalue hwbits
    obtain ⟨z, hz, hrest⟩ := ih hvalue (by rw [hwbits]; omega) (by rw [listAppend_length]; omega)
    refine ⟨z, ?_, ?_⟩
    · rw [Machine.expandValues, hv, Res.ok_andThen, hw, Res.ok_andThen, hz]
    · rw [List.length_cons, Nat.succ_mul, Nat.add_comm (us.length * _), ← Nat.add_assoc]
      rw [hwbits] at hrest
      exact hrest

/-- A whole RUN token (R224). -/
theorem State.Decoding.token (h : s.Decoding a b p q u) {tok : Nat × List Nat} (hok : tokenOk tok)
    (hbits : Machine.streamHolds s p (tokenCode tok)) (hinside : p + (tokenCode tok).length ≤ 8 * s.slen.toNat)
    (hroom : q.length + tok.2.length ≤ s.cfg.dataBytes) :
    ∃ v, decodeStep u = .next v ∧
      s.Decoding a b (p + (tokenCode tok).length) (tok.2.foldl (listAppend (b.toNat + 1) tok.1) q) v := by
  obtain ⟨el, hfound, hexec⟩ := findsToken hok (by rwa [h.cfg, h.count]) (h.streamHolds hbits)
  rw [tokenCode_length] at hinside ⊢
  obtain ⟨v, hv, hcount, hvdec⟩ := h.read (n := 7) (by omega)
  obtain ⟨w, hw, hcode, hwdec⟩ := hcount.read (n := 3) (by omega)
  have hstart : s.Decoding a b (p + 7 + 3) q (w.startToken tok.2.length tok.1) :=
    ⟨congrArg (fun v : State => { v with dec := { w.dec with cnt := tok.2.length, bits := tok.1 } }) hcode.frame,
      hcode.count, hcode.last, hcode.skip, hcode.strip, hcode.bytes⟩
  obtain ⟨z, hz, hvalues⟩ := hstart.expandValues (us := tok.2)
    (by rw [State.startToken_dec]; dsimp only; omega) hroom
  refine ⟨z, ?_, ?_⟩
  · simp only [decodeStep, h.phase, hfound, runElement, hexec, runToken, hv, Res.ok_andThen, hw, hz, Res.ok_answer]
  · rw [State.startToken_dec] at hvalues
    rw [← Nat.add_assoc p 10]
    exact hvalues

theorem State.Decoding.tokens (h : s.Decoding a b p q u) (hok : ∀ tok ∈ toks, tokenOk tok)
    (hbits : Machine.streamHolds s p (tokensCode toks)) (hinside : p + (tokensCode toks).length ≤ 8 * s.slen.toNat)
    (hroom : q.length + tokensCount toks ≤ s.cfg.dataBytes) :
    ∃ v, (∀ k, Machine.decodeRun (k + toks.length) u = Machine.decodeRun k v) ∧
      s.Decoding a b (p + (tokensCode toks).length) (listDecode (b.toNat + 1) toks q) v := by
  induction toks generalizing p q u with
  | nil => exact ⟨u, fun _ => rfl, h⟩
  | cons tok toks ih =>
    rw [tokensCode, List.length_append] at hinside
    rw [tokensCount] at hroom
    obtain ⟨hfirst, hrest⟩ := streamHolds_append hbits
    obtain ⟨v, hv, htoken⟩ := h.token (hok tok List.mem_cons_self) hfirst (by omega) (by omega)
    obtain ⟨w, hw, htokens⟩ := ih htoken (fun t ht => hok t (List.mem_cons_of_mem _ ht)) hrest (by omega)
      (by rw [foldl_listAppend_length]; omega)
    refine ⟨w, fun k => ?_, ?_⟩
    · have hphase : u.phase ≠ .idle := by simp [h.phase]
      rw [List.length_cons, ← Nat.add_assoc, decodeRun_next hphase hv, hw]
    · rw [tokensCode, List.length_append, ← Nat.add_assoc]
      exact htokens

/-- DEC's first lines, and the header inside the stream (R221, R222). -/
theorem decodeStep_header (hbits : Machine.streamHolds s 0 (toBits 2 a.toNat ++ toBits 16 b.toNat))
    (hinside : 18 ≤ 8 * s.slen.toNat) :
    ∃ v, decodeStep { bsRinit s with phase := .header } = .next v ∧ s.Decoding a b 18 [] v := by
  have hfound : fetchHeader { bsRinit s with phase := .header } = .found (.hdr a b) :=
    fetchHeader_found_of_streamHolds fun k hk => (sbit_congr rfl rfl _).trans (hbits k hk)
  have hskip : consume 2 { bsRinit s with phase := .header } =
      { s with underrun := false, rpos := 2, phase := .header } :=
    consume_inside rfl (show 0 + 2 ≤ 8 * s.slen.toNat by omega)
  have hstrip : consume 16 { s with underrun := false, rpos := 2, phase := .header } =
      { s with underrun := false, rpos := 18, phase := .header } :=
    consume_inside rfl (show 2 + 16 ≤ 8 * s.slen.toNat by omega)
  refine ⟨({ s with underrun := false, rpos := 18, phase := .header } : State).openTokens a b, ?_, ?_⟩
  · simp only [decodeStep, hfound, runElement, execElement, execHdr, hskip, hstrip]
    rfl
  · exact ⟨rfl, rfl, rfl, rfl, rfl, nofun⟩

/-- The last turn ends the DEC, normally or with a fault. -/
theorem decodeRun_finish (k : Nat) (h : u.phase = .finish) : Machine.decodeRun (k + 1) u = finishDecode u := by
  have hphase : u.phase ≠ .idle := by simp [h]
  have hstep : decodeStep u = finishDecode u := by simp only [decodeStep, h]
  cases hf : finishDecode u with
  | next t => rw [decodeRun_next hphase (hstep.trans hf), decodeRun_idle (finishDecode_next hf).idle]
  | refused e => rw [decodeRun_refused hphase (hstep.trans hf)]
  | fault e => exact absurd hf (Res.answer_ne_fault _ _ e)

theorem length_le_tokensCode_length (toks : List (Nat × List Nat)) : toks.length ≤ (tokensCode toks).length := by
  induction toks with
  | nil => exact le_rfl
  | cons tok toks ih =>
    rw [tokensCode, List.length_append, tokenCode_length, List.length_cons]
    omega

/-- The END read, behind it DEC has only its last lines to run (R227 (a), R238). -/
def State.atFinish (u : State) : State := { consume 7 u with phase := .finish }

/-- DEC of a chunk of tokens with an END behind it comes to its last lines with the bytes of the list decoder. -/
theorem exec_dec_tokens (hfault : s.fault = false) (hok : ∀ tok ∈ toks, tokenOk tok)
    (hbits : Machine.streamHolds s 0 (chunkBits a b toks ++ toBits 7 0))
    (hinside : (chunkBits a b toks).length ≤ 8 * s.slen.toNat) (hroom : tokensCount toks ≤ s.cfg.dataBytes) :
    ∃ u, s.Decoding a b (chunkBits a b toks).length (listDecode (b.toNat + 1) toks []) u ∧
      exec .dec s = finishDecode u.atFinish := by
  obtain ⟨hchunk, hend⟩ := streamHolds_append hbits
  obtain ⟨hheader, htokens⟩ := streamHolds_append hchunk
  have hturns := length_le_tokensCode_length toks
  rw [Nat.zero_add] at hend
  rw [List.length_append, toBits_length, toBits_length] at htokens
  have hlength := chunkBits_length a b toks
  rw [hlength] at hinside
  obtain ⟨v, hv, hopen⟩ := decodeStep_header hheader (by omega)
  obtain ⟨w, hw, hdecoded⟩ := hopen.tokens hok htokens hinside (by rwa [List.length_nil, Nat.zero_add])
  rw [← hlength] at hdecoded
  refine ⟨w, hdecoded, ?_⟩
  obtain ⟨k, hk⟩ : ∃ k, decodeTurns s = k + 1 + 1 + toks.length + 1 :=
    ⟨8 * s.slen.toNat + 1 - toks.length, by rw [decodeTurns]; omega⟩
  have hphase : w.phase ≠ .idle := by simp [hdecoded.phase]
  have hstep : decodeStep w = .next w.atFinish := by
    simp only [decodeStep, hdecoded.phase, fetchToken_end (hdecoded.streamHolds hend)]
    rfl
  calc exec .dec s
      = Machine.decodeRun (decodeTurns s) { bsRinit s with phase := .header } := gate_open hfault _
    _ = Machine.decodeRun (k + 1 + 1 + toks.length) v := by
      rw [hk, decodeRun_next (show Phase.header ≠ .idle by decide) hv]
    _ = Machine.decodeRun (k + 1) w.atFinish := by rw [hw, decodeRun_next hphase hstep]
    _ = finishDecode w.atFinish := decodeRun_finish k rfl

end

end Sys2Proof.Machine
end

section
/-! A residual's biased field has the width of its run (30_encoding.md R100 to R105; 42_encode.md R182, R189). -/

namespace Sys2Proof.Machine

section
variable {b k : Nat} {v r : Int} {run : List Int}

theorem fits_iff : fits b v = true ↔ -(bias b : Int) ≤ v ∧ v ≤ (2 ^ b : Nat) - 1 - (bias b : Int) := by
  rw [fits, Bool.and_eq_true, decide_eq_true_eq, decide_eq_true_eq]

theorem fits_succ (h : fits b v = true) : fits (b + 1) v = true := by
  obtain ⟨hlow, hhigh⟩ := fits_iff.mp h
  have hbias : bias (b + 1) = 2 ^ b := by rw [bias, Nat.pow_succ, Nat.mul_div_cancel _ (by decide)]
  have hpow : 2 ^ (b + 1) = 2 * 2 ^ b := Nat.pow_succ'
  rw [bias] at hlow hhigh
  rw [fits_iff, hbias, hpow]
  omega

theorem fits_mono {b' : Nat} (hb : b ≤ b') (h : fits b v = true) : fits b' v = true :=
  Nat.le_induction h (fun _ _ => fits_succ) b' hb

theorem fits_leastWidth (h : fits (b + k) v = true) : fits (leastWidth v k b) v = true := by
  induction k generalizing b with
  | zero => exact h
  | succ k ih =>
    rw [leastWidth]
    split
    · assumption
    · exact ih (by rwa [Nat.add_right_comm])

theorem fits_width (hlow : -128 ≤ v) (hhigh : v ≤ 127) : fits (width v) v = true :=
  fits_leastWidth (fits_iff.mpr ⟨hlow, hhigh⟩)

theorem le_norm (b : Nat) : b ≤ norm b := by
  unfold norm codeWidth code
  split <;> split <;> omega

theorem norm_ne_one (b : Nat) : norm b ≠ 1 := by
  unfold norm codeWidth code
  split <;> split <;> omega

theorem runWidth_ne_one (run : List Int) : runWidth run ≠ 1 := by
  induction run with
  | nil => decide
  | cons r run ih =>
    rw [runWidth_cons]
    exact max_rec' (· ≠ 1) (norm_ne_one _) ih

theorem norm_width_le_runWidth (hr : r ∈ run) : norm (width r) ≤ runWidth run := by
  induction run with
  | nil => cases hr
  | cons x run ih =>
    rw [runWidth_cons]
    rcases List.mem_cons.mp hr with rfl | hr
    · exact le_max_left _ _
    · exact (ih hr).trans (le_max_right _ _)

/-- Every residual of a run has a biased form of the run's width. -/
theorem fits_runWidth (hr : r ∈ run) (hlow : -128 ≤ r) (hhigh : r ≤ 127) : fits (runWidth run) r = true :=
  fits_mono ((le_norm _).trans (norm_width_le_runWidth hr)) (fits_width hlow hhigh)

theorem biased_nonneg (h : fits b v = true) : 0 ≤ v + (bias b : Int) := by
  have hlow := (fits_iff.mp h).1
  omega

theorem biased_lt (h : fits b v = true) : (v + (bias b : Int)).toNat < 2 ^ b := by
  have hhigh := (fits_iff.mp h).2
  have hpos := Nat.two_pow_pos b
  omega

theorem wrapS8_mem (x : Int) : -128 ≤ wrapS8 x ∧ wrapS8 x ≤ 127 := by
  unfold wrapS8
  omega

theorem Residuals.bounded {m : Memory} {t q : Nat} (h : Residuals m t q run) :
    ∀ r ∈ run, -128 ≤ r ∧ r ≤ 127 := by
  induction run generalizing q with
  | nil => exact nofun
  | cons x run ih =>
    obtain ⟨hx, hrest⟩ := h
    intro r hr
    rcases List.mem_cons.mp hr with rfl | hr
    · obtain ⟨byte, p, g, -, -, -, rfl⟩ := resid_eq_ok.mp hx
      exact wrapS8_mem _
    · exact ih hrest r hr

theorem tokenOk_residualToken (hlow : 1 ≤ run.length) (hhigh : run.length ≤ 127)
    (hrange : ∀ r ∈ run, -128 ≤ r ∧ r ≤ 127) : tokenOk (residualToken run) := by
  have hwidth : runWidth run ∈ [0, 2, 3, 4, 5, 6, 7, 8] := by
    have hle := runWidth_le run
    have hne := runWidth_ne_one run
    simp only [List.mem_cons, List.not_mem_nil, or_false]
    omega
  have hlength : (residualToken run).2.length = run.length := List.length_map _
  refine ⟨hwidth, hlength.symm ▸ hlow, hlength.symm ▸ hhigh, fun u hu => ?_⟩
  obtain ⟨r, hr, rfl⟩ := List.mem_map.mp hu
  exact biased_lt (fits_runWidth hr (hrange r hr).1 (hrange r hr).2)

end

end Sys2Proof.Machine
end

section
/-! The list decoder restores the buffer whose residuals the tokens carry (42_encode.md R182, R194; 43_decode.md
R225). -/

namespace Sys2Proof.Machine

section
variable {m : Memory} {q : List Byte} {t w : Nat} {r : Int} {run : List Int} {runs : List (List Int)}

/-- A prediction and its wrapped residual give the byte back (R182). -/
theorem wrapU8_residual (x : Byte) (p : Int) : wrapU8 (p + wrapS8 (x.toNat - p)) = x := by
  have hx := x.isLt
  apply BitVec.eq_of_toNat_eq
  rw [wrapU8, wrapS8, BitVec.toNat_ofNat]
  omega

theorem Memory.HoldsBytes.listAppend (h : m.HoldsBytes q) (hr : resid m q.length t = .ok r)
    (hbias : 0 ≤ r + (bias w : Int)) : m.HoldsBytes (listAppend t w q (r + (bias w : Int)).toNat) := by
  obtain ⟨x, p, g, hx, hp, hg, rfl⟩ := resid_eq_ok.mp hr
  obtain rfl := Except.ok.inj (h.pred1.symm.trans hp)
  obtain rfl := Except.ok.inj ((h.grad t).symm.trans hg)
  have hbyte := wrapU8_residual x ((q.getLastD 0).toNat + listGrad q t)
  rw [Machine.listAppend, Int.toNat_of_nonneg hbias, ← Int.add_assoc, Int.add_sub_cancel, hbyte]
  exact h.concat (fun _ _ => rfl) hx

theorem Memory.HoldsBytes.decode_run (h : m.HoldsBytes q) (hresid : Residuals m t q.length run)
    (hbias : ∀ r ∈ run, 0 ≤ r + (bias w : Int)) :
    m.HoldsBytes ((run.map fun r => (r + (bias w : Int)).toNat).foldl (Machine.listAppend t w) q) := by
  induction run generalizing q with
  | nil => exact h
  | cons r run ih =>
    obtain ⟨hr, hrest⟩ := hresid
    rw [← listAppend_length t w q (r + (bias w : Int)).toNat] at hrest
    exact ih (h.listAppend hr (hbias r List.mem_cons_self)) hrest fun x hx => hbias x (List.mem_cons_of_mem _ hx)

theorem Memory.HoldsBytes.decode_runs (h : m.HoldsBytes q) (hresid : Residuals m t q.length runs.flatten) :
    m.HoldsBytes (listDecode t (runs.map residualToken) q) := by
  induction runs generalizing q with
  | nil => exact h
  | cons run runs ih =>
    obtain ⟨hfirst, hrest⟩ := residuals_append.mp hresid
    have hrange := hfirst.bounded
    have hbytes : m.HoldsBytes ((residualToken run).2.foldl (Machine.listAppend t (runWidth run)) q) :=
      h.decode_run hfirst fun r hr => biased_nonneg (fits_runWidth hr (hrange r hr).1 (hrange r hr).2)
    refine ih hbytes ?_
    rw [foldl_listAppend_length]
    exact (congrArg (q.length + ·) (List.length_map _)).symm ▸ hrest

theorem tokensCount_residualToken (runs : List (List Int)) :
    tokensCount (runs.map residualToken) = runs.flatten.length := by
  induction runs with
  | nil => rfl
  | cons run runs ih =>
    rw [List.map_cons, tokensCount, ih, List.flatten_cons, List.length_append]
    exact congrArg (· + _) (List.length_map _)

end

end Sys2Proof.Machine
end

section
/-! The round trip (42_encode.md R194): the stream that ENC leaves holds a chunk of tokens and zeros behind it, an END;
DEC decodes it to the deinterleaved buffer and re-interleaves that. -/

namespace Sys2Proof.Machine

section
variable {s t u d : State} {a : BitVec 2} {b : BitVec 16} {p : Nat} {q : List Byte} {bits : List Bool}

/-! ## The last lines of DEC -/

/-- With scratch for the re-interleave DEC completes: its registers, and each byte of the buffer (R228). -/
theorem State.Decoding.finish (h : s.Decoding a b p q u) (hfits : scratchFits s (a.toNat + 1) q.length) :
    ∃ v : State, finishDecode u.atFinish = .next v.endDecode ∧
      v = { s with
        skip := a, strip := b, rpos := p + 7, underrun := decide (8 * s.slen.toNat < p + 7), phase := .finish
        data := v.data, scratch := v.scratch, dec := v.dec } ∧
      v.dec.n = q.length ∧
      ∀ win ∈ windows q.length (a.toNat + 1) s.block.toNat, ∀ j, j < win.2 →
        v.data.read (win.1 + j) = q[win.1 + dest win.2 (a.toNat + 1) j]? := by
  have hstride : 0 < a.toNat + 1 := Nat.succ_pos _
  have hframe : u.atFinish = { s with
      skip := a, strip := b, rpos := p + 7, underrun := decide (8 * s.slen.toNat < p + 7), phase := .finish
      data := u.data, dec := u.dec } := by
    have hunder : runsOff p 7 s.slen.toNat = decide (8 * s.slen.toNat < p + 7) := Bool.true_and _
    rw [← hunder]
    exact congrArg State.atFinish h.frame
  have hblock : u.atFinish.block = s.block := (congrArg State.block hframe :)
  have hcfg : u.atFinish.cfg = s.cfg := (congrArg State.cfg hframe :)
  obtain ⟨v, hv, htransposed⟩ := transpose_completes (s := u.atFinish) reintWindow_moves
    (hcfg ▸ scratchFits_iff.mp hfits)
  have hmoved := (reintWindow_movesBytes hstride).of_transpose hv
  have hdec : v.dec = u.dec := (congrArg State.dec htransposed.frame :)
  refine ⟨v, ?_, ?_, ?_, fun win hwin j hj => ?_⟩
  · have hskip : u.atFinish.dec.hs = a.toNat + 1 := h.skip
    have hcount : u.atFinish.dec.n = q.length := h.count
    rw [finishDecode, hskip, hcount, hblock, reint, hv]
    rfl
  · rw [hdec]
    exact htransposed.frame.trans (congrArg (fun k : State => { k with data := v.data, scratch := v.scratch }) hframe)
  · rw [hdec, h.count]
  · have hend := window_end_le hwin
    have hdest := dest_lt hstride hj
    exact (hmoved.moved win hwin j hj).trans (h.bytes _ (by omega))

/-- The bytes below the decoded length stay (R220). -/
theorem State.endDecode_read {x : Nat} (hx : x < u.dec.n) : u.endDecode.data.read x = u.data.read x := by
  rw [State.endDecode, State.endCommand_data]
  exact (u.setDlen_read u.dec.n x).trans (if_neg (by omega))

/-! ## The stream of ENC -/

/-- The zeros behind a chunk are an END (R108, R193). -/
theorem State.HoldsChunk.streamHolds (h : s.HoldsChunk bits) : streamHolds s 0 (bits ++ toBits 7 0) := by
  intro k hk
  rw [Nat.zero_add, h.sbit]
  by_cases hbits : k < bits.length
  · rw [List.getElem_append_left hbits, List.getD_eq_getElem _ _ hbits]
  · simp only [toBits_zero, List.getElem_append_right (Nat.not_lt.mp hbits), List.getElem_replicate,
      List.getD_eq_default _ _ (Nat.not_lt.mp hbits)]

theorem scratchFits_of_deint (h : deint s.stride s.block.toNat s.dlen.toNat s = .ok d) :
    scratchFits s s.stride s.dlen.toNat := by
  rw [scratchFits_iff]
  rcases transpose_cases deintWindow s.stride s.block.toNat s.dlen.toNat s with
    ⟨hone, -⟩ | ⟨-, -, hlack⟩ | ⟨-, hroom, -⟩
  · exact .inl hone
  · cases hlack.symm.trans h
  · exact .inr hroom

/-- The tokens of the runs, as DEC reads them. -/
theorem State.EncodedRuns.tokensOk {runs : List (List Int)} (h : s.EncodedRuns d runs t) :
    ∀ tok ∈ runs.map residualToken, tokenOk tok := by
  intro tok htok
  obtain ⟨run, hrun, rfl⟩ := List.mem_map.mp htok
  obtain ⟨hlow, hhigh⟩ := h.counts run hrun
  exact tokenOk_residualToken hlow hhigh fun r hr => h.residuals.bounded r (List.mem_flatten_of_mem hrun hr)

/-- The bytes of the deinterleaved buffer, moved back (R168). -/
theorem read_of_reinterleaved {m : Memory} (hd : deint s.stride s.block.toNat s.dlen.toNat s = .ok d)
    (hlength : q.length = s.dlen.toNat) (hbytes : d.data.HoldsBytes q)
    (hmoved : ∀ win ∈ windows q.length s.stride s.block.toNat, ∀ j, j < win.2 →
      m.read (win.1 + j) = q[win.1 + dest win.2 s.stride j]?) {x : Nat} (hx : x < s.dlen.toNat) :
    m.read x = s.data.read x := by
  rw [hlength] at hmoved
  obtain ⟨win, hwin, hplace⟩ := exists_window (stride := s.stride) (block := s.block.toNat) hx
  obtain ⟨j, hj, rfl⟩ := List.mem_map.mp hplace
  have hjwin := List.mem_range.mp hj
  have hend := window_end_le hwin
  have hdest := dest_lt s.stride_pos hjwin
  have hthere := ((deintWindow_movesBytes s.stride_pos).of_transpose hd).moved win hwin j hjwin
  calc m.read (win.1 + j)
      = q[win.1 + dest win.2 s.stride j]? := hmoved win hwin j hjwin
    _ = d.data.read (win.1 + dest win.2 s.stride j) := (hbytes _ (by omega)).symm
    _ = s.data.read (win.1 + j) := hthere

/-- DEC of what ENC has left comes to its last line with the buffer as ENC had it. -/
theorem exec_dec_encoded (hd : deint s.stride s.block.toNat s.dlen.toNat s = .ok d) (ht : encodeRest s d = .ok t)
    (hcap : s.dlen.toNat ≤ s.cfg.dataBytes) (htfault : t.fault = false) :
    ∃ v : State, exec .dec t = .next v.endDecode ∧ v.fault = false ∧ v.skip = s.skip ∧ v.strip = s.strip ∧
      v.rpos = t.bitlen.toNat + 7 ∧ v.dec.n = s.dlen.toNat ∧
      ∀ x, x < s.dlen.toNat → v.data.read x = s.data.read x := by
  obtain ⟨runs, hruns⟩ := encodeRest_encodedRuns ht
  have hframe := encodeRest_frame hd ht
  have hblock : t.block = s.block := (congrArg State.block hframe :)
  have hcfg : t.cfg = s.cfg := (congrArg State.cfg hframe :)
  have hslen := hruns.chunk.slen
  have hcount := (tokensCount_residualToken runs).trans hruns.length
  have hbytes := Memory.HoldsBytes.decode_runs (m := d.data) (q := []) nofun hruns.residuals
  have hlength := (listDecode_length s.stripLen (runs.map residualToken) []).trans ((Nat.zero_add _).trans hcount)
  obtain ⟨u, hu, hdec⟩ := exec_dec_tokens htfault hruns.tokensOk hruns.chunk.streamHolds (by omega)
    (hcount.trans_le (hcfg ▸ hcap))
  have hfits : scratchFits t s.stride (listDecode s.stripLen (runs.map residualToken) []).length := by
    rw [hlength, scratchFits, hblock, hcfg]
    exact scratchFits_of_deint hd
  obtain ⟨v, hv, hvframe, hvcount, hmoved⟩ := hu.finish hfits
  rw [hblock] at hmoved
  exact ⟨v, hdec.trans hv, (congrArg State.fault hvframe).trans htfault, (congrArg State.skip hvframe :),
    (congrArg State.strip hvframe :), hruns.chunk.bitlen.symm ▸ (congrArg State.rpos hvframe :),
    hvcount.trans hlength, fun _ hx => read_of_reinterleaved hd hlength hbytes hmoved hx⟩

end

/-- Settles O54: the tokens of ENC's runs decode to the deinterleaved buffer, whose re-interleave is the buffer. -/
theorem encodeDecodeRoundTrip : Obligations.EncodeDecodeRoundTrip := by
  intro s t hfault hcap henc htfault
  rcases exec_enc_next hfault henc with ⟨d, hd, ht⟩ | ⟨c, x, site, -, rfl⟩
  · obtain ⟨v, hdec, hclean, hskip, hstrip, hrpos, hcount, hdata⟩ := exec_dec_encoded hd ht hcap htfault
    refine ⟨v.endDecode, hdec, hclean, ?_, fun x hx => ?_, hskip, hstrip, hrpos⟩
    · rw [State.endDecode_dlen, hcount, BitVec.ofNat_toNat, BitVec.setWidth_eq]
    · rw [State.endDecode_read (hcount.symm ▸ hx), hdata x hx]
  · rw [State.raise_fault] at htfault
    cases htfault

end Sys2Proof.Machine
end

section
/-! A step inside a DEC is a turn of its loop: it runs the element at the cursor (43_decode.md R220, R222, R223). -/

namespace Sys2Proof.Machine

/-! ## The element at the cursor -/

/-- A stream element has been found, and it does at `s` what `i` does. -/
def Element.Means (el : Element) (i : Instr) (s : State) : Prop :=
  ∃ found, el = .found found ∧ execElement found s = exec i s

section
variable {s : State} {i : Instr} {k : Nat} {bits : List Bool}

theorem exec_toInstr (el : StreamElement) (s : State) : exec el.toInstr s = execElement el s := by
  cases el <;> rfl

theorem step_of_elementFetched {el : Element} (h : fetch s = elementFetched el s) : step s = runElement el s := by
  rw [step, h]
  cases el with
  | found el => exact exec_toInstr el s
  | refused e => rfl
  | cutShort => rfl

theorem step_inside_dec (hphase : s.phase ≠ .idle) : step s = decodeStep s := by
  cases hp : s.phase with
  | idle => exact absurd hp hphase
  | header =>
    simp only [decodeStep, hp]
    exact step_of_elementFetched (by simp only [fetch, hp])
  | tokens =>
    simp only [decodeStep, hp]
    exact step_of_elementFetched (by simp only [fetch, hp])
  | finish => simp only [step, fetch, decodeStep, hp]

theorem Element.Means.run {el : Element} (h : el.Means i s) : runElement el s = exec i s := by
  obtain ⟨found, rfl, hexec⟩ := h
  exact hexec

/-- A RUN token of which the stream holds what DEC reads: the values behind have no effect (R226). -/
theorem fetchToken_means_run (vs : List (BitVec k)) (mk : List (BitVec k) → StreamElement) (hc : code k < 8)
    (hk : codeWidth (code k) = k) (hdecode : ∀ n bs, Sys2Proof.decodeRun n (code k) bs = decodeValues n bs mk)
    (hexec : ∀ us, execElement (mk us) s = runToken k (us.map BitVec.toNat) s)
    (hi : exec i s = runToken k (vs.map BitVec.toNat) s) (hcount : countOk vs.length = true)
    (h : streamHolds s s.rpos
      ((runBits (code k) vs).take (10 + k * min (vs.map BitVec.toNat).length (s.cfg.dataBytes - s.dec.n + 1)))) :
    (fetchToken s).Means i s := by
  rw [List.length_map] at h
  rw [countOk, Bool.and_eq_true, decide_eq_true_eq, decide_eq_true_eq] at hcount
  obtain ⟨us, hlength, hsame, hfound⟩ := fetchToken_run vs mk hc hk hdecode hcount.1 hcount.2 h
  refine ⟨mk us, hfound, ?_⟩
  rw [hexec, hi]
  refine runToken_reached (by rw [List.length_map, List.length_map, hlength]) ?_
  rw [← List.map_take, ← List.map_take, hsame]

theorem fetchToken_means (hwf : wellFormed i = true) (hcode : encode i = .token bits)
    (h : streamHolds s s.rpos (bitsReached s i bits)) : (fetchToken s).Means i s := by
  cases i with
  | endMark =>
    obtain rfl := Code.token.inj hcode
    exact ⟨.endMark, fetchToken_end h, rfl⟩
  | runW0 count =>
    obtain rfl := Code.token.inj hcode
    rw [wellFormed, countOk, Bool.and_eq_true, decide_eq_true_eq, decide_eq_true_eq] at hwf
    have hall : bitsReached s (.runW0 count) (toBits 7 count.toNat ++ toBits 3 0) =
        toBits 7 count.toNat ++ toBits 3 0 :=
      List.take_of_length_le (by rw [List.length_append, toBits_length, toBits_length]; omega)
    exact findsToken_of_count hwf.1 hwf.2 (hall ▸ h)
  | runW2 values | runW3 values | runW4 values | runW5 values | runW6 values | runW7 values | runW8 values =>
    obtain rfl := Code.token.inj hcode
    exact fetchToken_means_run values _ (by decide) rfl (fun _ _ => rfl) (fun _ => rfl) rfl hwf h
  | _ => cases hcode

theorem fetchHeader_means (hcode : encode i = .header bits) (h : streamHolds s s.rpos (bitsReached s i bits)) :
    (fetchHeader s).Means i s := by
  cases i with
  | hdr a b =>
    obtain rfl := Code.header.inj hcode
    exact ⟨.hdr a b, fetchHeader_found_of_streamHolds h, rfl⟩
  | _ => cases hcode

end

/-- Settles O8: in the phase of the header, and in that of the tokens, the element fetched means the instruction. -/
theorem stepRunsStreamElement : Obligations.StepRunsStreamElement := by
  rintro s i bits hwf (⟨hphase, hcode⟩ | ⟨hphase, hcode⟩) hbits
  · rw [step_inside_dec (by simp [hphase]), decodeStep, hphase]
    exact (fetchHeader_means hcode hbits).run
  · rw [step_inside_dec (by simp [hphase]), decodeStep, hphase]
    exact (fetchToken_means hwf hcode hbits).run

/-! ## The loop -/

section
variable {M : Host.Core} {u t : M.State}

theorem run_succ_next (h : M.step u = .next t) (n : Nat) : M.run (n + 1) u = M.run n t := by
  simp only [Host.Core.run, h]

theorem run_one_fault {e : M.Fault} (h : M.step u = .fault e) : M.run 1 u = .fault e := by
  simp only [Host.Core.run, h]

theorem run_one_refused {e : M.Refusal} (h : M.step u = .refused e) : M.run 1 u = .refused e := by
  simp only [Host.Core.run, h]

end

theorem decodeRun_fault {k : Nat} {u : State} {e : Fault} (hphase : u.phase ≠ .idle) (h : decodeStep u = .fault e) :
    Machine.decodeRun (k + 1) u = .fault e := by
  simp only [Machine.decodeRun, hphase, h, if_false]

/-- DEC's loop is a run of the machine, one step a turn. -/
theorem exists_run_eq_decodeRun (k : Nat) (u : State) :
    ∃ n, Host.Core.run Sys2Proof.core n u = Machine.decodeRun k u := by
  induction k generalizing u with
  | zero => exact ⟨0, rfl⟩
  | succ k ih =>
    by_cases hphase : u.phase = .idle
    · exact ⟨0, (decodeRun_idle hphase).symm⟩
    · have hstep : Sys2Proof.core.step u = decodeStep u := step_inside_dec hphase
      cases hturn : decodeStep u with
      | next t =>
        obtain ⟨n, hn⟩ := ih t
        exact ⟨n + 1, by rw [run_succ_next (hstep.trans hturn), hn, decodeRun_next hphase hturn]⟩
      | fault e => exact ⟨1, (run_one_fault (hstep.trans hturn)).trans (decodeRun_fault hphase hturn).symm⟩
      | refused e => exact ⟨1, (run_one_refused (hstep.trans hturn)).trans (decodeRun_refused hphase hturn).symm⟩

/-- Settles O50: turn by turn. -/
theorem decRunsItsElements : Obligations.DecRunsItsElements := by
  intro s hfault
  obtain ⟨n, hn⟩ := exists_run_eq_decodeRun (decodeTurns s) { bsRinit s with phase := .header }
  exact ⟨n, hn.trans (gate_open hfault _).symm⟩

end Sys2Proof.Machine
end

section
/-! What a RUN token does where the bytes that it predicts from are written: each value is appended, or one of its reads
runs off the stream, or a value does not fit in `DATA` (43_decode.md R220, R224 to R227, R230 to R237). -/

namespace Sys2Proof.Machine

/-! ## Reads of fields -/

section
variable {u : State} {n : Nat}

/-- A read of a field that stays inside the stream (R227). -/
theorem checkedRead_inside (hunder : u.underrun = false) (hinside : u.rpos + n ≤ 8 * u.slen.toNat) :
    checkUnderrun (consume n u) = .ok { u with rpos := u.rpos + n } := by
  rw [consume_inside hunder hinside]
  exact checkUnderrun_eq_ok.mpr ⟨hunder, rfl⟩

/-- A read of a field that runs off the stream (R227 (b), R275). -/
theorem checkedRead_beyond (hn : 1 ≤ n) (hbeyond : 8 * u.slen.toNat < u.rpos + n) :
    checkUnderrun (consume n u) = .raise .truncatedStream { u with underrun := true, rpos := u.rpos + n } := by
  have hunder : (u.underrun || runsOff u.rpos n u.slen.toNat) = true := by
    rw [runsOff, decide_eq_true hn, decide_eq_true hbeyond, Bool.and_self, Bool.or_true]
  refine checkUnderrun_eq_raise.mpr ⟨hunder, rfl, ?_⟩
  rw [consume, hunder]

end

/-! ## The gradient -/

/-- The gradient term over a memory that is written below `i` (42_encode.md R181). -/
def gradAt (m : Memory) (i t : Nat) : Int :=
  if 1 < t ∧ t < i then byteAt m (i - t) - byteAt m (i - t - 1) else 0

section
variable {m m' : Memory} {i t n : Nat} {b : Byte}

theorem sample_of_written (h : written m 0 n) (hi : i < n) : sample m i = .ok (byteAt m i) := by
  obtain ⟨b, hb⟩ := Option.isSome_iff_exists.mp (h i (Nat.zero_le i) hi)
  rw [byteAt, hb]
  exact sample_eq_ok.mpr ⟨b, hb, rfl⟩

theorem grad_of_written (h : written m 0 i) : grad m i t = .ok (gradAt m i t) := by
  unfold grad gradAt
  split
  · rw [sampleDiff, sample_of_written h (by omega), sample_of_written h (by omega)]
  · rfl

theorem gradAt_congr (h : ∀ a, a < i → m'.read a = m.read a) : gradAt m' i t = gradAt m i t := by
  unfold gradAt byteAt
  split
  · rw [h (i - t) (by omega), h (i - t - 1) (by omega)]
  · rfl

theorem byteAt_of_read (h : m.read i = some b) : byteAt m i = b.toNat := by
  rw [byteAt, h, Option.getD_some]

theorem written_write (h : written m 0 n) (b : Byte) : written (m.write n b) 0 (n + 1) := by
  intro a hlow hhigh
  rw [Memory.read_write]
  split
  · rfl
  · exact h a hlow (by omega)

theorem wrapU8_toNat (x : Int) : ((wrapU8 x).toNat : Int) = x % 256 := by
  rw [wrapU8, BitVec.toNat_ofNat]
  omega

end

/-! ## Values appended -/

/-- The byte stored last is the decoder's `act` (R220). -/
def State.LastStored (u : State) : Prop := u.data.read (u.dec.n - 1) = some u.dec.act

/-- From `u` to `t` the values `us` have been read and appended: the bytes of R225. -/
structure State.Appends (u : State) (us : List Nat) (t : State) : Prop where
  frame : t = { u with rpos := u.rpos + us.length * u.dec.bits, data := t.data, dec := t.dec }
  regs : t.dec = { u.dec with n := u.dec.n + us.length, act := t.dec.act }
  rest : ∀ a, a < u.dec.n ∨ u.dec.n + us.length ≤ a → t.data.read a = u.data.read a
  last : us ≠ [] ∨ u.LastStored → t.LastStored
  values : ∀ j, (h : j < us.length) → ∃ b, t.data.read (u.dec.n + j) = some b ∧
    (b.toNat : Int) = ((if j = 0 then (u.dec.act.toNat : Int) else byteAt t.data (u.dec.n + j - 1)) +
      gradAt t.data (u.dec.n + j) u.dec.ht + (us[j] : Int) - (bias u.dec.bits : Int)) % 256

section
variable {u t : State} {x r : Nat} {us : List Nat}

/-- The state after one value, read inside the stream, with room in `DATA`. -/
def State.readValue (u : State) (x : Nat) : State :=
  ({ u with rpos := u.rpos + u.dec.bits } : State).append
    (reconstruct u.dec.act (gradAt u.data u.dec.n u.dec.ht) x u.dec.bits)

theorem expandValue_room (hroom : u.dec.n < u.cfg.dataBytes) (hwritten : written u.data 0 u.dec.n) (x : Nat) :
    expandValue x u = .ok (u.append (reconstruct u.dec.act (gradAt u.data u.dec.n u.dec.ht) x u.dec.bits)) := by
  rw [expandValue, if_neg (Nat.not_le.mpr hroom), grad_of_written hwritten]

theorem expandValue_full (hfull : u.cfg.dataBytes ≤ u.dec.n) (x : Nat) : expandValue x u = .raise .allocation u :=
  if_pos hfull

theorem State.Appends.rpos (h : u.Appends us t) : t.rpos = u.rpos + us.length * u.dec.bits :=
  (congrArg State.rpos h.frame :)

theorem State.Appends.underrun (h : u.Appends us t) : t.underrun = u.underrun := (congrArg State.underrun h.frame :)
theorem State.Appends.slen (h : u.Appends us t) : t.slen = u.slen := (congrArg State.slen h.frame :)
theorem State.Appends.cfg (h : u.Appends us t) : t.cfg = u.cfg := (congrArg State.cfg h.frame :)
theorem State.Appends.count (h : u.Appends us t) : t.dec.n = u.dec.n + us.length := (congrArg DecRegs.n h.regs :)
theorem State.Appends.bits (h : u.Appends us t) : t.dec.bits = u.dec.bits := (congrArg DecRegs.bits h.regs :)

theorem State.Appends.nil (u : State) : u.Appends [] u where
  frame := by rw [List.length_nil, Nat.zero_mul]; rfl
  regs := rfl
  rest _ _ := rfl
  last h := h.resolve_left (fun hne => hne rfl)
  values _ h := absurd h (Nat.not_lt_zero _)

theorem State.Appends.cons (h : (u.readValue x).Appends us t) : u.Appends (x :: us) t := by
  have hcount : (u.readValue x).dec.n = u.dec.n + 1 := rfl
  have hbelow : ∀ a, a < u.dec.n → t.data.read a = u.data.read a := fun a ha =>
    (h.rest a (.inl (by omega))).trans (Memory.read_write_other _ ha.ne)
  have hfirst : t.data.read u.dec.n = some (u.readValue x).dec.act :=
    (h.rest _ (.inl (by omega))).trans (Memory.read_write_same _ _ _)
  constructor
  case frame =>
    rw [List.length_cons, Nat.succ_mul, Nat.add_comm (us.length * _), ← Nat.add_assoc]
    exact h.frame
  case regs =>
    rw [List.length_cons, Nat.add_comm us.length, ← Nat.add_assoc]
    exact h.regs
  case rest =>
    intro a ha
    rw [List.length_cons] at ha
    have hne : a ≠ u.dec.n := by omega
    exact (h.rest a (by omega)).trans (Memory.read_write_other _ hne)
  case last => exact fun _ => h.last (.inr (Memory.read_write_same _ _ _))
  case values =>
    intro j hj
    cases j with
    | zero =>
      refine ⟨_, hfirst, ?_⟩
      rw [if_pos rfl, Nat.add_zero, gradAt_congr hbelow]
      exact wrapU8_toNat _
    | succ j =>
      obtain ⟨b, hb, hvalue⟩ := h.values j (Nat.lt_of_succ_lt_succ hj)
      rw [hcount, Nat.add_assoc, Nat.add_comm 1] at hb hvalue
      have hprevious : (if j = 0 then ((u.readValue x).dec.act.toNat : Int)
          else byteAt t.data (u.dec.n + (j + 1) - 1)) = byteAt t.data (u.dec.n + (j + 1) - 1) := by
        split
        · next hj0 =>
          subst hj0
          exact (byteAt_of_read hfirst).symm
        · rfl
      rw [hprevious] at hvalue
      exact ⟨b, hb, hvalue⟩

theorem expandValues_cons (hunder : u.underrun = false) (hinside : u.rpos + u.dec.bits ≤ 8 * u.slen.toNat)
    (hroom : u.dec.n < u.cfg.dataBytes) (hwritten : written u.data 0 u.dec.n) :
    expandValues (x :: us) u = expandValues us (u.readValue x) := by
  have hvalue : expandValue x { u with rpos := u.rpos + u.dec.bits } = .ok (u.readValue x) :=
    expandValue_room (u := { u with rpos := u.rpos + u.dec.bits }) hroom hwritten x
  rw [expandValues, checkedRead_inside hunder hinside, Res.ok_andThen, hvalue, Res.ok_andThen]

/-- Values that lie inside the stream and fit in `DATA`. -/
theorem expandValues_appends (hunder : u.underrun = false)
    (hinside : u.rpos + us.length * u.dec.bits ≤ 8 * u.slen.toNat) (hroom : us.length ≤ u.cfg.dataBytes - u.dec.n)
    (hwritten : written u.data 0 u.dec.n) : ∃ t, expandValues us u = .ok t ∧ u.Appends us t := by
  induction us generalizing u with
  | nil => exact ⟨u, rfl, .nil u⟩
  | cons x us ih =>
    rw [List.length_cons] at hinside hroom
    rw [Nat.succ_mul] at hinside
    have hrest : (u.rpos + u.dec.bits) + us.length * u.dec.bits ≤ 8 * u.slen.toNat := by omega
    have hfit : us.length ≤ u.cfg.dataBytes - (u.dec.n + 1) := by omega
    obtain ⟨t, ht, happends⟩ := ih (u := u.readValue x) hunder hrest hfit (written_write hwritten _)
    exact ⟨t, (expandValues_cons hunder (by omega) (by omega) hwritten).trans ht, happends.cons⟩

/-! ## The value at which a token stops -/

theorem expandValues_append (us vs : List Nat) (u : State) :
    expandValues (us ++ vs) u = (expandValues us u).andThen (expandValues vs) := by
  induction us generalizing u with
  | nil => rfl
  | cons x us ih =>
    rw [List.cons_append, expandValues, expandValues, Res.andThen_assoc _ (expandValues us), funext ih]

/-- The first `r` values are appended; what value `r` then does, the token does. -/
theorem expandValues_at (hunder : u.underrun = false) (hr : r < us.length)
    (hinside : u.rpos + r * u.dec.bits ≤ 8 * u.slen.toNat) (hroom : r ≤ u.cfg.dataBytes - u.dec.n)
    (hwritten : written u.data 0 u.dec.n) :
    ∃ t, u.Appends (us.take r) t ∧
      expandValues us u = ((checkUnderrun (consume t.dec.bits t)).andThen (expandValue us[r])).andThen
        (expandValues (us.drop (r + 1))) := by
  have hlength : (us.take r).length = r := List.length_take_of_le hr.le
  obtain ⟨t, ht, happends⟩ := expandValues_appends (us := us.take r) hunder (by rwa [hlength]) (by rwa [hlength])
    hwritten
  have hsplit : expandValues us u = expandValues (us.take r ++ us[r] :: us.drop (r + 1)) u := by
    rw [← List.drop_eq_getElem_cons hr, List.take_append_drop]
  exact ⟨t, happends, by rw [hsplit, expandValues_append, ht, Res.ok_andThen, expandValues]⟩

/-- One of the values that DEC reaches runs off the stream (R226, R227 (b), R275). -/
theorem expandValues_truncated (hunder : u.underrun = false) (hstart : u.rpos ≤ 8 * u.slen.toNat)
    (hbeyond : 8 * u.slen.toNat < u.rpos + min us.length (u.cfg.dataBytes - u.dec.n + 1) * u.dec.bits)
    (hwritten : written u.data 0 u.dec.n) :
    ∃ t, expandValues us u = .raise .truncatedStream t ∧ t = { u with
      rpos := u.rpos + ((8 * u.slen.toNat - u.rpos) / u.dec.bits + 1) * u.dec.bits, underrun := true
      data := t.data, dec := t.dec } := by
  generalize hm : min us.length (u.cfg.dataBytes - u.dec.n + 1) = m at hbeyond
  generalize hr : (8 * u.slen.toNat - u.rpos) / u.dec.bits = r
  have hbits : 1 ≤ u.dec.bits := by
    by_contra hzero
    rw [Nat.lt_one_iff.mp (Nat.not_le.mp hzero), Nat.mul_zero] at hbeyond
    omega
  have hrm : r < m := hr ▸ (Nat.div_lt_iff_lt_mul hbits).mpr (by omega)
  have hwhole : r * u.dec.bits ≤ 8 * u.slen.toNat - u.rpos := hr ▸ Nat.div_mul_le_self _ _
  have hnext : 8 * u.slen.toNat - u.rpos < (r + 1) * u.dec.bits :=
    (Nat.div_lt_iff_lt_mul hbits).mp (hr ▸ Nat.lt_succ_self _)
  obtain ⟨t, happends, ht⟩ := expandValues_at (us := us) (r := r) hunder (by omega) (by omega) (by omega) hwritten
  have hlength : (us.take r).length = r := List.length_take_of_le (by omega)
  have hpos : t.rpos + t.dec.bits = u.rpos + (r + 1) * u.dec.bits := by
    rw [happends.rpos, happends.bits, hlength, Nat.succ_mul, Nat.add_assoc]
  rw [checkedRead_beyond (happends.bits ▸ hbits) (by rw [happends.slen, hpos]; omega), hpos] at ht
  exact ⟨_, ht, congrArg (fun v : State => { v with
    underrun := true, rpos := u.rpos + (r + 1) * u.dec.bits }) happends.frame⟩

/-- The value behind those that fill `DATA`, read inside the stream (R226). -/
theorem expandValues_overflow (hunder : u.underrun = false) (hmore : u.cfg.dataBytes - u.dec.n < us.length)
    (hinside : u.rpos + (u.cfg.dataBytes - u.dec.n + 1) * u.dec.bits ≤ 8 * u.slen.toNat)
    (hwritten : written u.data 0 u.dec.n) :
    ∃ t, expandValues us u = .raise .allocation t ∧ t = { u with
      rpos := u.rpos + (u.cfg.dataBytes - u.dec.n + 1) * u.dec.bits, data := t.data, dec := t.dec } := by
  generalize hr : u.cfg.dataBytes - u.dec.n = r at hmore hinside ⊢
  rw [Nat.succ_mul] at hinside ⊢
  obtain ⟨t, happends, ht⟩ := expandValues_at (us := us) (r := r) hunder hmore (by omega) hr.ge hwritten
  have hlength : (us.take r).length = r := List.length_take_of_le hmore.le
  have hpos : t.rpos + t.dec.bits = u.rpos + (r * u.dec.bits + u.dec.bits) := by
    rw [happends.rpos, happends.bits, hlength, Nat.add_assoc]
  have hfull : t.cfg.dataBytes ≤ t.dec.n := by
    rw [happends.cfg, happends.count, hlength]
    omega
  rw [checkedRead_inside (happends.underrun.trans hunder) (by rw [hpos, happends.slen]; omega), Res.ok_andThen,
    expandValue_full (u := { t with rpos := t.rpos + t.dec.bits }) hfull, hpos] at ht
  exact ⟨_, ht, congrArg (fun v : State => { v with
    rpos := u.rpos + (r * u.dec.bits + u.dec.bits) }) happends.frame⟩

/-! ## The token -/

/-- The count and the code read, the values next (R224). -/
def State.atValues (s : State) (count width : Nat) : State :=
  ({ s with rpos := s.rpos + 10 } : State).startToken count width

theorem runToken_inside (hunder : u.underrun = false) (hinside : u.rpos + 10 ≤ 8 * u.slen.toNat) (w : Nat)
    (us : List Nat) :
    runToken w us u = (expandValues us (u.atValues us.length w)).answer .decoder := by
  have hcode : checkUnderrun (consume 3 { u with rpos := u.rpos + 7 }) = .ok { u with rpos := u.rpos + 10 } :=
    checkedRead_inside hunder (show u.rpos + 7 + 3 ≤ 8 * u.slen.toNat by omega)
  rw [runToken, checkedRead_inside hunder (by omega), Res.ok_andThen, hcode, Res.ok_andThen]
  rfl

/-- The count or the code runs off the stream. -/
theorem runToken_truncated_head (hunder : u.underrun = false) (hbeyond : 8 * u.slen.toNat < u.rpos + 10) (w : Nat)
    (us : List Nat) :
    runToken w us u = .next (State.raise { u with rpos := truncatedAt u.rpos w u.slen.toNat, underrun := true }
      .truncatedStream .decoder) := by
  rw [truncatedAt]
  by_cases hcount : 8 * u.slen.toNat < u.rpos + 7
  · rw [if_pos hcount, runToken, checkedRead_beyond (by decide) hcount]
    rfl
  · have hcode : checkUnderrun (consume 3 { u with rpos := u.rpos + 7 }) =
        .raise .truncatedStream { u with underrun := true, rpos := u.rpos + 10 } :=
      checkedRead_beyond (by decide) (show 8 * u.slen.toNat < u.rpos + 7 + 3 by omega)
    rw [if_neg hcount, if_pos hbeyond, runToken, checkedRead_inside hunder (by omega), Res.ok_andThen, hcode]
    rfl

/-- DEC's fault invalidates the output; what it had decoded is gone (60_exceptions.md R280, R281). -/
theorem raise_decoder {s : State} {p : Nat} {under : Bool} {phase : Phase} (hfault : s.fault = false)
    (hframe : t = { s with rpos := p, underrun := under, data := t.data, dec := t.dec, phase := phase }) (c : Cause) :
    t.raise c .decoder = { faulted s c.code with rpos := p, underrun := under, dlen := 0, data := [] } := by
  rw [State.raise_fresh t c .decoder ((congrArg State.fault hframe).trans hfault)]
  exact congrArg (fun v : State => ((v.latch c).invalidate .decoder).endCommand) hframe

end

/-! ## The RUN forms -/

section
variable {i : Instr} {w : Nat} {us : List Nat}

theorem exec_of_runFields (h : runFields i = some (w, us)) (s : State) : exec i s = runToken w us s := by
  cases i with
  | runW0 _ | runW2 _ | runW3 _ | runW4 _ | runW5 _ | runW6 _ | runW7 _ | runW8 _ =>
    cases h
    rfl
  | _ => cases h

theorem one_le_of_countOk {n : Nat} (h : countOk n = true) : 1 ≤ n := by
  rw [countOk, Bool.and_eq_true, decide_eq_true_eq] at h
  exact h.1

theorem runFields_nonempty (h : runFields i = some (w, us)) (hwf : wellFormed i = true) : 1 ≤ us.length := by
  cases i with
  | runW0 count =>
    cases h
    rw [List.length_replicate]
    exact one_le_of_countOk hwf
  | runW2 _ | runW3 _ | runW4 _ | runW5 _ | runW6 _ | runW7 _ | runW8 _ =>
    cases h
    rw [List.length_map]
    exact one_le_of_countOk hwf
  | _ => cases h

end

/-- Settles O46: the values of the token are appended one by one. -/
theorem runTokenAppendsItsValues : Obligations.RunTokenAppendsItsValues := by
  intro s i w us hfields hwf hunder hinside hroom hwritten
  have hcount := runFields_nonempty hfields hwf
  obtain ⟨t, ht, happends⟩ := expandValues_appends (u := s.atValues us.length w) (us := us) hunder hinside
    (show us.length ≤ s.cfg.dataBytes - s.dec.n by omega) hwritten
  refine ⟨t, ?_, happends.frame, happends.regs, happends.rest, ?_, happends.values⟩
  · rw [exec_of_runFields hfields, runToken_inside hunder (by omega), ht, Res.ok_answer]
  · have hlast := happends.last (.inl (List.ne_nil_of_length_pos hcount))
    rwa [State.LastStored, happends.count] at hlast

/-- Settles O47: the head of the token, else the first of its values that does not lie inside the stream or that does
not fit. -/
theorem runTokenFaults : Obligations.RunTokenFaults := by
  intro s i w us hfields hwf hfault hunder hwritten m
  have hcount := runFields_nonempty hfields hwf
  rw [exec_of_runFields hfields]
  constructor
  · intro hbeyond
    by_cases hhead : 8 * s.slen.toNat < s.rpos + 10
    · rw [runToken_truncated_head hunder hhead, raise_decoder hfault rfl]
      rfl
    · obtain ⟨t, ht, hframe⟩ := expandValues_truncated (u := s.atValues us.length w) (us := us) hunder
        (Nat.not_lt.mp hhead) hbeyond hwritten
      have hpos : truncatedAt s.rpos w s.slen.toNat =
          s.rpos + 10 + ((8 * s.slen.toNat - (s.rpos + 10)) / w + 1) * w := by
        rw [truncatedAt, if_neg (by omega), if_neg hhead]
      rw [runToken_inside hunder (Nat.not_lt.mp hhead), ht, Res.raise_answer, hpos]
      exact congrArg Host.Outcome.next (raise_decoder hfault hframe _)
  · intro hinside hfull
    have hmore : s.cfg.dataBytes - s.dec.n < us.length := by omega
    have hm : m = s.cfg.dataBytes - s.dec.n + 1 := Nat.min_eq_right hmore
    rw [hm] at hinside ⊢
    obtain ⟨t, ht, hframe⟩ := expandValues_overflow (u := s.atValues us.length w) (us := us) hunder hmore hinside
      hwritten
    rw [runToken_inside hunder (by omega), ht, Res.raise_answer]
    exact congrArg Host.Outcome.next (raise_decoder hfault hframe _)

end Sys2Proof.Machine
end

section
/-! How DEC ends (43_decode.md R220 to R228, R239, 60_exceptions.md R283). Behind the header it reads of `DATA` the
bytes that it has stored, all of them written, so it is refused only where the stream is unspecified; and its lines
raise `TruncatedStream` and `Allocation` alone. -/

namespace Sys2Proof.Machine

/-! ## What the lines of DEC keep -/

/-- The part of the state that no line of DEC but its last writes; what the lines do write is blanked. -/
def State.decKept (s : State) : State :=
  { s with
    underrun := false, skip := 0, strip := 0, rpos := 0, data := [], scratch := [], dec := {}, phase := .idle }

/-- DEC behind the header: a stride has been read, and every byte counted has been stored. -/
structure State.Stores (u : State) (phase : Phase) : Prop where
  phase : u.phase = phase
  stride : 0 < u.dec.hs
  stored : written u.data 0 u.dec.n

/-- Lines of DEC begun in `s` complete in a state of which `ok` holds, or raise one of its two faults. -/
def Res.DecLines (r : Res) (s : State) (ok : State → Prop) : Prop :=
  match r with
  | .ok t => t.decKept = s.decKept ∧ ok t
  | .raise c t => t.decKept = s.decKept ∧ (c = .truncatedStream ∨ c = .allocation)
  | .refuse _ => False

section
variable {s t u : State} {r : Res} {f : State → Res} {P Q : State → Prop} {phase : Phase}

/-- Lines after a change of what DEC's lines write. -/
theorem Res.DecLines.of_kept (h : r.DecLines t P) (hkept : t.decKept = s.decKept) : r.DecLines s P := by
  cases r with
  | ok u => exact ⟨h.1.trans hkept, h.2⟩
  | raise c u => exact ⟨h.1.trans hkept, h.2⟩
  | refuse e => exact h

theorem Res.DecLines.andThen (h : r.DecLines s P) (hf : ∀ u, P u → (f u).DecLines u Q) :
    (r.andThen f).DecLines s Q := by
  cases r with
  | ok u => exact (hf u h.2).of_kept h.1
  | raise c u => exact h
  | refuse e => exact h

theorem checkUnderrun_decLines (u : State) : (checkUnderrun u).DecLines u (· = u) := by
  cases h : checkUnderrun u with
  | ok t =>
    obtain ⟨-, rfl⟩ := checkUnderrun_eq_ok.mp h
    exact ⟨rfl, rfl⟩
  | raise c t =>
    obtain ⟨-, rfl, rfl⟩ := checkUnderrun_eq_raise.mp h
    exact ⟨rfl, .inl rfl⟩
  | refuse e => exact checkUnderrun_ne_refuse u e h

theorem checkedRead_decLines (n : Nat) (u : State) : (checkUnderrun (consume n u)).DecLines u (· = consume n u) :=
  (checkUnderrun_decLines (consume n u)).of_kept rfl

/-- A value is appended to written bytes, and all of them are then written (R225, R226). -/
theorem expandValue_decLines (x : Nat) (h : u.Stores phase) : (expandValue x u).DecLines u (State.Stores · phase) := by
  by_cases hfull : u.cfg.dataBytes ≤ u.dec.n
  · rw [expandValue_full hfull]
    exact ⟨rfl, .inr rfl⟩
  · rw [expandValue_room (Nat.not_le.mp hfull) h.stored]
    exact ⟨rfl, h.phase, h.stride, written_write h.stored _⟩

theorem expandValues_decLines (us : List Nat) (h : u.Stores phase) :
    (expandValues us u).DecLines u (State.Stores · phase) := by
  induction us generalizing u with
  | nil => exact ⟨rfl, h⟩
  | cons x us ih =>
    have hfirst : ((checkUnderrun (consume u.dec.bits u)).andThen (expandValue x)).DecLines u (State.Stores · phase) :=
      (checkedRead_decLines u.dec.bits u).andThen fun v hv =>
        expandValue_decLines x (hv ▸ ⟨h.phase, h.stride, h.stored⟩)
    exact hfirst.andThen fun v hv => ih hv

theorem tokenLines_decLines (bits : Nat) (us : List Nat) (h : u.Stores phase) :
    (((checkUnderrun (consume 7 u)).andThen fun t => checkUnderrun (consume 3 t)).andThen fun t =>
      expandValues us (t.startToken us.length bits)).DecLines u (State.Stores · phase) := by
  have hhead : ((checkUnderrun (consume 7 u)).andThen fun t => checkUnderrun (consume 3 t)).DecLines u
      (· = consume 3 (consume 7 u)) :=
    (checkedRead_decLines 7 u).andThen fun v hv => hv ▸ checkedRead_decLines 3 _
  refine hhead.andThen fun v hv => ?_
  subst hv
  have hstart : ((consume 3 (consume 7 u)).startToken us.length bits).Stores phase := ⟨h.phase, h.stride, h.stored⟩
  exact (expandValues_decLines us hstart).of_kept rfl

theorem headerLines_decLines (a : BitVec 2) (b : BitVec 16) (u : State) :
    ((checkUnderrun (consume 16 (consume 2 u))).andThen fun t => .ok (t.openTokens a b)).DecLines u
      (State.Stores · .tokens) :=
  ((checkedRead_decLines 16 (consume 2 u)).of_kept rfl).andThen fun _ _ =>
    ⟨rfl, rfl, Nat.succ_pos _, fun x _ hx => absurd hx (Nat.not_lt_zero x)⟩

/-- The re-interleave takes every byte from a place in the buffer (R165). -/
theorem exists_reint_source {len stride block x : Nat} (hstride : 0 < stride) (hx : x < len) :
    ∃ y, y < len ∧ ∀ {s t : State}, reint stride block len s = .ok t → t.data.read x = s.data.read y := by
  obtain ⟨win, hwin, hplace⟩ := exists_window (stride := stride) (block := block) hx
  obtain ⟨j, hj, rfl⟩ := List.mem_map.mp hplace
  have hjwin := List.mem_range.mp hj
  have hend := window_end_le hwin
  have hdest := dest_lt hstride hjwin
  exact ⟨win.1 + dest win.2 stride j, by omega, fun h =>
    ((reintWindow_movesBytes hstride).of_transpose h).moved win hwin j hjwin⟩

theorem reint_decLines (h : u.Stores phase) :
    (reint u.dec.hs u.block.toNat u.dec.n u).DecLines u (State.Stores · phase) := by
  cases hr : reint u.dec.hs u.block.toNat u.dec.n u with
  | ok t =>
    have hframe := (reint_transposed hr).frame
    have hdec : t.dec = u.dec := (congrArg State.dec hframe :)
    have hphase : t.phase = phase := (congrArg State.phase hframe).trans h.phase
    refine ⟨(congrArg State.decKept hframe :), hphase, hdec ▸ h.stride, fun x _ hx => ?_⟩
    rw [hdec] at hx
    obtain ⟨y, hy, hread⟩ := exists_reint_source (block := u.block.toNat) h.stride hx
    rw [hread hr]
    exact h.stored y (Nat.zero_le y) hy
  | raise c t =>
    rcases transpose_cases reintWindow u.dec.hs u.block.toNat u.dec.n u with ⟨-, hc⟩ | ⟨-, -, hc⟩ | ⟨-, -, hc⟩
    · cases hc.symm.trans hr
    · obtain ⟨rfl, rfl⟩ := Res.raise.inj (hc.symm.trans hr)
      exact ⟨rfl, .inr rfl⟩
    · cases hc.symm.trans hr
  | refuse e => exact absurd hr (transpose_ne_refuse _ _ _ _ _ e)

end

/-! ## Turns -/

/-- DEC begun in `s` has completed in `t`. -/
def State.DecCompletes (s t : State) : Prop := ∃ u : State, u.decKept = s.decKept ∧ u.Stores .finish ∧ u.endDecode = t

/-- DEC begun in `s` has ended in `t` with one of its two faults. -/
def State.DecFaults (s t : State) : Prop :=
  ∃ (c : Cause) (u : State), (c = .truncatedStream ∨ c = .allocation) ∧ u.decKept = s.decKept ∧ u.raise c .decoder = t

/-- DEC has its header, a token or its last lines to run next. -/
def State.DecRuns (u : State) : Prop := u.phase = .header ∨ u.Stores .tokens ∨ u.Stores .finish

/-- What turns of DEC begun in `s` answer: DEC has ended or runs on, or the stream is unspecified below `SLEN`. -/
def State.DecAnswers (s : State) (r : Result) : Prop :=
  match r with
  | .next t => s.DecCompletes t ∨ s.DecFaults t ∨ (t.decKept = s.decKept ∧ t.DecRuns)
  | .refused e => ∃ a, a < s.slen.toNat ∧ s.stream.read a = none ∧ e = .unspecifiedByte .stream a
  | .fault _ => False

section
variable {s t u : State} {r : Res}

theorem State.DecRuns.phase_ne (h : u.DecRuns) : u.phase ≠ .idle := by
  rcases h with h | h | h
  · simp [h]
  · simp [h.phase]
  · simp [h.phase]

theorem Res.DecLines.answers {phase : Phase} (h : r.DecLines u (State.Stores · phase))
    (hruns : ∀ t : State, t.Stores phase → t.DecRuns) : u.DecAnswers (r.answer .decoder) := by
  cases r with
  | ok t => exact .inr (.inr ⟨h.1, hruns t h.2⟩)
  | raise c t => exact .inr (.inl ⟨c, t, h.2, h.1, rfl⟩)
  | refuse e => exact h.elim

/-- A refused read names a byte of the stream (R316). -/
theorem peekBits_refused {n p : Nat} {e : Refusal} (h : peekBits u n p = .error e) : u.DecAnswers (.refused e) := by
  obtain ⟨k, -, -, hbit⟩ := peekBits_error h
  obtain ⟨hk, hread, he⟩ := sbit_eq_error.mp hbit
  exact ⟨k / 8, by omega, hread, he.symm⟩

theorem not_written_of_read {m : Memory} {a n : Nat} (ha : a < n) (hread : m.read a = none) : ¬ written m 0 n := by
  intro hwritten
  have hsome := hwritten a (Nat.zero_le a) ha
  rw [hread] at hsome
  cases hsome

theorem fetchHeader_refused {e : Refusal} (h : fetchHeader u = .refused e) : u.DecAnswers (.refused e) := by
  unfold fetchHeader at h
  split at h
  · next hpeek =>
    cases h
    exact peekBits_refused hpeek
  · unfold Element.ofDecode at h
    split at h <;> cases h

theorem fetchToken_refused {e : Refusal} (h : fetchToken u = .refused e) : u.DecAnswers (.refused e) := by
  unfold fetchToken at h
  split at h
  · next hpeek =>
    cases h
    exact peekBits_refused hpeek
  · split at h
    · cases h
    · split at h
      · next hpeek =>
        cases h
        exact peekBits_refused hpeek
      · unfold fetchRun at h
        split at h
        · next hpeek =>
          cases h
          exact peekBits_refused hpeek
        · unfold Element.ofDecode at h
          split at h <;> cases h

/-- The last lines (R220, R228). -/
theorem finishDecode_answers (h : u.Stores .finish) : u.DecAnswers (finishDecode u) := by
  have hlines := reint_decLines h
  unfold finishDecode
  cases hr : reint u.dec.hs u.block.toNat u.dec.n u with
  | ok t =>
    rw [hr] at hlines
    exact .inl ⟨t, hlines.1, hlines.2, rfl⟩
  | raise c t =>
    rw [hr] at hlines
    exact .inr (.inl ⟨c, t, hlines.2, hlines.1, rfl⟩)
  | refuse e =>
    rw [hr] at hlines
    exact hlines.elim

theorem headerTurn_answers (u : State) : u.DecAnswers (runElement (fetchHeader u) u) := by
  cases hfetch : fetchHeader u with
  | refused e => exact fetchHeader_refused hfetch
  | cutShort => exact absurd hfetch (fetchHeader_ne_cutShort u)
  | found el =>
    obtain ⟨a, b, rfl⟩ := fetchHeader_found hfetch
    exact (headerLines_decLines a b u).answers fun _ ht => .inr (.inl ht)

theorem tokenTurn_answers (h : u.Stores .tokens) : u.DecAnswers (runElement (fetchToken u) u) := by
  cases hfetch : fetchToken u with
  | refused e => exact fetchToken_refused hfetch
  | cutShort => exact .inr (.inl ⟨_, u, .inl rfl, rfl, rfl⟩)
  | found el =>
    rcases fetchToken_found hfetch with rfl | ⟨bits, us, hrun⟩
    · exact .inr (.inr ⟨rfl, .inr (.inr ⟨rfl, h.stride, h.stored⟩)⟩)
    · rw [runElement, hrun]
      exact (tokenLines_decLines bits us h).answers fun _ ht => .inr (.inl ht)

theorem decodeStep_answers (h : u.DecRuns) : u.DecAnswers (decodeStep u) := by
  rcases h with h | h | h
  · simpa only [decodeStep, h] using headerTurn_answers u
  · simpa only [decodeStep, h.phase] using tokenTurn_answers h
  · simpa only [decodeStep, h.phase] using finishDecode_answers h

theorem State.DecAnswers.of_kept {r : Result} (hkept : u.decKept = s.decKept) (h : u.DecAnswers r) :
    s.DecAnswers r := by
  cases r with
  | next t =>
    rcases h with ⟨v, hv, h⟩ | ⟨c, v, hc, hv, h⟩ | ⟨ht, h⟩
    · exact .inl ⟨v, hv.trans hkept, h⟩
    · exact .inr (.inl ⟨c, v, hc, hv.trans hkept, h⟩)
    · exact .inr (.inr ⟨ht.trans hkept, h⟩)
  | refused e =>
    have hslen : u.slen = s.slen := (congrArg State.slen hkept :)
    have hstream : u.stream = s.stream := (congrArg State.stream hkept :)
    rw [State.DecAnswers, hslen, hstream] at h
    exact h
  | fault e => exact h

theorem State.DecCompletes.idle (h : s.DecCompletes t) : t.phase = .idle := by
  obtain ⟨u, -, -, rfl⟩ := h
  rfl

theorem State.DecFaults.idle (h : s.DecFaults t) : t.phase = .idle := by
  obtain ⟨c, u, -, -, rfl⟩ := h
  exact u.raise_phase c .decoder

theorem decodeRun_answers (k : Nat) (h : u.DecRuns) : u.DecAnswers (Machine.decodeRun k u) := by
  induction k generalizing u with
  | zero => exact .inr (.inr ⟨rfl, h⟩)
  | succ k ih =>
    have hturn := decodeStep_answers h
    cases hstep : decodeStep u with
    | fault e => rw [hstep] at hturn; exact hturn.elim
    | refused e => rw [decodeRun_refused h.phase_ne hstep, ← hstep]; exact hturn
    | next t =>
      rw [decodeRun_next h.phase_ne hstep]
      rw [hstep] at hturn
      rcases hturn with hdone | hfault | ⟨hkept, hruns⟩
      · rw [decodeRun_idle hdone.idle]
        exact .inl hdone
      · rw [decodeRun_idle hfault.idle]
        exact .inr (.inl hfault)
      · exact (ih hruns).of_kept hkept

/-! ## DEC -/

theorem exec_dec_fresh (hfault : s.fault = false) :
    exec .dec s = Machine.decodeRun (decodeTurns s) { bsRinit s with phase := .header } := gate_open hfault _

theorem exec_dec_answers (hfault : s.fault = false) : s.DecAnswers (exec .dec s) := by
  rw [exec_dec_fresh hfault]
  exact (decodeRun_answers _ (.inl rfl)).of_kept rfl

/-- DEC is over when it answers (log 13). -/
theorem exec_dec_next (hfault : s.fault = false) (h : exec .dec s = .next t) : s.DecCompletes t ∨ s.DecFaults t := by
  have hanswers := exec_dec_answers hfault
  rw [h] at hanswers
  rw [exec_dec_fresh hfault] at h
  have hidle := (decodeRun_next_ends (by simp) (le_refl (decodeTurns s)) h).idle
  rcases hanswers with hdone | hfaults | ⟨-, hruns⟩
  · exact .inl hdone
  · exact .inr hfaults
  · exact absurd hidle hruns.phase_ne

theorem State.DecCompletes.outcome (hfault : s.fault = false) (h : s.DecCompletes t) :
    t.fault = false ∧ t.bsmode = .read ∧ written t.data 0 t.dlen.toNat := by
  obtain ⟨u, hkept, hstores, rfl⟩ := h
  refine ⟨(congrArg State.fault hkept).trans hfault, rfl, fun x hlow hx => ?_⟩
  rw [State.endDecode_dlen, BitVec.toNat_ofNat] at hx
  have hcount := hx.trans_le (Nat.mod_le u.dec.n (2 ^ 32))
  rw [State.endDecode_read hcount]
  exact hstores.stored x hlow hcount

theorem State.DecFaults.outcome (hfault : s.fault = false) (h : s.DecFaults t) :
    t.fault = true ∧ (t.cause = 4 ∨ t.cause = 5) ∧ t.bsmode = .none ∧ t.dlen = 0 ∧ unspecified t.data := by
  obtain ⟨c, u, hc, hkept, rfl⟩ := h
  rw [State.raise_fresh u c .decoder ((congrArg State.fault hkept).trans hfault)]
  refine ⟨rfl, ?_, rfl, rfl, fun _ => rfl⟩
  rcases hc with rfl | rfl
  · exact .inr rfl
  · exact .inl rfl

/-- What no DEC changes, whichever way it ends. -/
def State.DecLeaves (s t : State) : Prop :=
  t.block = s.block ∧ t.slen = s.slen ∧ samePacker s t ∧ t.result = s.result ∧ t.stream = s.stream ∧ samePorts s t

theorem State.decLeaves_of_decKept (h : t.decKept = s.decKept) : s.DecLeaves t := by
  have hfields : s.DecLeaves t.decKept := h ▸ ⟨rfl, rfl, ⟨rfl, rfl, rfl, rfl⟩, rfl, rfl, rfl, rfl, rfl, rfl⟩
  exact hfields

/-- A fault of DEC leaves the chunk alone (60_exceptions.md R280). -/
theorem State.DecLeaves.raise (h : s.DecLeaves u) (hfault : u.fault = false) (c : Cause) :
    s.DecLeaves (u.raise c .decoder) := by
  rw [State.raise_fresh u c .decoder hfault]
  exact h

end

/-- Settles O51: the turns of DEC, and that they come to an end. -/
theorem decAlwaysEnds : Obligations.DecAlwaysEnds := by
  intro s hfault
  have hanswers := exec_dec_answers hfault
  refine ⟨fun hwritten => ?_, fun e he => by rwa [he] at hanswers⟩
  cases hexec : exec .dec s with
  | next t =>
    rcases exec_dec_next hfault hexec with hdone | hfaults
    · exact ⟨t, rfl, hdone.idle, .inl (hdone.outcome hfault)⟩
    · exact ⟨t, rfl, hfaults.idle, .inr (hfaults.outcome hfault)⟩
  | refused e =>
    rw [hexec] at hanswers
    obtain ⟨a, ha, hread, -⟩ := hanswers
    exact absurd hwritten (not_written_of_read ha hread)
  | fault e => rw [hexec] at hanswers; exact hanswers.elim

/-- Settles O52: each of the two ends of DEC keeps what its lines keep. -/
theorem decFrame : Obligations.DecFrame := by
  intro s t h
  change s.DecLeaves t
  cases hfault : s.fault with
  | true =>
    obtain rfl := Host.Outcome.next.inj ((gate_shut hfault _).symm.trans h)
    exact State.decLeaves_of_decKept rfl
  | false =>
    rcases exec_dec_next hfault h with ⟨u, hkept, -, rfl⟩ | ⟨c, u, -, hkept, rfl⟩
    · have hleaves := State.decLeaves_of_decKept hkept
      exact hleaves
    · exact (State.decLeaves_of_decKept hkept).raise ((congrArg State.fault hkept).trans hfault) c

/-! ## A chunk shorter than its header -/

/-- The header of a written stream, whatever it is, can be read. -/
theorem fetchHeader_of_written {u : State} (h : written u.stream 0 u.slen.toNat) :
    ∃ a b, fetchHeader u = .found (.hdr a b) := by
  cases hfetch : fetchHeader u with
  | refused e =>
    obtain ⟨a, ha, hread, -⟩ := fetchHeader_refused hfetch
    exact absurd h (not_written_of_read ha hread)
  | cutShort => exact absurd hfetch (fetchHeader_ne_cutShort u)
  | found el =>
    obtain ⟨a, b, rfl⟩ := fetchHeader_found hfetch
    exact ⟨a, b, rfl⟩

/-- A header that runs off the stream is read to its end, and then the underrun is seen (R222, R227 (c)). -/
theorem execHdr_truncated {u : State} (h : 8 * u.slen.toNat < u.rpos + 18) (a : BitVec 2) (b : BitVec 16) :
    execHdr a b u =
      .next (State.raise { u with underrun := true, rpos := u.rpos + 18 } .truncatedStream .decoder) := by
  rw [execHdr, checkedRead_beyond (u := consume 2 u) (n := 16) (by decide) h]
  rfl

/-- Settles O48: whatever the header's fields are, DEC is over with its first turn. -/
theorem decOfAShortChunk : Obligations.DecOfAShortChunk := by
  intro s hfault hshort hwritten
  obtain ⟨a, b, hfound⟩ := fetchHeader_of_written (u := { bsRinit s with phase := .header }) hwritten
  have hturn : decodeStep { bsRinit s with phase := .header } =
      .next { faulted s 5 with rpos := 18, underrun := true, dlen := 0, data := [] } := by
    have hbeyond : 8 * s.slen.toNat < 0 + 18 := by omega
    rw [decodeStep, hfound, runElement, execElement, execHdr_truncated hbeyond]
    exact congrArg Host.Outcome.next (raise_decoder hfault rfl .truncatedStream)
  rw [exec_dec_fresh hfault, decodeTurns, decodeRun_next (by simp) hturn, decodeRun_idle rfl]

end Sys2Proof.Machine
end

section
/-! DEC depends on the valid stream, `SLEN`, `BLOCK` and the capacities alone (43_decode.md R239): two DECs that agree
on these take the same turns. -/

namespace Sys2Proof.Machine

/-! ## Reads of streams that agree -/

section
variable {u u' : State}

/-- A bit of the zero-extended stream needs the valid bytes alone (00_scope.md R11). -/
theorem sbit_of_valid (hslen : u'.slen = u.slen)
    (hstream : ∀ a, a < u.slen.toNat → u'.stream.read a = u.stream.read a) (k : Nat) : sbit u' k = sbit u k := by
  unfold sbit
  rw [hslen]
  split
  · rw [Memory.value, Memory.value, hstream (k / 8) (by omega)]
  · rfl

theorem peekBits_of_sbit (h : ∀ k, sbit u' k = sbit u k) (n p : Nat) : peekBits u' n p = peekBits u n p := by
  induction n generalizing p with
  | zero => rfl
  | succ n ih => simp only [peekBits, h, ih]

theorem sample_congr {m m' : Memory} {i : Nat} (h : m'.read i = m.read i) : sample m' i = sample m i := by
  rw [sample, sample, Memory.value, Memory.value, h]

/-- The gradient needs the bytes below its own alone (42_encode.md R181). -/
theorem grad_congr {m m' : Memory} {i t : Nat} (h : ∀ a, a < i → m'.read a = m.read a) : grad m' i t = grad m i t := by
  unfold grad
  split
  · rw [sampleDiff, sampleDiff, sample_congr (h (i - t) (by omega)), sample_congr (h (i - t - 1) (by omega))]
  · rfl

end

/-! ## States that DEC cannot tell apart -/

/-- What DEC sees of a state besides the memories; the rest is blanked. -/
def State.decView (s : State) : State :=
  { s with
    cause := 0, bsmode := .none, dlen := 0, bitlen := 0, acc := 0, fill := 0, spos := 0, result := 0, data := []
    stream := [], scratch := [], enc := {}, inputs := [], responses := [], hostReads := [] }

/-- Behind the header DEC cannot tell `u` and `u'` apart: they agree on the registers that it sees, on the valid stream
and on the bytes that it has stored. -/
structure State.Alike (u u' : State) : Prop where
  view : u'.decView = u.decView
  stream : ∀ a, a < u.slen.toNat → u'.stream.read a = u.stream.read a
  data : ∀ a, a < u.dec.n → u'.data.read a = u.data.read a
  clean : u.fault = false
  stride : 0 < u.dec.hs
  running : u.phase = .tokens ∨ u.phase = .finish

/-- What DEC sees of a state before its header is read. -/
def State.openView (s : State) : State := { s.decView with skip := 0, strip := 0, dec := {} }

/-- Before the header DEC cannot tell `u` and `u'` apart. -/
structure State.OpensAlike (u u' : State) : Prop where
  view : u'.openView = u.openView
  stream : ∀ a, a < u.slen.toNat → u'.stream.read a = u.stream.read a
  clean : u.fault = false

/-- What the fault of a DEC shows of the state in which it is raised. -/
structure State.FaultsAlike (u u' : State) : Prop where
  clean : u.fault = false
  clean' : u'.fault = false
  underrun : u'.underrun = u.underrun
  rpos : u'.rpos = u.rpos

/-- Two answers of DEC that show the same output. -/
def State.SameOutput (t t' : State) : Prop :=
  t'.fault = t.fault ∧ (t.fault = true → t'.cause = t.cause) ∧
    t'.bsmode = t.bsmode ∧ t'.underrun = t.underrun ∧ t'.dlen = t.dlen ∧ t'.rpos = t.rpos ∧
    (t.fault = false → t'.skip = t.skip ∧ t'.strip = t.strip) ∧
    ∀ a, a < t.dlen.toNat → t'.data.read a = t.data.read a

/-- Where `r` completes or raises, `r'` does so too, in a state related to that of `r`. -/
def Res.Follows (r r' : Res) (ok : State → State → Prop) : Prop :=
  match r with
  | .ok t => ∃ t', r' = .ok t' ∧ ok t t'
  | .raise c t => ∃ t', r' = .raise c t' ∧ t.FaultsAlike t'
  | .refuse _ => True

section
variable {u u' t : State} {r r' : Res} {f f' : State → Res} {P Q : State → State → Prop}

theorem Res.Follows.andThen (h : r.Follows r' P) (hf : ∀ v v', P v v' → (f v).Follows (f' v') Q) :
    (r.andThen f).Follows (r'.andThen f') Q := by
  cases r with
  | ok v =>
    obtain ⟨v', rfl, hv⟩ := h
    exact hf v v' hv
  | raise c v =>
    obtain ⟨v', rfl, hv⟩ := h
    exact ⟨v', rfl, hv⟩
  | refuse e => trivial

theorem State.Alike.slen (h : u.Alike u') : u'.slen = u.slen := (congrArg State.slen h.view :)
theorem State.Alike.cfg (h : u.Alike u') : u'.cfg = u.cfg := (congrArg State.cfg h.view :)
theorem State.Alike.dec (h : u.Alike u') : u'.dec = u.dec := (congrArg State.dec h.view :)
theorem State.Alike.phase (h : u.Alike u') : u'.phase = u.phase := (congrArg State.phase h.view :)
theorem State.Alike.rpos (h : u.Alike u') : u'.rpos = u.rpos := (congrArg State.rpos h.view :)
theorem State.Alike.underrun (h : u.Alike u') : u'.underrun = u.underrun := (congrArg State.underrun h.view :)
theorem State.Alike.block (h : u.Alike u') : u'.block = u.block := (congrArg State.block h.view :)

theorem State.Alike.faultsAlike (h : u.Alike u') : u.FaultsAlike u' :=
  ⟨h.clean, (congrArg State.fault h.view).trans h.clean, h.underrun, h.rpos⟩

theorem State.Alike.consume (h : u.Alike u') (n : Nat) : (consume n u).Alike (consume n u') :=
  ⟨(congrArg (Machine.consume n) h.view :), h.stream, h.data, h.clean, h.stride, h.running⟩

theorem checkUnderrun_follows (h : u.Alike u') : (checkUnderrun u).Follows (checkUnderrun u') State.Alike := by
  unfold checkUnderrun
  rw [h.underrun]
  split
  · exact ⟨u', rfl, h.faultsAlike⟩
  · exact ⟨u', rfl, h⟩

theorem State.Alike.append (h : u.Alike u') (b : Byte) : (u.append b).Alike (u'.append b) := by
  refine ⟨?_, h.stream, fun a ha => ?_, h.clean, h.stride, h.running⟩
  · have hview := congrArg (fun v : State => { v with dec := { v.dec with act := b, n := v.dec.n + 1 } }) h.view
    exact hview
  · rw [State.append_data, State.append_data, h.dec, Memory.read_write, Memory.read_write]
    split
    · rfl
    · exact h.data a (lt_of_le_of_ne (Nat.le_of_lt_succ ha) ‹_›)

theorem expandValue_follows (h : u.Alike u') (x : Nat) :
    (expandValue x u).Follows (expandValue x u') State.Alike := by
  have hgrad : grad u'.data u'.dec.n u'.dec.ht = grad u.data u.dec.n u.dec.ht := by
    rw [h.dec]
    exact grad_congr h.data
  rcases expandValue_cases x u with ⟨hfull, hvalue⟩ | ⟨-, e, -, hvalue⟩ | ⟨hroom, g, hg, hvalue⟩
  · rw [hvalue]
    exact ⟨u', expandValue_full (by rwa [h.cfg, h.dec]) x, h.faultsAlike⟩
  · rw [hvalue]
    trivial
  · have hnext : expandValue x u' = .ok (u'.append (reconstruct u.dec.act g x u.dec.bits)) := by
      rw [expandValue, if_neg (by rw [h.cfg, h.dec]; omega), hgrad, hg, h.dec]
    rw [hvalue]
    exact ⟨_, hnext, h.append _⟩

theorem expandValues_follows (us : List Nat) (h : u.Alike u') :
    (expandValues us u).Follows (expandValues us u') State.Alike := by
  induction us generalizing u u' with
  | nil => exact ⟨u', rfl, h⟩
  | cons x us ih =>
    rw [expandValues, expandValues, h.dec]
    exact ((checkUnderrun_follows (h.consume _)).andThen fun _ _ hv => expandValue_follows hv x).andThen
      fun _ _ hv => ih hv

theorem State.Alike.startToken (h : u.Alike u') (count bits : Nat) :
    (u.startToken count bits).Alike (u'.startToken count bits) :=
  ⟨(congrArg (State.startToken · count bits) h.view :), h.stream, h.data, h.clean, h.stride, h.running⟩

/-! ## Answers -/

/-- Between two turns of DECs that see the same: they have ended with the same output, or go on alike. -/
inductive State.TurnsAlike (t t' : State) : Prop
  | ended (hidle : t.phase = .idle) (hidle' : t'.phase = .idle) (hsame : t.SameOutput t')
  | runs (halike : t.Alike t')

theorem State.FaultsAlike.sameOutput (h : u.FaultsAlike u') (c : Cause) :
    (u.raise c .decoder).SameOutput (u'.raise c .decoder) := by
  rw [State.raise_fresh u c .decoder h.clean, State.raise_fresh u' c .decoder h.clean']
  exact ⟨rfl, fun _ => rfl, rfl, h.underrun, rfl, h.rpos, nofun, fun _ _ => rfl⟩

theorem State.FaultsAlike.turnsAlike (h : u.FaultsAlike u') (c : Cause) :
    (u.raise c .decoder).TurnsAlike (u'.raise c .decoder) :=
  .ended (u.raise_phase c .decoder) (u'.raise_phase c .decoder) (h.sameOutput c)

theorem Res.Follows.answer (h : r.Follows r' State.Alike) (ht : r.answer .decoder = .next t) :
    ∃ t', r'.answer .decoder = .next t' ∧ t.TurnsAlike t' := by
  rcases Res.answer_eq_next.mp ht with rfl | ⟨c, v, rfl, rfl⟩
  · obtain ⟨t', rfl, halike⟩ := h
    exact ⟨t', rfl, .runs halike⟩
  · obtain ⟨v', rfl, hfaults⟩ := h
    exact ⟨_, rfl, hfaults.turnsAlike c⟩

theorem runToken_follows (h : u.Alike u') (bits : Nat) (us : List Nat) (ht : runToken bits us u = .next t) :
    ∃ t', runToken bits us u' = .next t' ∧ t.TurnsAlike t' :=
  Res.Follows.answer
    (((checkUnderrun_follows (h.consume 7)).andThen fun _ _ hv => checkUnderrun_follows (hv.consume 3)).andThen
      fun _ _ hv => expandValues_follows us (hv.startToken us.length bits)) ht

theorem State.Alike.endDecode (h : u.Alike u') : u.endDecode.SameOutput u'.endDecode := by
  have hcount : u'.dec.n = u.dec.n := congrArg DecRegs.n h.dec
  have hfaults := h.faultsAlike
  refine ⟨hfaults.clean'.trans h.clean.symm, fun hfault => absurd (hfault.symm.trans h.clean) nofun, rfl, h.underrun,
    congrArg (BitVec.ofNat 32) hcount, h.rpos,
    fun _ => ⟨(congrArg State.skip h.view :), (congrArg State.strip h.view :)⟩, fun a ha => ?_⟩
  rw [State.endDecode_dlen, BitVec.toNat_ofNat] at ha
  have hbelow := ha.trans_le (Nat.mod_le u.dec.n (2 ^ 32))
  rw [State.endDecode_read hbelow, State.endDecode_read (hcount.symm ▸ hbelow), h.data a hbelow]

/-- The re-interleave takes the same bytes to the same places (R165). -/
theorem State.Alike.reint {t' : State} (h : u.Alike u') {block : Nat}
    (ht : Machine.reint u.dec.hs block u.dec.n u = .ok t) (ht' : Machine.reint u.dec.hs block u.dec.n u' = .ok t') :
    t.Alike t' := by
  have hframe := (reint_transposed ht).frame
  have hframe' := (reint_transposed ht').frame
  have hdec : t.dec = u.dec := (congrArg State.dec hframe :)
  have hslen : t.slen = u.slen := (congrArg State.slen hframe :)
  have hstream : t.stream = u.stream := (congrArg State.stream hframe :)
  have hstream' : t'.stream = u'.stream := (congrArg State.stream hframe' :)
  constructor
  case view =>
    calc t'.decView
        = u'.decView := (congrArg State.decView hframe' :)
      _ = u.decView := h.view
      _ = t.decView := (congrArg State.decView hframe :).symm
  case stream =>
    rw [hslen, hstream, hstream']
    exact h.stream
  case data =>
    intro a ha
    rw [hdec] at ha
    obtain ⟨y, hy, hread⟩ := exists_reint_source (block := block) h.stride ha
    rw [hread ht, hread ht', h.data y hy]
  case clean => exact (congrArg State.fault hframe).trans h.clean
  case stride => exact hdec ▸ h.stride
  case running =>
    have hphase : t.phase = u.phase := (congrArg State.phase hframe :)
    rw [hphase]
    exact h.running

theorem reint_follows (h : u.Alike u') :
    (reint u.dec.hs u.block.toNat u.dec.n u).Follows (reint u'.dec.hs u'.block.toNat u'.dec.n u') State.Alike := by
  rw [h.dec, h.block]
  by_cases hroom : u.dec.hs ≤ 1 ∨ scratchNeed u.dec.n u.dec.hs u.block.toNat ≤ u.cfg.scratchBytes
  · obtain ⟨t, ht, -⟩ := transpose_completes reintWindow_moves hroom
    obtain ⟨t', ht', -⟩ := transpose_completes (s := u') reintWindow_moves (h.cfg.symm ▸ hroom)
    rw [reint, ht]
    exact ⟨t', ht', h.reint ht ht'⟩
  · rw [not_or, Nat.not_le, Nat.not_le] at hroom
    rw [reint, transpose_lacks_scratch hroom.1 hroom.2]
    exact ⟨u', transpose_lacks_scratch hroom.1 (h.cfg.symm ▸ hroom.2), h.faultsAlike⟩

theorem finishDecode_follows (h : u.Alike u') (ht : finishDecode u = .next t) :
    ∃ t', finishDecode u' = .next t' ∧ t.TurnsAlike t' := by
  have hreint := reint_follows h
  unfold finishDecode at ht ⊢
  cases hr : reint u.dec.hs u.block.toNat u.dec.n u with
  | ok v =>
    rw [hr] at hreint ht
    obtain ⟨v', hv', halike⟩ := hreint
    obtain rfl := Host.Outcome.next.inj ht
    exact ⟨v'.endDecode, by rw [hv']; rfl, .ended rfl rfl halike.endDecode⟩
  | raise c v =>
    rw [hr] at hreint ht
    obtain ⟨v', hv', hfaults⟩ := hreint
    obtain rfl := Host.Outcome.next.inj ht
    exact ⟨v'.raise c .decoder, by rw [hv']; rfl, hfaults.turnsAlike c⟩
  | refuse e => rw [hr] at ht; cases ht

/-! ## Turns -/

/-- The header's fields come from the stream, and all that DEC keeps of the state before is the same. -/
theorem headerTurn_follows (h : u.OpensAlike u') (ht : runElement (fetchHeader u) u = .next t) :
    ∃ t', runElement (fetchHeader u') u' = .next t' ∧ t.TurnsAlike t' := by
  have hrpos : u'.rpos = u.rpos := (congrArg State.rpos h.view :)
  have hslen : u'.slen = u.slen := (congrArg State.slen h.view :)
  have hclean : u'.fault = false := (congrArg State.fault h.view :).trans h.clean
  have hread := congrArg (fun v => consume 16 (consume 2 v)) h.view
  have hunder : (consume 16 (consume 2 u')).underrun = (consume 16 (consume 2 u)).underrun :=
    (congrArg State.underrun hread :)
  have hfetch : fetchHeader u' = fetchHeader u := by
    simp only [fetchHeader, hrpos, peekBits_of_sbit (sbit_of_valid hslen h.stream)]
  rw [hfetch]
  cases hel : fetchHeader u with
  | refused e => rw [hel] at ht; cases ht
  | cutShort => exact absurd hel (fetchHeader_ne_cutShort u)
  | found el =>
    obtain ⟨a, b, rfl⟩ := fetchHeader_found hel
    rw [hel] at ht
    have hopen : ((consume 16 (consume 2 u)).openTokens a b).Alike ((consume 16 (consume 2 u')).openTokens a b) :=
      ⟨(congrArg (State.openTokens · a b) hread :), h.stream, fun _ hx => absurd hx (Nat.not_lt_zero _), h.clean,
        Nat.succ_pos _, .inl rfl⟩
    have hlines : ((checkUnderrun (consume 16 (consume 2 u))).andThen fun v => .ok (v.openTokens a b)).Follows
        ((checkUnderrun (consume 16 (consume 2 u'))).andThen fun v => .ok (v.openTokens a b)) State.Alike := by
      unfold checkUnderrun
      rw [hunder]
      split
      · exact ⟨_, rfl, h.clean, hclean, hunder, congrArg (· + 2 + 16) hrpos⟩
      · exact ⟨_, rfl, hopen⟩
    exact hlines.answer ht

theorem fetchToken_alike (h : u.Alike u') : fetchToken u' = fetchToken u := by
  simp only [fetchToken, fetchRun, valuesReached, h.rpos, h.cfg, h.dec,
    peekBits_of_sbit (sbit_of_valid h.slen h.stream)]

theorem tokenTurn_follows (h : u.Alike u') (ht : runElement (fetchToken u) u = .next t) :
    ∃ t', runElement (fetchToken u') u' = .next t' ∧ t.TurnsAlike t' := by
  rw [fetchToken_alike h]
  cases hel : fetchToken u with
  | refused e => rw [hel] at ht; cases ht
  | cutShort =>
    rw [hel] at ht
    obtain rfl := Host.Outcome.next.inj ht
    exact ⟨_, rfl, h.faultsAlike.turnsAlike _⟩
  | found el =>
    rw [hel] at ht
    rcases fetchToken_found hel with rfl | ⟨bits, us, hrun⟩
    · obtain rfl := Host.Outcome.next.inj ht
      exact ⟨_, rfl, .runs ⟨(congrArg (fun v => { Machine.consume 7 v with phase := .finish }) h.view :), h.stream,
        h.data, h.clean, h.stride, .inr rfl⟩⟩
    · rw [runElement, hrun] at ht ⊢
      exact runToken_follows h bits us ht

theorem decodeStep_follows (h : u.Alike u') (ht : decodeStep u = .next t) :
    ∃ t', decodeStep u' = .next t' ∧ t.TurnsAlike t' := by
  unfold decodeStep at ht ⊢
  rw [h.phase]
  rcases h.running with hphase | hphase <;> rw [hphase] at ht ⊢
  · exact tokenTurn_follows h ht
  · exact finishDecode_follows h ht

theorem decodeRun_succ_eq_next {k : Nat} (hphase : u.phase ≠ .idle) (h : Machine.decodeRun (k + 1) u = .next t) :
    ∃ v, decodeStep u = .next v ∧ Machine.decodeRun k v = .next t := by
  cases hstep : decodeStep u with
  | next v => exact ⟨v, rfl, (decodeRun_next hphase hstep).symm.trans h⟩
  | fault e => cases (decodeRun_fault hphase hstep).symm.trans h
  | refused e => cases (decodeRun_refused hphase hstep).symm.trans h

theorem State.Alike.phase_ne (h : u.Alike u') : u.phase ≠ .idle := by
  rcases h.running with hphase | hphase <;> simp [hphase]

theorem decodeRun_follows (k : Nat) (h : u.TurnsAlike u') (ht : Machine.decodeRun k u = .next t) :
    ∃ t', Machine.decodeRun k u' = .next t' ∧ t.TurnsAlike t' := by
  induction k generalizing u u' with
  | zero =>
    obtain rfl := Host.Outcome.next.inj ht
    exact ⟨u', rfl, h⟩
  | succ k ih =>
    cases h with
    | ended hidle hidle' hsame =>
      obtain rfl := Host.Outcome.next.inj ((decodeRun_idle hidle).symm.trans ht)
      exact ⟨u', decodeRun_idle hidle', .ended hidle hidle' hsame⟩
    | runs halike =>
      obtain ⟨v, hv, hrest⟩ := decodeRun_succ_eq_next halike.phase_ne ht
      obtain ⟨v', hv', hturns⟩ := decodeStep_follows halike hv
      rw [decodeRun_next (halike.phase ▸ halike.phase_ne) hv']
      exact ih hturns hrest

end

/-- Settles O53: the header's turn, and then turn by turn. -/
theorem decDependsOnTheStreamAlone : Obligations.DecDependsOnTheStreamAlone := by
  intro s s' t hfault hfault' hslen hblock hcfg hstream ht
  have hopens : ({ bsRinit s with phase := .header } : State).OpensAlike { bsRinit s' with phase := .header } := by
    refine ⟨?_, hstream, hfault⟩
    simp only [State.openView, State.decView, bsRinit, hfault, hfault', hslen, hblock, hcfg]
  have hphase (v : State) : ({ bsRinit v with phase := .header } : State).phase ≠ .idle := nofun
  have hturns : decodeTurns s' = decodeTurns s := by rw [decodeTurns, decodeTurns, hslen]
  rw [exec_dec_fresh hfault] at ht
  rw [exec_dec_fresh hfault', hturns]
  have hidle := (decodeRun_next_ends (hphase s) (le_refl (decodeTurns s)) ht).idle
  obtain ⟨v, hv, hrest⟩ := decodeRun_succ_eq_next (hphase s) ht
  obtain ⟨v', hv', hafter⟩ := headerTurn_follows hopens hv
  obtain ⟨t', ht', hends⟩ := decodeRun_follows _ hafter hrest
  refine ⟨t', (decodeRun_next (hphase s') hv').trans ht', ?_⟩
  cases hends with
  | ended _ _ hsame => exact hsame
  | runs halike => exact absurd hidle halike.phase_ne

end Sys2Proof.Machine
end

section
/-! The register file: its addresses, and the registers as numbers (10_state.md R21, R22, R33). -/

namespace Sys2Proof.Machine

/-- The table of R21 by register: the address of each. -/
def Reg.addr (r : Reg) : BitVec 8 :=
  match r with
  | .status => 0x00
  | .skip => 0x01
  | .strip => 0x02
  | .block => 0x03
  | .dlen => 0x04
  | .slen => 0x05
  | .bitlen => 0x06
  | .acc => 0x07
  | .fill => 0x08
  | .spos => 0x09
  | .rpos => 0x0A
  | .result => 0x0B

theorem Reg.ofAddr_addr (r : Reg) : Reg.ofAddr r.addr = some r := by cases r <;> rfl

/-- The unimplemented addresses are those above `RESULT`'s (R21). -/
theorem Reg.ofAddr_eq_none_iff : ∀ a : BitVec 8, Reg.ofAddr a = none ↔ 0x0B < a.toNat := by decide

theorem Reg.addr_of_ofAddr : ∀ (a : BitVec 8), ∀ r ∈ Reg.ofAddr a, r.addr = a := by decide

theorem toNat_append_eq_add {m n : Nat} (x : BitVec m) (y : BitVec n) :
    (x ++ y).toNat = x.toNat * 2 ^ n + y.toNat := by
  rw [BitVec.toNat_append, ← Nat.shiftLeft_add_eq_or_of_lt y.isLt, Nat.shiftLeft_eq]

/-- The layout of R22 as a sum. -/
theorem State.status_toNat (s : State) :
    s.status.toNat = s.fault.toNat + 2 * s.cause.toNat + 16 * s.bsmode.code.toNat + 64 * s.underrun.toNat := by
  simp only [State.status, toNat_append_eq_add, BitVec.toNat_ofBool, BitVec.ofNat_eq_ofNat, BitVec.toNat_zero]
  omega

/-- RREG returns no register cut short: each has at most 64 bits, `RPOS` taken modulo `2^64` (R33, R253). -/
theorem registerNat_addr (s : State) (r : Reg) : registerNat s r.addr.toNat = some (s.regValue r).toNat := by
  cases r
  case status => exact congrArg some (s.status_toNat.symm.trans (BitVec.toNat_setWidth_of_le (by decide)).symm)
  case bitlen => rfl
  case rpos => exact congrArg some (BitVec.toNat_ofNat s.rpos 64).symm
  all_goals exact congrArg some (BitVec.toNat_setWidth_of_le (by decide)).symm

theorem registerNat_unimplemented (s : State) {a : Nat} (ha : 0x0B < a) : registerNat s a = none := by
  unfold registerNat
  split
  case h_13 => rfl
  all_goals omega

theorem registerNat_eq_some {s : State} {a : BitVec 8} {n : Nat} (h : registerNat s a.toNat = some n) :
    ∃ r : Reg, r.addr = a ∧ (s.regValue r).toNat = n := by
  cases hr : Reg.ofAddr a with
  | none => simp [registerNat_unimplemented s ((Reg.ofAddr_eq_none_iff a).mp hr)] at h
  | some r =>
    obtain rfl := Reg.addr_of_ofAddr a r hr
    exact ⟨r, rfl, Option.some.inj ((registerNat_addr s r).symm.trans h)⟩

end Sys2Proof.Machine
end

section
/-! Host control commands: the fault gate, RESET, WREG, RREG (44_host_commands.md R250 to R253). -/

namespace Sys2Proof.Machine

section
variable {s : State} {imm : BitVec 32}

/-- A host command's first fault invalidates nothing (60_exceptions.md R280). -/
theorem raise_hostCommand (hfault : s.fault = false) (c : Cause) : s.raise c .hostCommand = faulted s c.code :=
  State.raise_fresh s c .hostCommand hfault

theorem exec_rreg_addr (s : State) (r : Reg) : exec (.rreg r.addr) s = .next (s.respond (s.regValue r)) := by
  rw [exec, execRreg, Reg.ofAddr_addr, Res.ok_answer]

theorem exec_rreg_unimplemented (s : State) {a : BitVec 8} (ha : 0x0B < a.toNat) :
    exec (.rreg a) s = .next (s.raise .badOperand .hostCommand) := by
  rw [exec, execRreg, (Reg.ofAddr_eq_none_iff a).mpr ha, Res.raise_answer]

theorem exec_wreg_addr (hfault : s.fault = false) (r : Reg) (imm : BitVec 32) :
    exec (.wreg r.addr imm) s = (writeReg r imm s).answer .hostCommand := by
  rw [exec, execWreg, gate_open hfault, Reg.ofAddr_addr]

theorem exec_wreg_unimplemented (hfault : s.fault = false) {a : BitVec 8} (ha : Reg.ofAddr a = none)
    (imm : BitVec 32) : exec (.wreg a imm) s = .next (faulted s 2) := by
  rw [exec, execWreg, gate_open hfault, ha, Res.raise_answer, raise_hostCommand hfault]
  rfl

theorem exec_wreg_stores (hfault : s.fault = false) {r : Reg} {t : State} (h : writeReg r imm s = .ok t) :
    exec (.wreg r.addr imm) s = .next t := by
  rw [exec_wreg_addr hfault, h, Res.ok_answer]

theorem exec_wreg_raises (hfault : s.fault = false) {r : Reg} {c : Cause} (h : writeReg r imm s = .raise c s) :
    exec (.wreg r.addr imm) s = .next (faulted s c.code) := by
  rw [exec_wreg_addr hfault, h, Res.raise_answer, raise_hostCommand hfault]

/-- The list is the addresses of the registers that WREG writes (R252). -/
theorem writeReg_readOnly {r : Reg} (h : r.addr ∉ ([0x01, 0x02, 0x03, 0x04, 0x05] : List (BitVec 8)))
    (imm : BitVec 32) (s : State) : writeReg r imm s = .raise .badOperand s := by
  cases r
  case skip | strip | block | dlen | slen => exact absurd (by decide) h
  all_goals rfl

/-- In an open write session a lowered `SLEN` also keeps the bytes that the session has stored (R252 (c); log 4). -/
theorem State.slenKeeps_le_iff (s : State) {n a : Nat} :
    s.slenKeeps n ≤ a ↔ n ≤ a ∧ ¬(s.bsmode = .write ∧ a < s.spos.toNat) := by
  unfold State.slenKeeps
  split
  · next hmode => simp only [hmode, true_and]; omega
  · next hmode => simp only [hmode, false_and, not_false_eq_true, and_true]

theorem State.setDlen_frame (s : State) (n : BitVec 32) :
    s.setDlen n.toNat = { s with dlen := n, data := (s.setDlen n.toNat).data } := by
  rw [State.setDlen, BitVec.ofNat_toNat, BitVec.setWidth_eq]

theorem State.setSlen_frame (s : State) (n : BitVec 32) :
    s.setSlen n.toNat = { s with slen := n, stream := (s.setSlen n.toNat).stream } := by
  rw [State.setSlen, BitVec.ofNat_toNat, BitVec.setWidth_eq]

end

/-! ## The statements -/

/-- Settles O19: past the range checks, WREG is `setDlen` or `setSlen`, whose reads are known. -/
theorem wregStoresLengths : Obligations.WregStoresLengths := by
  intro s imm hfault
  constructor
  · intro hroom
    have hwrite : writeReg .dlen imm s = .ok (s.setDlen imm.toNat) := if_neg (Nat.not_lt.mpr hroom)
    exact ⟨_, exec_wreg_stores hfault hwrite, s.setDlen_frame imm, s.setDlen_read imm.toNat⟩
  · intro hroom
    have hwrite : writeReg .slen imm s = .ok (s.setSlen imm.toNat) := if_neg (Nat.not_lt.mpr hroom)
    refine ⟨_, exec_wreg_stores hfault hwrite, s.setSlen_frame imm, fun a => ?_⟩
    rw [State.setSlen_read]
    exact if_congr (and_congr_right' s.slenKeeps_le_iff) rfl rfl

/-- Settles O20: an address without a register, a read-only register, and the four checks of `writeReg`. -/
theorem wregRefusesBadOperands : Obligations.WregRefusesBadOperands := by
  intro s reg imm hfault
  refine ⟨fun hreg => ?_, fun hrange => ?_, fun hrange => ?_, fun hrange => ?_, fun hrange => ?_⟩
  · cases hr : Reg.ofAddr reg with
    | none => exact exec_wreg_unimplemented hfault hr imm
    | some r =>
      obtain rfl := Reg.addr_of_ofAddr reg r hr
      exact exec_wreg_raises hfault (writeReg_readOnly hreg imm s)
  · exact exec_wreg_raises (r := .skip) (c := .badOperand) hfault (if_pos hrange)
  · exact exec_wreg_raises (r := .strip) (c := .badOperand) hfault (if_pos hrange)
  · exact exec_wreg_raises (r := .dlen) (c := .allocation) hfault (if_pos hrange)
  · exact exec_wreg_raises (r := .slen) (c := .allocation) hfault (if_pos hrange)

/-- Settles O21: a register by its address; of any other address, a raise, without or under a latched fault. -/
theorem rregReturnsTheRegister : Obligations.RregReturnsTheRegister := by
  intro s reg
  refine ⟨fun n hn => ?_, fun haddr hfault => ?_, fun haddr hfault => ?_⟩
  · obtain ⟨r, rfl, rfl⟩ := registerNat_eq_some hn
    refine ⟨(s.regValue r).isLt, ?_⟩
    rw [exec_rreg_addr, BitVec.ofNat_toNat, BitVec.setWidth_eq]
    rfl
  · rw [exec_rreg_unimplemented s haddr, raise_hostCommand hfault]
    rfl
  · rw [exec_rreg_unimplemented s haddr, State.raise_latched s _ _ hfault]
    rfl

/-- Settles O11: every command but these two begins with the fault gate. -/
theorem faultGateDropsCommands : Obligations.FaultGateDropsCommands := by
  intro i s hcommand hreset hrreg hfault
  cases i with
  | reset => exact absurd rfl hreset
  | rreg r => exact absurd rfl (hrreg r)
  | wreg _ _ | winit | wbits _ _ | wflush | rinit | rbits _ | deint | int | enc | dec => exact gate_shut hfault _
  | hdr _ _ | runW0 _ | runW2 _ | runW3 _ | runW4 _ | runW5 _ | runW6 _ | runW7 _ | runW8 _ | endMark => cases hcommand

/-- Settles O16: the registers and memories are those after power-on, and the reset input is RESET. -/
theorem resetCommandGivesResetState : Obligations.ResetCommandGivesResetState := by
  constructor
  · intro s
    have hregisters (a : Nat) : registerNat s.toReset a = registerNat State.reset a := rfl
    obtain ⟨hzero, hrpos, hdata, hstream, hscratch⟩ := powerOnState
    exact ⟨s.toReset, rfl, fun a n h => hzero a n ((hregisters a).symm.trans h), hrpos, rfl, hdata, hstream, hscratch,
      rfl, rfl, rfl, rfl, rfl, rfl, rfl⟩
  · intro s rest hphase hinputs
    exact step_of_hostAction_other hphase hinputs rfl

/-- Settles O18: a value in range fits its register, so it is stored as given. -/
theorem wregStoresParameters : Obligations.WregStoresParameters := by
  intro s imm hfault
  refine ⟨fun hrange => ⟨imm.setWidth 2, ?_, ?_⟩, fun hrange => ⟨imm.setWidth 16, ?_, ?_⟩, ?_⟩
  · rw [BitVec.toNat_setWidth, Nat.mod_eq_of_lt (by omega)]
  · exact exec_wreg_stores (r := .skip) hfault (if_neg (Nat.not_lt.mpr hrange))
  · rw [BitVec.toNat_setWidth, Nat.mod_eq_of_lt (by omega)]
  · exact exec_wreg_stores (r := .strip) hfault (if_neg (Nat.not_lt.mpr hrange))
  · exact exec_wreg_stores (r := .block) hfault rfl

end Sys2Proof.Machine
end

section
/-! The arithmetic of the two wraps (45_arithmetic_control_access.md R262). -/

namespace Sys2Proof.Machine

/-- Settles O6: the identity by which the round trip restores a byte from its prediction and its residual. -/
theorem wrappedResidualRecoversByte : Obligations.WrappedResidualRecoversByte :=
  wrapU8_residual

end Sys2Proof.Machine
end

section
/-! Which words are no command, and which one is RESET (30_encoding.md R90 to R92). -/

namespace Sys2Proof.Machine

section
variable {op a : BitVec 8} {imm : BitVec 32} {i j : Instr} {w : CommandWord}

theorem formatZ_eq_ok : formatZ op a imm i = .ok j ↔ (a = 0 ∧ imm = 0) ∧ i = j := by
  unfold formatZ
  split
  · next h => simp [h]
  · next h => exact ⟨nofun, fun hok => absurd hok.1 h⟩

theorem formatR_eq_ok : formatR op imm i = .ok j ↔ imm = 0 ∧ i = j := by
  unfold formatR
  split
  · next h => simp [h]
  · next h => exact ⟨nofun, fun hok => absurd hok.1 h⟩

theorem formatZ_nonZero (h : a ≠ 0 ∨ imm ≠ 0) : formatZ op a imm i = .error (.nonZeroField op) :=
  if_neg fun ⟨ha, himm⟩ => h.elim (· ha) (· himm)

/-! ## The three kinds of illegal words (R92) -/

theorem decodeFields_unlisted (h : op ∉ legalOps) : decodeFields op a imm = .error (.illegalOp op) := by
  simp only [legalOps, List.mem_cons, List.not_mem_nil, or_false, not_or] at h
  simp only [decodeFields, h, if_false]

theorem decodeFields_formatZ (hop : op ∈ formatZOps) (h : a ≠ 0 ∨ imm ≠ 0) :
    decodeFields op a imm = .error (.nonZeroField op) := by
  simp only [formatZOps, List.mem_cons, List.not_mem_nil, or_false] at hop
  rcases hop with rfl | rfl | rfl | rfl | rfl | rfl | rfl | rfl <;> exact formatZ_nonZero h

theorem decodeFields_formatR (hop : op = 0x03 ∨ op = 0x14) (h : imm ≠ 0) :
    decodeFields op a imm = .error (.nonZeroField op) := by
  rcases hop with rfl | rfl <;> exact if_neg h

theorem decodeCommand_illegal (h : illegalWord w) : ∃ e, decodeCommand w = .error e := by
  rcases h with hop | ⟨hop, hfields⟩ | ⟨hop, himm⟩
  · exact ⟨_, decodeFields_unlisted hop⟩
  · exact ⟨_, decodeFields_formatZ hop hfields⟩
  · exact ⟨_, decodeFields_formatR hop himm⟩

/-! ## The one word that is RESET -/

theorem decodeFields_eq_reset (h : decodeFields op a imm = .ok .reset) : op = 0x01 ∧ a = 0 ∧ imm = 0 := by
  by_cases hop : op = 0x01
  · rw [decodeFields, if_pos hop] at h
    exact ⟨hop, (formatZ_eq_ok.mp h).1⟩
  · rw [decodeFields, if_neg hop] at h
    simp [ite_eq_iff, formatZ_eq_ok, formatR_eq_ok] at h

/-- A word by its fields (R90). -/
theorem commandWord_toNat (w : CommandWord) :
    w.toNat = (commandOp w).toNat * 2 ^ 40 + (commandA w).toNat * 2 ^ 32 + (commandImm w).toNat := by
  have hw := w.isLt
  simp only [commandOp, commandA, commandImm, BitVec.extractLsb'_toNat, Nat.shiftRight_eq_div_pow]
  omega

theorem decodeCommand_eq_reset (h : decodeCommand w = .ok .reset) : w = 0x010000000000 := by
  obtain ⟨hop, ha, himm⟩ := decodeFields_eq_reset h
  apply BitVec.eq_of_toNat_eq
  rw [commandWord_toNat, hop, ha, himm]
  rfl

end

end Sys2Proof.Machine
end

section
/-! Taking a fault, and the machine while one is latched (60_exceptions.md R271 to R274, R280 to R284). -/

namespace Sys2Proof.Machine

section
variable {s t : State} {w : CommandWord} {a : HostAction} {rest : List HostAction}

/-! ## The step on a host action -/

theorem step_waits (hphase : s.phase = .idle) (hinputs : s.inputs = []) : step s = .next s := by
  have hfetch : fetch s = .idle := by simp only [fetch, hphase, hinputs]
  rw [step, hfetch]

theorem step_takes (hphase : s.phase = .idle) (hinputs : s.inputs = a :: rest) :
    step s = (hostAction a { s with inputs := rest }).answer s := by
  have hfetch : fetch s = hostAction a { s with inputs := rest } := by simp only [fetch, hphase, hinputs]
  rw [step_eq_answer, hfetch]

theorem hostAction_illegal (h : illegalWord w) (s : State) :
    hostAction (.command w) s = .other (.next (s.raise .illegalCommand .commandDecode)) := by
  obtain ⟨e, he⟩ := decodeCommand_illegal h
  simp only [hostAction, acceptCommand, he]

/-! ## While a fault is latched -/

theorem State.Leads.cause (h : s.Leads t) : t.cause = s.cause := (congrArg State.cause h.fixed :)

/-- A raise on the way of a command that began under a latched fault keeps the first cause (R282 (c)). -/
theorem State.RaisedFrom.keeps_cause {site : RaisedIn} (hfault : s.fault = true) (h : s.RaisedFrom site t) :
    t.fault = true ∧ t.cause = s.cause := by
  obtain ⟨c, u, hu, rfl⟩ := h
  refine ⟨State.raise_fault u c site, ?_⟩
  rw [State.raise_cause, if_pos (hu.fault.trans hfault), hu.cause]

theorem fault_kept_of_leads {site : RaisedIn} (hfault : s.fault = true) (h : s.Leads t ∨ s.RaisedFrom site t) :
    t.fault = true ∧ t.cause = s.cause := by
  rcases h with h | h
  · exact ⟨h.fault.trans hfault, h.cause⟩
  · exact h.keeps_cause hfault

end

/-- Settles O13: the gated commands are dropped, and RREG and the stream elements at most raise again. -/
theorem firstCauseIsKept : Obligations.FirstCauseIsKept := by
  intro i s t hfault hi h
  cases i with
  | reset => exact absurd rfl hi
  | rreg r =>
    rcases execRreg_next h with ⟨v, rfl⟩ | hraised
    · exact ⟨hfault, rfl⟩
    · exact hraised.keeps_cause hfault
  | wreg _ _ | winit | wbits _ _ | wflush | rinit | rbits _ | deint | int | enc | dec =>
    obtain rfl := Host.Outcome.next.inj ((gate_shut hfault _).symm.trans h)
    exact ⟨hfault, rfl⟩
  | hdr _ _ => exact fault_kept_of_leads hfault ((execHdr_next h).imp_left And.left)
  | runW0 _ | runW2 _ | runW3 _ | runW4 _ | runW5 _ | runW6 _ | runW7 _ | runW8 _ =>
    exact fault_kept_of_leads hfault (runToken_leads h)
  | endMark => exact fault_kept_of_leads (site := .decoder) hfault (.inl (leads_execEndMark h).1)

/-- The host's two ways to reset the block (R284). -/
theorem hostAction_leaves_fault {s t u : State} {a : HostAction} (hfault : s.fault = true)
    (h : (hostAction a s).answer u = .next t) (ht : t.fault = false) :
    a = .command 0x010000000000 ∨ a = .resetInput := by
  have still_latched (hlatched : t.fault = true) : False := by simp [hlatched] at ht
  cases a with
  | resetInput => exact .inr rfl
  | command w =>
    cases hw : decodeCommand w with
    | error e =>
      simp only [hostAction, acceptCommand, hw] at h
      obtain rfl := Host.Outcome.next.inj h
      exact (still_latched (State.raise_fault s _ _)).elim
    | ok i =>
      simp only [hostAction, acceptCommand, hw] at h
      by_cases hi : i = .reset
      · subst hi
        exact .inl (congrArg HostAction.command (decodeCommand_eq_reset hw))
      · exact (still_latched (firstCauseIsKept i s t hfault hi h).1).elim
  | writeData addr bytes | writeStream addr bytes =>
    obtain ⟨-, rfl⟩ := hostWrite_next h
    exact (still_latched hfault).elim
  | readData addr | readStream addr =>
    obtain ⟨-, -, b, -, rfl⟩ := hostRead_eq_next.mp h
    exact (still_latched hfault).elim

/-- Settles O12, by the host's action. -/
theorem onlyResetLeavesTheFaultState : Obligations.OnlyResetLeavesTheFaultState := by
  intro s t hphase hfault h ht
  cases hinputs : s.inputs with
  | nil =>
    obtain rfl := Host.Outcome.next.inj ((step_waits hphase hinputs).symm.trans h)
    simp [hfault] at ht
  | cons a rest =>
    rw [step_takes hphase hinputs] at h
    rcases hostAction_leaves_fault (s := { s with inputs := rest }) hfault h ht with rfl | rfl
    · exact ⟨rest, .inl rfl⟩
    · exact ⟨rest, .inr rfl⟩

/-- Settles O10: the step is the raise, without or under a latched fault. -/
theorem illegalWordRaises : Obligations.IllegalWordRaises := by
  intro s w rest hphase hinputs hillegal
  have hstep := step_of_hostAction_other hphase hinputs (hostAction_illegal hillegal _)
  refine ⟨fun hfault => ?_, fun hfault => ?_⟩
  · exact hstep.trans (congrArg Host.Outcome.next (State.raise_fresh { s with inputs := rest } _ _ hfault))
  · exact hstep.trans (congrArg Host.Outcome.next (State.raise_latched { s with inputs := rest } _ _ hfault))

/-! ## The faults of the bit commands -/

section
variable {s : State} {n : BitVec 8} {imm : BitVec 32}

/-- A first fault in WBITS or WFLUSH loses the chunk and keeps the packer's registers (R280). -/
theorem raise_packer (hfault : s.fault = false) (c : Cause) : s.raise c .packer = faultedPacker s c.code :=
  State.raise_fresh s c .packer hfault

/-- A first fault in RBITS invalidates nothing (R280). -/
theorem raise_unpacker (hfault : s.fault = false) (c : Cause) : s.raise c .unpacker = faulted s c.code :=
  State.raise_fresh s c .unpacker hfault

theorem emitWord_beyond (hcap : s.cfg.streamBytes < s.spos.toNat + 4) (w : Nat) :
    emitWord w s = .raise .allocation s := if_pos hcap

theorem bsWrite_beyond {v k : Nat} (hfull : 32 ≤ s.fill.toNat + k) (hcap : s.cfg.streamBytes < s.spos.toNat + 4) :
    bsWrite v k s = .raise .allocation s := by
  rw [bsWrite_full hfull, emitWord_beyond hcap, Res.raise_andThen]

theorem bsFlush_beyond (hpending : 0 < s.fill.toNat) (hcap : s.cfg.streamBytes < s.spos.toNat + 4) :
    bsFlush s = .raise .allocation s := by
  rw [bsFlush_pending hpending, emitWord_beyond hcap, Res.raise_andThen]

theorem exec_wbits_badSequence (hfault : s.fault = false) (hmode : s.bsmode ≠ .write) :
    exec (.wbits n imm) s = .next (s.raise .badSequence .packer) := by
  rw [exec, execWbits, gate_open hfault, if_pos hmode, Res.raise_answer]

theorem exec_wbits_badOperand (hfault : s.fault = false) (hmode : s.bsmode = .write) (hn : 32 < n.toNat) :
    exec (.wbits n imm) s = .next (s.raise .badOperand .packer) := by
  rw [exec, execWbits, gate_open hfault, if_neg (not_not_intro hmode), if_pos hn, Res.raise_answer]

theorem exec_wflush_badSequence (hfault : s.fault = false) (hmode : s.bsmode ≠ .write) :
    exec .wflush s = .next (s.raise .badSequence .packer) := by
  rw [exec, execWflush, gate_open hfault, if_pos hmode, Res.raise_answer]

theorem exec_rbits_badSequence (hfault : s.fault = false) (hmode : s.bsmode ≠ .read) :
    exec (.rbits n) s = .next (s.raise .badSequence .unpacker) := by
  rw [exec, execRbits, gate_open hfault, if_pos hmode, Res.raise_answer]

theorem exec_rbits_badOperand (hfault : s.fault = false) (hmode : s.bsmode = .read) (hn : 32 < n.toNat) :
    exec (.rbits n) s = .next (s.raise .badOperand .unpacker) := by
  rw [exec, execRbits, gate_open hfault, if_neg (not_not_intro hmode), if_pos hn, Res.raise_answer]

end

/-- Settles O26: the checks in the order of R283, and what a raise in the packer or the unpacker leaves. -/
theorem bitCommandFaults : Obligations.BitCommandFaults := by
  intro s n imm hfault
  refine ⟨fun hmode => ?_, fun hmode => ?_, fun hmode => ?_, fun hmode hn => ?_, fun hmode hn => ?_,
    fun hmode hn hfull hcap => ?_, fun hmode hpending hcap => ?_⟩
  · rw [exec_wbits_badSequence hfault hmode, raise_packer hfault, Cause.code]
  · rw [exec_wflush_badSequence hfault hmode, raise_packer hfault, Cause.code]
  · rw [exec_rbits_badSequence hfault hmode, raise_unpacker hfault, Cause.code]
  · rw [exec_wbits_badOperand hfault hmode hn, raise_packer hfault, Cause.code]
  · rw [exec_rbits_badOperand hfault hmode hn, raise_unpacker hfault, Cause.code]
  · rw [exec_wbits_writing hfault hmode hn, bsWrite_beyond hfull hcap, Res.raise_answer,
      raise_packer hfault, Cause.code]
  · rw [exec_wflush_writing hfault hmode, bsFlush_beyond hpending hcap, Res.raise_andThen, Res.raise_answer,
      raise_packer hfault, Cause.code]

/-! ## Every fault is taken -/

section
variable {s : State} {f : Fault}

theorem gate_ne_fault {body : Result} (h : body ≠ .fault f) : gate s body ≠ .fault f := by
  unfold gate
  split
  · exact nofun
  · exact h

theorem exec_enc_ne_fault : exec .enc s ≠ .fault f := by
  refine gate_ne_fault ?_
  cases deint s.stride s.block.toNat s.dlen.toNat s with
  | ok u => exact Res.answer_ne_fault _ _ f
  | raise c u => exact nofun
  | refuse e => exact nofun

/-- No turn of DEC stops with a fault. -/
theorem exec_dec_ne_fault : exec .dec s ≠ .fault f := by
  refine gate_ne_fault fun h => ?_
  have hanswers := decodeRun_answers (u := { bsRinit s with phase := .header }) (decodeTurns s) (.inl rfl)
  rw [h] at hanswers
  exact hanswers

end

/-- Settles O58: an instruction that can raise ends by `Res.answer`, which takes the fault, or is ENC or DEC. -/
theorem noInstructionStopsWithAFault : Obligations.NoInstructionStopsWithAFault := by
  intro i s f
  cases i with
  | reset | endMark => exact nofun
  | winit | rinit => exact gate_ne_fault nofun
  | wreg _ _ | wbits _ _ | wflush | rbits _ | deint | int => exact gate_ne_fault (Res.answer_ne_fault _ _ f)
  | enc => exact exec_enc_ne_fault
  | dec => exact exec_dec_ne_fault
  | rreg _ | hdr _ _ | runW0 _ | runW2 _ | runW3 _ | runW4 _ | runW5 _ | runW6 _ | runW7 _ | runW8 _ =>
    exact Res.answer_ne_fault _ _ f

end Sys2Proof.Machine
end

section
/-! RBITS on a stream that is not written throughout: the read needs the value of each byte below `SLEN` that it touches
(70_reset_and_hazards.md R316, 00_scope.md R18). -/

namespace Sys2Proof.Machine

section
variable {s : State} {p n : Nat} {bs : List Bool} {e : Refusal}

/-- Converse of `peekBits_of_bitsWritten`: bits that a peek returns come from bytes that hold a value. -/
theorem bitsWritten_of_peekBits (hpeek : peekBits s n p = .ok bs) : bitsWritten s p n := by
  intro k hlow hhigh hslen
  obtain ⟨hlen, hbits⟩ := peekBits_eq_ok.mp hpeek
  have hbit := hbits (k - p) (by omega)
  rw [Nat.add_sub_cancel' hlow] at hbit
  cases hread : s.stream.read (k / 8) with
  | some b => rfl
  | none =>
    rw [sbit_eq_error.mpr ⟨hslen, hread, rfl⟩] at hbit
    cases hbit

theorem exec_rbits_refused {n : BitVec 8} (hfault : s.fault = false) (hmode : s.bsmode = .read)
    (hn : n.toNat ≤ 32) (hpeek : peekBits s n.toNat s.rpos = .error e) : exec (.rbits n) s = .refused e := by
  rw [exec, execRbits, gate_open hfault, if_neg (not_not_intro hmode), if_neg (Nat.not_lt.mpr hn), bsRead, hpeek,
    Res.refuse_answer]

end

/-- Settles O30, by what the peek at the `n` bits answers: bits only where every byte holds a value, else the refusal
of such a byte. -/
theorem rbitsNeedsWrittenBytes : Obligations.RbitsNeedsWrittenBytes := by
  intro s n hfault hmode hn hunwritten
  cases hpeek : peekBits s n.toNat s.rpos with
  | ok bs => exact (hunwritten (bitsWritten_of_peekBits hpeek)).elim
  | error e =>
    obtain ⟨a, hslen, hread, rfl⟩ := peekBits_refused hpeek
    exact ⟨a, hread, hslen, exec_rbits_refused hfault hmode hn hpeek⟩

end Sys2Proof.Machine
end

section
/-! The decoder of command words and its encoder (30_encoding.md R90 to R94). -/

namespace Sys2Proof.Machine

section
variable {op : BitVec 8} {w : CommandWord}

/-! ## The fields of a word -/

theorem toNat_commandWord (op a : BitVec 8) (imm : BitVec 32) :
    (commandWord op a imm).toNat = op.toNat * 2 ^ 40 + a.toNat * 2 ^ 32 + imm.toNat := by
  rw [commandWord, BitVec.toNat_append, BitVec.toNat_append, ← Nat.shiftLeft_add_eq_or_of_lt imm.isLt,
    ← Nat.shiftLeft_add_eq_or_of_lt a.isLt, Nat.shiftLeft_eq, Nat.shiftLeft_eq]
  omega

theorem commandOp_commandWord (op a : BitVec 8) (imm : BitVec 32) : commandOp (commandWord op a imm) = op := by
  apply BitVec.eq_of_toNat_eq
  rw [commandOp, BitVec.extractLsb'_toNat, toNat_commandWord, Nat.shiftRight_eq_div_pow]
  omega

theorem commandA_commandWord (op a : BitVec 8) (imm : BitVec 32) : commandA (commandWord op a imm) = a := by
  apply BitVec.eq_of_toNat_eq
  rw [commandA, BitVec.extractLsb'_toNat, toNat_commandWord, Nat.shiftRight_eq_div_pow]
  omega

theorem commandImm_commandWord (op a : BitVec 8) (imm : BitVec 32) : commandImm (commandWord op a imm) = imm := by
  apply BitVec.eq_of_toNat_eq
  rw [commandImm, BitVec.extractLsb'_toNat, toNat_commandWord, Nat.shiftRight_eq_div_pow]
  omega

theorem commandWord_fields (w : CommandWord) : commandWord (commandOp w) (commandA w) (commandImm w) = w := by
  apply BitVec.eq_of_toNat_eq
  rw [toNat_commandWord, ← commandWord_toNat]

theorem decodeCommand_commandWord (op a : BitVec 8) (imm : BitVec 32) :
    decodeCommand (commandWord op a imm) = decodeFields op a imm := by
  rw [decodeCommand, commandOp_commandWord, commandA_commandWord, commandImm_commandWord]

/-! ## Legal words -/

/-- The formats: Z, R or N, and the two rows that use both fields (R90, R91). -/
theorem legalOps_cases (h : op ∈ legalOps) :
    op ∈ formatZOps ∨ (op = 0x03 ∨ op = 0x14) ∨ (op = 0x02 ∨ op = 0x11) := by
  simp only [legalOps, formatZOps, List.mem_cons, List.not_mem_nil, or_false] at h ⊢
  tauto

/-- A word that is not illegal is the encoding of a command (R91, R92). -/
theorem decodeCommand_legal (h : ¬ illegalWord w) : ∃ i, decodeCommand w = .ok i ∧ encode i = .command w := by
  suffices hfields : ∃ i, decodeFields (commandOp w) (commandA w) (commandImm w) = .ok i ∧
      encode i = .command (commandWord (commandOp w) (commandA w) (commandImm w)) by
    rwa [commandWord_fields] at hfields
  simp only [illegalWord, not_or, not_and, ne_eq, not_not] at h
  obtain ⟨hlisted, hzero, hzeroImm⟩ := h
  rcases legalOps_cases hlisted with hop | hop | hop
  · obtain ⟨ha, himm⟩ := hzero hop
    rw [ha, himm]
    simp only [formatZOps, List.mem_cons, List.not_mem_nil, or_false] at hop
    rcases hop with hop | hop | hop | hop | hop | hop | hop | hop <;> rw [hop] <;> exact ⟨_, rfl, rfl⟩
  · rw [hzeroImm hop]
    rcases hop with hop | hop <;> rw [hop] <;> exact ⟨_, rfl, rfl⟩
  · rcases hop with hop | hop <;> rw [hop] <;> exact ⟨_, rfl, rfl⟩

end

/-- Settles O3: a word that decodes is legal, and a legal word decodes to the command that it encodes. -/
theorem commandWordIsItsEncoding : Obligations.CommandWordIsItsEncoding := by
  intro w i h
  have hlegal : ¬ illegalWord w := fun hillegal => by
    obtain ⟨e, he⟩ := decodeCommand_illegal hillegal
    cases he.symm.trans h
  obtain ⟨j, hj, hencode⟩ := decodeCommand_legal hlegal
  obtain rfl := Except.ok.inj (hj.symm.trans h)
  exact hencode

/-- Settles O4: each illegal word is rejected, and each legal one decodes. -/
theorem rejectedWordsAreTheIllegalOnes : Obligations.RejectedWordsAreTheIllegalOnes := by
  refine fun w => ⟨fun ⟨e, he⟩ => ?_, decodeCommand_illegal⟩
  by_contra hlegal
  obtain ⟨i, hi, -⟩ := decodeCommand_legal hlegal
  cases hi.symm.trans he

end Sys2Proof.Machine
end

section
/-! The decoder of stream elements and its encoder: each gives back what the other took (30_encoding.md R98, R99, R102,
R108). -/

namespace Sys2Proof.Machine

section
variable {n c k v : Nat} {bs : List Bool} {el : StreamElement}

theorem countOk_iff : countOk n = true ↔ 1 ≤ n ∧ n ≤ 127 := by
  rw [countOk, Bool.and_eq_true, decide_eq_true_eq, decide_eq_true_eq]

/-! ## Decoding of an encoding -/

theorem takeField_of_lt (hv : v < 2 ^ n) (bs : List Bool) : takeField n 0 (toBits n v ++ bs) = some (v, bs) := by
  rw [takeField_toBits, Nat.zero_mul, Nat.zero_add, Nat.mod_eq_of_lt hv]

theorem decodeHeader_bits (a : BitVec 2) (b : BitVec 16) (bs : List Bool) :
    decodeHeader (toBits 2 a.toNat ++ (toBits 16 b.toNat ++ bs)) = .ok (.hdr a b, bs) := by
  simp only [decodeHeader, takeField_of_lt a.isLt, takeField_of_lt b.isLt, BitVec.ofNat_toNat, BitVec.setWidth_eq]

theorem decodeToken_endBits (bs : List Bool) : decodeToken (toBits 7 0 ++ bs) = .ok (.endMark, bs) := by
  simp only [decodeToken, takeField_of_lt (show 0 < 2 ^ 7 by decide), if_true]

/-- Behind its count and its code a token is its values (R99). -/
theorem decodeToken_headBits (hn : countOk n = true) (hc : c < 8) (bs : List Bool) :
    decodeToken (toBits 7 n ++ (toBits 3 c ++ bs)) = Sys2Proof.decodeRun n c bs := by
  obtain ⟨hlow, hhigh⟩ := countOk_iff.mp hn
  have hne : n ≠ 0 := by omega
  simp only [decodeToken, takeField_of_lt (show n < 2 ^ 7 by omega), takeField_of_lt (show c < 2 ^ 3 from hc), hne,
    if_false]

theorem decodeToken_runBits (values : List (BitVec k)) {run : List (BitVec k) → StreamElement} (hcode : code k < 8)
    (hrun : ∀ n bs, Sys2Proof.decodeRun n (code k) bs = decodeValues n bs run)
    (hcount : countOk values.length = true) : decodeToken (runBits (code k) values) = .ok (run values, []) := by
  have hvalues := takeFields_fieldBits values []
  rw [List.append_nil] at hvalues
  rw [runBits, List.append_assoc, decodeToken_headBits hcount hcode, hrun, decodeValues, hvalues]

/-- A stream element and nothing after it. -/
theorem decode_token (hdecode : decodeToken bs = .ok (el, [])) : decode (.token bs) = .ok el.toInstr := by
  rw [decode, hdecode, wholeElement]

end

/-- Settles O2: a command word by its three fields, a stream element by its fields in order. -/
theorem decodeOfEncode : Obligations.DecodeOfEncode := by
  intro i hwf
  cases i with
  | reset | wreg _ _ | rreg _ | winit | wbits _ _ | wflush | rinit | rbits _ | deint | int | enc | dec =>
    exact decodeCommand_commandWord _ _ _
  | hdr a b =>
    have hheader := decodeHeader_bits a b []
    rw [List.append_nil] at hheader
    exact congrArg wholeElement hheader
  | endMark => exact decode_token (decodeToken_endBits [])
  | runW0 count =>
    have hrun : Sys2Proof.decodeRun count.toNat 0 [] = .ok (.runW0 count, []) := by
      rw [Sys2Proof.decodeRun, BitVec.ofNat_toNat, BitVec.setWidth_eq]
    exact decode_token ((decodeToken_headBits hwf (by decide) []).trans hrun)
  | runW2 values | runW3 values | runW4 values | runW5 values | runW6 values | runW7 values | runW8 values =>
    exact decode_token (decodeToken_runBits values (by decide) (fun _ _ => rfl) hwf)

/-- Settles O1, each word by running the decoder on it. -/
theorem sampleWordsDecode : Obligations.SampleWordsDecode := by
  unfold Obligations.SampleWordsDecode
  decide

end Sys2Proof.Machine
end

section
/-! The bits of a stream element that has been decoded are its encoding (30_encoding.md R98, R99, R108). -/

namespace Sys2Proof.Machine

/-- The bits begin with the encoding of a token or of the END, behind which `rest` is left. -/
def IsTokenOf (el : StreamElement) (bits rest : List Bool) : Prop :=
  ∃ code, wellFormed el.toInstr = true ∧ encode el.toInstr = .token code ∧ bits = code ++ rest

section
variable {n c k v : Nat} {bs rest : List Bool} {el : StreamElement}

/-! ## Fields -/

theorem takeField_eq_some (h : takeField n 0 bs = some (v, rest)) : v < 2 ^ n ∧ bs = toBits n v ++ rest := by
  obtain ⟨rfl, hn⟩ := takeField_rest h
  have hlength : (bs.take n).length = n := List.length_take_of_le hn
  have hlt : ofBits (bs.take n) < 2 ^ n := (ofBits_lt _).trans_eq (congrArg (2 ^ ·) hlength)
  have hbits : bs = toBits n (ofBits (bs.take n)) ++ bs.drop n := by
    rw [toBits_ofBits hlength, List.take_append_drop]
  have htake : takeField n 0 bs = some (ofBits (bs.take n), bs.drop n) :=
    (congrArg (takeField n 0) hbits).trans (takeField_of_lt hlt _)
  obtain ⟨rfl, -⟩ := Prod.mk.inj (Option.some.inj (htake.symm.trans h))
  exact ⟨hlt, hbits⟩

theorem takeFields_eq_some {values : List (BitVec k)} (h : takeFields k n bs = some (values, rest)) :
    values.length = n ∧ bs = fieldBits values ++ rest := by
  induction n generalizing bs values rest with
  | zero =>
    obtain ⟨rfl, rfl⟩ := Prod.mk.inj (Option.some.inj h)
    exact ⟨rfl, rfl⟩
  | succ n ih =>
    rw [takeFields] at h
    split at h
    · cases h
    · next u bs' hfirst =>
      split at h
      · cases h
      · next us bs'' hrest =>
        obtain ⟨hlt, rfl⟩ := takeField_eq_some hfirst
        obtain ⟨rfl, rfl⟩ := ih hrest
        obtain ⟨rfl, rfl⟩ := Prod.mk.inj (Option.some.inj h)
        refine ⟨rfl, ?_⟩
        rw [fieldBits, BitVec.toNat_ofNat, Nat.mod_eq_of_lt hlt, List.append_assoc]

/-! ## Elements -/

theorem decodeHeader_eq_ok (h : decodeHeader bs = .ok (el, rest)) :
    ∃ a b, el = .hdr a b ∧ bs = toBits 2 a.toNat ++ toBits 16 b.toNat ++ rest := by
  unfold decodeHeader at h
  split at h
  · cases h
  · next a bs' hskip =>
    split at h
    · cases h
    · next b bs'' hstrip =>
      obtain ⟨ha, rfl⟩ := takeField_eq_some hskip
      obtain ⟨hb, rfl⟩ := takeField_eq_some hstrip
      obtain ⟨rfl, rfl⟩ := Prod.mk.inj (Except.ok.inj h)
      refine ⟨_, _, rfl, ?_⟩
      rw [BitVec.toNat_ofNat, BitVec.toNat_ofNat, Nat.mod_eq_of_lt ha, Nat.mod_eq_of_lt hb, List.append_assoc]

theorem decodeValues_isTokenOf {run : List (BitVec k) → StreamElement} (hn : countOk n = true)
    (hwf : ∀ values, wellFormed (run values).toInstr = countOk values.length)
    (hencode : ∀ values, encode (run values).toInstr = .token (runBits c values))
    (h : decodeValues n bs run = .ok (el, rest)) : IsTokenOf el (toBits 7 n ++ toBits 3 c ++ bs) rest := by
  unfold decodeValues at h
  split at h
  · cases h
  · next values bs' hvalues =>
    obtain ⟨rfl, rfl⟩ := takeFields_eq_some hvalues
    obtain ⟨rfl, rfl⟩ := Prod.mk.inj (Except.ok.inj h)
    exact ⟨_, (hwf values).trans hn, hencode values, (List.append_assoc _ _ _).symm⟩

theorem decodeRun_isTokenOf (hn : countOk n = true) (hc : c < 8)
    (h : Sys2Proof.decodeRun n c bs = .ok (el, rest)) : IsTokenOf el (toBits 7 n ++ toBits 3 c ++ bs) rest := by
  match c, hc with
  | 0, _ =>
    obtain ⟨rfl, rfl⟩ := Prod.mk.inj (Except.ok.inj h)
    have hcount : (BitVec.ofNat 7 n).toNat = n := Nat.mod_eq_of_lt ((countOk_iff.mp hn).2.trans_lt (by decide))
    refine ⟨toBits 7 n ++ toBits 3 0, ?_, ?_, rfl⟩
    · rw [StreamElement.toInstr, wellFormed, hcount, hn]
    · rw [StreamElement.toInstr, encode, hcount]
  | 1, _ | 2, _ | 3, _ | 4, _ | 5, _ | 6, _ | 7, _ =>
    exact decodeValues_isTokenOf hn (fun _ => rfl) (fun _ => rfl) h

theorem decodeToken_isTokenOf (h : decodeToken bs = .ok (el, rest)) : IsTokenOf el bs rest := by
  unfold decodeToken at h
  split at h
  · cases h
  · next count bs' hcount =>
    obtain ⟨hlt, rfl⟩ := takeField_eq_some hcount
    split at h
    · next hzero =>
      obtain ⟨rfl, rfl⟩ := Prod.mk.inj (Except.ok.inj h)
      exact ⟨_, rfl, rfl, by rw [hzero]⟩
    · next hne =>
      split at h
      · cases h
      · next form bs'' hform =>
        obtain ⟨hlast, rfl⟩ := takeField_eq_some hform
        rw [← List.append_assoc]
        exact decodeRun_isTokenOf (countOk_iff.mpr (by omega)) hlast h

end

end Sys2Proof.Machine
end

section
/-! The instruction that `withFetchWord` places, and the step that takes it (log 6, log 11). -/

namespace Sys2Proof.Machine

/-! ## A command word -/

/-- Settles O7: the host's action is the command, and its word is accepted. -/
theorem stepRunsIssuedCommand : Obligations.StepRunsIssuedCommand := by
  intro s w rest i hphase hinputs hdecode
  rw [step_takes hphase hinputs, hostAction, acceptCommand, hdecode]
  rfl

/-! ## Bits packed into bytes -/

section
variable {s : State} {n j k : Nat} {bs rest : List Bool} {el : StreamElement} {i : Instr}

/-- The byte at the front: eight bits, with zeros for those that are not there. -/
theorem packedByte_getLsbD (bs : List Bool) (hj : j < 8) :
    (BitVec.ofNat 8 (ofBits ((bs ++ List.replicate 8 false).take 8))).getLsbD (7 - j) = bs.getD j false := by
  have hlength : ((bs ++ List.replicate 8 false).take 8).length = 8 := by
    rw [List.length_take_of_le]
    rw [List.length_append, List.length_replicate]
    omega
  rw [BitVec.getLsbD_ofNat, decide_eq_true (show 7 - j < 8 by omega), Bool.true_and,
    show 7 - j = 8 - 1 - j by omega, ofBits_testBit hlength (hlength.symm ▸ hj), List.getElem_take]
  by_cases hbs : j < bs.length
  · rw [List.getElem_append_left hbs, List.getD_eq_getElem _ _ hbs]
  · rw [List.getElem_append_right (Nat.not_lt.mp hbs), List.getElem_replicate,
      List.getD_eq_default _ _ (Nat.not_lt.mp hbs)]

theorem packBytes_bit (hk : k < 8 * n) :
    ∃ b, (packBytes n bs)[k / 8]? = some b ∧ b.getLsbD (7 - k % 8) = bs.getD k false := by
  induction n generalizing bs k with
  | zero => exact absurd hk (Nat.not_lt_zero k)
  | succ n ih =>
    by_cases hfirst : k < 8
    · rw [Nat.div_eq_of_lt hfirst, Nat.mod_eq_of_lt hfirst, packBytes]
      exact ⟨_, rfl, packedByte_getLsbD bs hfirst⟩
    · obtain ⟨m, rfl⟩ := Nat.exists_eq_add_of_le' (Nat.not_lt.mp hfirst)
      obtain ⟨b, hbyte, hbit⟩ := ih (bs := bs.drop 8) (k := m) (by omega)
      rw [List.getD_eq_getElem?_getD, List.getElem?_drop, Nat.add_comm 8, ← List.getD_eq_getElem?_getD] at hbit
      rw [Nat.add_div_right m (by decide), Nat.add_mod_right, packBytes, List.getElem?_cons_succ]
      exact ⟨b, hbyte, hbit⟩

/-! ## A stream element -/

theorem withElement_slen (s : State) (phase : Phase) (bs : List Bool) :
    (s.withElement phase bs).slen.toNat = longestTokenBytes := rfl

theorem withElement_stream (s : State) (phase : Phase) (bs : List Bool) :
    (s.withElement phase bs).stream = s.stream.writeAll 0 (packBytes longestTokenBytes bs) := by
  simp only [State.withElement]

theorem withElement_sbit (s : State) (phase : Phase) (bs : List Bool) (hk : k < 8 * longestTokenBytes) :
    sbit (s.withElement phase bs) k = .ok (bs.getD k false) := by
  obtain ⟨b, hbyte, hbit⟩ := packBytes_bit (bs := bs) hk
  obtain ⟨hlength, hb⟩ := List.getElem?_eq_some_iff.mp hbyte
  have hread : (s.withElement phase bs).stream.read (k / 8) = some b := by
    rw [withElement_stream, ← hb, ← Memory.read_writeAll_same (m := s.stream) (a := 0) hlength, Nat.zero_add]
  rw [sbit_below ((withElement_slen s phase bs).symm ▸ hk) hread, hbit]

/-- An element at the front of the placed bits lies in the stream. -/
theorem withElement_streamHolds (s : State) (phase : Phase) {code : List Bool} (rest : List Bool)
    (hlength : code.length ≤ longestToken) : streamHolds (s.withElement phase (code ++ rest)) 0 code := by
  intro j hj
  have hinside : 0 + j < 8 * longestTokenBytes := by
    rw [longestToken] at hlength
    rw [longestTokenBytes]
    omega
  rw [withElement_sbit s phase _ hinside, Nat.zero_add,
    List.getD_eq_getElem _ _ (by rw [List.length_append]; omega), List.getElem_append_left hj]

/-- What DEC reads of an element comes first in it. -/
theorem streamHolds_bitsReached {p : Nat} (h : streamHolds s p bs) : streamHolds s p (bitsReached s i bs) := by
  unfold bitsReached
  split
  · next width values hfields =>
    rw [← List.take_append_drop (10 + width * min values.length (s.cfg.dataBytes - s.dec.n + 1)) bs] at h
    exact (streamHolds_append h).1
  · exact h

/-- A token fits in the bytes that are placed (R106). -/
theorem length_le_longestToken {code : List Bool} (hwf : wellFormed i = true) (hencode : encode i = .token code) :
    code.length ≤ longestToken := by
  suffices hlength : Laws.CodeLength.Statement i by
    obtain ⟨hbits, hlongest⟩ := hlength
    rw [hencode] at hbits
    exact hbits.trans_le (hlongest hwf)
  cases i with
  | endMark => exact Laws.CodeLength.endMark
  | runW0 count => exact Laws.CodeLength.runW0 count
  | runW2 values => exact Laws.CodeLength.runW2 values
  | runW3 values => exact Laws.CodeLength.runW3 values
  | runW4 values => exact Laws.CodeLength.runW4 values
  | runW5 values => exact Laws.CodeLength.runW5 values
  | runW6 values => exact Laws.CodeLength.runW6 values
  | runW7 values => exact Laws.CodeLength.runW7 values
  | runW8 values => exact Laws.CodeLength.runW8 values
  | _ => cases hencode

theorem step_withElement_token (h : decodeToken bs = .ok (el, rest)) :
    step (s.withElement .tokens bs) = exec el.toInstr (s.withElement .tokens bs) := by
  obtain ⟨code, hwf, hencode, rfl⟩ := decodeToken_isTokenOf h
  exact stepRunsStreamElement _ _ code hwf (.inr ⟨rfl, hencode⟩)
    (streamHolds_bitsReached (withElement_streamHolds s .tokens rest (length_le_longestToken hwf hencode)))

theorem step_withElement_header (h : decodeHeader bs = .ok (el, rest)) :
    step (s.withElement .header bs) = exec el.toInstr (s.withElement .header bs) := by
  obtain ⟨a, b, rfl, rfl⟩ := decodeHeader_eq_ok h
  have hlength : (toBits 2 a.toNat ++ toBits 16 b.toNat).length ≤ longestToken := by
    rw [List.length_append, toBits_length, toBits_length]
    decide
  exact stepRunsStreamElement _ _ _ rfl (.inl ⟨rfl, rfl⟩)
    (streamHolds_bitsReached (withElement_streamHolds s .header rest hlength))

theorem elementInstr_eq_some {r : Except DecodeError (StreamElement × List Bool)} (h : elementInstr r = some i) :
    ∃ el rest, r = .ok (el, rest) ∧ el.toInstr = i := by
  unfold elementInstr at h
  split at h
  · cases h
  · next el rest => exact ⟨el, rest, rfl, Option.some.inj h⟩

end

/-- Settles O9: a command word by the step that takes it, a stream element by the step that reads it. -/
theorem placedWordRunsNext : Obligations.PlacedWordRunsNext := by
  intro s nbits w i h
  refine ⟨?_, fun hstream => ?_⟩
  · rintro rfl
    rw [decodeTableWord, if_pos rfl] at h
    split at h
    · cases h
    · next j hdecode =>
      obtain rfl := Option.some.inj h
      exact stepRunsIssuedCommand _ _ s.inputs j rfl rfl hdecode
  · have hcommand : nbits ≠ 48 := by omega
    rw [State.withFetchWord, placeTableWord, if_neg hcommand]
    rw [decodeTableWord, if_neg hcommand, if_pos hstream] at h
    split at h
    · next htoken =>
      obtain ⟨el, rest, hdecode, rfl⟩ := elementInstr_eq_some h
      rw [if_pos htoken]
      exact step_withElement_token hdecode
    · next htoken =>
      obtain ⟨el, rest, hdecode, rfl⟩ := elementInstr_eq_some h
      rw [if_neg htoken]
      exact step_withElement_header hdecode

end Sys2Proof.Machine
end

section
/-! The minimum width of a residual (30_encoding.md R100). -/

namespace Sys2Proof.Machine

section
variable {b c k : Nat} {v : Int}

/-! ## The forms of a width -/

theorem fits_zero_iff : fits 0 v = true ↔ v = 0 := by
  have hbias : bias 0 = 0 := rfl
  rw [fits_iff, hbias, Nat.pow_zero]
  omega

theorem fits_succ_iff : fits (b + 1) v = true ↔ -(2 ^ b) ≤ v ∧ v < 2 ^ b := by
  have hbias : bias (b + 1) = 2 ^ b := by rw [bias, Nat.pow_succ, Nat.mul_div_cancel _ (by decide)]
  have hpow : (2 : Int) ^ b = ((2 ^ b : Nat) : Int) := (Nat.cast_pow 2 b).symm
  rw [fits_iff, hbias, Nat.pow_succ, hpow]
  omega

theorem fits_iff_of_pos (hb : 1 ≤ b) : fits b v = true ↔ -(2 ^ (b - 1)) ≤ v ∧ v < 2 ^ (b - 1) := by
  obtain ⟨c, rfl⟩ := Nat.exists_eq_add_of_le' hb
  exact fits_succ_iff

/-! ## The search -/

/-- The search passes over a width only where the value does not fit. -/
theorem fits_of_lt_leastWidth (hlow : b ≤ c) (hhigh : c < leastWidth v k b) : fits c v = false := by
  induction k generalizing b with
  | zero => exact absurd hhigh (Nat.not_lt.mpr hlow)
  | succ k ih =>
    rw [leastWidth] at hhigh
    split at hhigh
    · exact absurd hhigh (Nat.not_lt.mpr hlow)
    · next hfits =>
      rcases hlow.eq_or_lt with rfl | hlow
      · exact Bool.eq_false_of_not_eq_true hfits
      · exact ih hlow hhigh

theorem fits_of_lt_width (h : b < width v) : fits b v = false := fits_of_lt_leastWidth (Nat.zero_le b) h

theorem width_pos (hv : v ≠ 0) (hfits : fits (width v) v = true) : 1 ≤ width v := by
  rw [Nat.one_le_iff_ne_zero]
  intro hzero
  rw [hzero, fits_zero_iff] at hfits
  exact hv hfits

/-- A positive width below the minimum has no form for the value. -/
theorem out_of_range_of_lt_width (hb : 1 ≤ b) (h : b < width v) : ¬(-(2 ^ (b - 1)) ≤ v ∧ v < 2 ^ (b - 1)) := by
  rw [← fits_iff_of_pos hb, fits_of_lt_width h]
  exact Bool.false_ne_true

end

/-- Settles O5: the search ends at the first width that fits, and what fits a positive width is a range. -/
theorem widthIsTheSmallestThatFits : Obligations.WidthIsTheSmallestThatFits := by
  intro v hlow hhigh
  have hfits := fits_width hlow hhigh
  refine ⟨leastWidth_le v 8 0, hfits, fun b => fits_of_lt_width, ?_, fun hv => ?_, fun hv => ?_⟩
  · rintro rfl
    rfl
  · have hpos := width_pos hv.ne hfits
    obtain ⟨hrange, -⟩ := (fits_iff_of_pos hpos).mp hfits
    refine ⟨hpos, by omega, fun b hb hlt => ?_⟩
    have hout := out_of_range_of_lt_width hb hlt
    have hpow : (0 : Int) < 2 ^ (b - 1) := by positivity
    omega
  · have hpos := width_pos hv.ne' hfits
    obtain ⟨-, hrange⟩ := (fits_iff_of_pos hpos).mp hfits
    refine ⟨hpos, hrange, fun b hb hlt => ?_⟩
    have hout := out_of_range_of_lt_width hb hlt
    have hpow : (0 : Int) < 2 ^ (b - 1) := by positivity
    omega

end Sys2Proof.Machine
end

section
/-! HDR and END as instructions (43_decode.md R221, R222, R227, R238; log 10). -/

namespace Sys2Proof.Machine

section
variable {s : State}

/-- A header inside the stream (R221, R222). -/
theorem execHdr_inside (hunder : s.underrun = false) (hinside : s.rpos + 18 ≤ 8 * s.slen.toNat) (a : BitVec 2)
    (b : BitVec 16) : execHdr a b s = .next (({ s with rpos := s.rpos + 18 } : State).openTokens a b) := by
  have hskip : consume 2 s = { s with rpos := s.rpos + 2 } := consume_inside hunder (by omega)
  have hstrip : checkUnderrun (consume 16 { s with rpos := s.rpos + 2 }) = .ok { s with rpos := s.rpos + 18 } :=
    checkedRead_inside hunder (show s.rpos + 2 + 16 ≤ 8 * s.slen.toNat by omega)
  rw [execHdr, hskip, hstrip, Res.ok_andThen, Res.ok_answer]

end

/-- Settles O44: the two fields are read, and then the underrun is checked. -/
theorem hdrSetsTheParameters : Obligations.HdrSetsTheParameters := by
  intro s a b
  refine ⟨fun hunder hinside => execHdr_inside hunder hinside a b, fun hfault hbeyond => ?_⟩
  rw [exec, execHdr_truncated hbeyond, raise_decoder hfault rfl]
  rfl

/-- Settles O45: a read of seven bits sets `UNDERRUN` where it passes the end, and END makes no check. -/
theorem endEndsTheLoop : Obligations.EndEndsTheLoop := by
  intro s
  have hunder : runsOff s.rpos 7 s.slen.toNat = decide (8 * s.slen.toNat < s.rpos + 7) := Bool.true_and _
  rw [← hunder]
  rfl

end Sys2Proof.Machine
end

section
/-! The response port after every instruction (30_encoding.md R93). -/

namespace Sys2Proof.Machine

section
variable {s t : State}

/-- The port is not written at a line of a running command. -/
theorem State.Leads.responses (h : s.Leads t) : t.responses = s.responses := (congrArg State.responses h.fixed :)

theorem State.RaisedFrom.responses {site : RaisedIn} (h : s.RaisedFrom site t) : t.responses = s.responses := by
  obtain ⟨c, u, hu, rfl⟩ := h
  exact (u.raise_responses c site).trans hu.responses

theorem State.CommandEnds.responses {done : Prop} (h : s.CommandEnds t done)
    (hdone : done → t.responses = s.responses) : t.responses = s.responses := by
  cases h with
  | dropped hfault ht => rw [ht]
  | raised hfault site hraised => exact hraised.responses
  | completed hfault h => exact hdone h

theorem responses_of_leads {site : RaisedIn} (h : s.Leads t ∨ s.RaisedFrom site t) : t.responses = s.responses :=
  h.elim State.Leads.responses State.RaisedFrom.responses

theorem State.RegWritten.responses (h : s.RegWritten t) : t.responses = s.responses := by
  cases h <;> subst t <;> rfl

end

/-- Settles O57, instruction by instruction: a command by its ends, a stream element by its lines. -/
theorem onlyReadsRespond : Obligations.OnlyReadsRespond := by
  intro i s t h
  cases i with
  | reset =>
    obtain rfl := Host.Outcome.next.inj h
    exact .inl rfl
  | rreg r =>
    rcases execRreg_next h with ⟨v, rfl⟩ | hraised
    · exact .inr ⟨.inl ⟨r, rfl⟩, rfl, v, rfl⟩
    · exact .inl hraised.responses
  | rbits n =>
    cases execRbits_ends h with
    | dropped hfault ht => exact .inl (ht ▸ rfl)
    | raised hfault site hraised => exact .inl hraised.responses
    | completed hfault hdone =>
      obtain ⟨-, bs, -, rfl⟩ := hdone
      exact .inr ⟨.inr ⟨n, rfl⟩, rfl, _, rfl⟩
  | wreg reg imm => exact .inl ((execWreg_ends h).responses State.RegWritten.responses)
  | winit => exact .inl ((execWinit_ends h).responses fun ht => ht ▸ rfl)
  | rinit => exact .inl ((execRinit_ends h).responses fun ht => ht ▸ rfl)
  | wbits n imm =>
    refine .inl ((execWbits_ends h).responses fun ⟨_, _, hw⟩ => ?_)
    exact (congrArg State.responses (bsWrite_frame hw) :)
  | wflush =>
    refine .inl ((execWflush_ends h).responses fun ⟨_, u, hu, ht⟩ => ?_)
    exact ht ▸ (congrArg State.responses (bsFlush_frame hu) :)
  | deint => exact .inl ((execDeint_ends h).responses fun ⟨ht, _⟩ => (congrArg State.responses ht.frame :))
  | int => exact .inl ((execInt_ends h).responses fun ⟨ht, _⟩ => (congrArg State.responses ht.frame :))
  | enc =>
    refine .inl ((execEnc_ends h).responses fun ⟨u, v, hu, _, hv, ht⟩ => ?_)
    have hflush : v.responses = u.responses := (congrArg State.responses (bsFlush_frame hv) :)
    exact ht ▸ hflush.trans hu.responses
  | dec => exact .inl ((execDec_ends h).responses fun ⟨u, hu, ht⟩ => ht ▸ hu.responses)
  | hdr _ _ => exact .inl (responses_of_leads ((execHdr_next h).imp_left And.left))
  | runW0 _ | runW2 _ | runW3 _ | runW4 _ | runW5 _ | runW6 _ | runW7 _ | runW8 _ =>
    exact .inl (responses_of_leads (runToken_leads h))
  | endMark => exact .inl (leads_execEndMark h).1.responses

end Sys2Proof.Machine
end

section
/-! The chunk that ENC writes carries the residuals of the deinterleaved buffer (30_encoding.md R97, 42_encode.md
R193). -/

namespace Sys2Proof.Machine

theorem Residuals.resid {m : Memory} {t q i : Nat} {rs : List Int} {r : Int} (h : Residuals m t q rs)
    (hi : rs[i]? = some r) : resid m (q + i) t = .ok r := by
  induction rs generalizing q i with
  | nil => cases hi
  | cons x rs ih =>
    obtain ⟨hx, hrest⟩ := h
    cases i with
    | zero =>
      obtain rfl := Option.some.inj hi
      exact hx
    | succ i =>
      rw [List.getElem?_cons_succ] at hi
      rw [Nat.add_comm i, ← Nat.add_assoc]
      exact ih hrest hi

/-- Settles O41: the runs that ENC has emitted, each with its width. -/
theorem encWritesTheResiduals : Obligations.EncWritesTheResiduals := by
  intro s t u hfault henc htfault hu
  rcases exec_enc_next hfault henc with ⟨d, hd, ht⟩ | ⟨c, x, site, -, rfl⟩
  · obtain rfl := Res.ok.inj (hd.symm.trans hu)
    obtain ⟨runs, hruns⟩ := encodeRest_encodedRuns ht
    have hvalues : (runs.map fun run => (runWidth run, run)).map (fun run => run.2) = runs := by
      rw [List.map_map]
      exact List.map_id runs
    have htokens : (runs.map fun run => (runWidth run, run)).map
        (fun run => (run.1, run.2.map fun r => (r + (bias run.1 : Int)).toNat)) = runs.map residualToken :=
      List.map_map
    refine ⟨runs.map fun run => (runWidth run, run), ?_, ?_, ?_, ?_⟩
    · intro run hrun
      obtain ⟨values, hmem, rfl⟩ := List.mem_map.mp hrun
      obtain ⟨hlow, hhigh⟩ := hruns.counts values hmem
      exact ⟨hlow, hhigh, rfl⟩
    · rw [hvalues]
      exact hruns.length
    · intro i r hi
      rw [hvalues] at hi
      have hresid := hruns.residuals.resid hi
      rwa [Nat.zero_add] at hresid
    · dsimp only
      rw [htokens, hruns.chunk.bitlen]
      exact ⟨rfl, hruns.chunk.slen, fun k _ => hruns.chunk.sbit k⟩
  · rw [State.raise_fault] at htfault
    cases htfault

end Sys2Proof.Machine
end

section
/-! DEC of any sequence of tokens up to the END (43_decode.md R220 to R228), with scratch for the re-interleave or
without (41_transposer.md R163). -/

namespace Sys2Proof.Machine

section
variable {s u : State} {a : BitVec 2} {b : BitVec 16} {p : Nat} {q : List Byte} {toks : List (Nat × List Nat)}

theorem State.Decoding.atFinish_frame (h : s.Decoding a b p q u) :
    u.atFinish = { s with
      skip := a, strip := b, rpos := p + 7, underrun := decide (8 * s.slen.toNat < p + 7), phase := .finish
      data := u.data, dec := u.dec } := by
  have hunder : runsOff p 7 s.slen.toNat = decide (8 * s.slen.toNat < p + 7) := Bool.true_and _
  rw [← hunder]
  exact congrArg State.atFinish h.frame

/-- Without scratch for the re-interleave DEC faults behind the END (R163, R280, R283). -/
theorem State.Decoding.finish_lacks_scratch (h : s.Decoding a b p q u) (hfault : s.fault = false)
    (hlack : ¬ scratchFits s (a.toNat + 1) q.length) :
    finishDecode u.atFinish = .next { faulted s 4 with
      skip := a, strip := b, dlen := 0, data := [], rpos := p + 7
      underrun := decide (8 * s.slen.toNat < p + 7) } := by
  have hframe := h.atFinish_frame
  have hblock : u.atFinish.block = s.block := (congrArg State.block hframe :)
  have hcfg : u.atFinish.cfg = s.cfg := (congrArg State.cfg hframe :)
  have hskip : u.atFinish.dec.hs = a.toNat + 1 := h.skip
  have hcount : u.atFinish.dec.n = q.length := h.count
  rw [scratchFits_iff, not_or, Nat.not_le, Nat.not_le] at hlack
  rw [finishDecode, hskip, hcount, hblock, reint, transpose_lacks_scratch hlack.1 (hcfg ▸ hlack.2),
    Res.raise_andThen, Res.raise_answer]
  exact congrArg Host.Outcome.next
    (raise_decoder (s := { s with skip := a, strip := b }) hfault hframe .allocation)

end

/-- Settles O49: DEC comes to its last lines with the bytes of the list decoder, and re-interleaves them or faults. -/
theorem decDecodesEveryTokenSequence : Obligations.DecDecodesEveryTokenSequence := by
  intro s a b toks hfault hok hbits hinside hroom
  obtain ⟨u, hu, hdec⟩ := exec_dec_tokens hfault hok hbits hinside hroom
  have hlength : (listDecode (b.toNat + 1) toks []).length = tokensCount toks :=
    (listDecode_length _ toks []).trans (Nat.zero_add _)
  rw [hdec, ← hlength]
  refine ⟨fun hfits => ?_, hu.finish_lacks_scratch hfault⟩
  obtain ⟨v, hv, hframe, hcount, hmoved⟩ := hu.finish hfits
  have hdlen : v.endDecode.dlen.toNat = (listDecode (b.toNat + 1) toks []).length := by
    have hcap := s.cfg.dataCap.isLt
    rw [Config.dataBytes] at hroom
    rw [State.endDecode_dlen, hcount, hlength, BitVec.toNat_ofNat, Nat.mod_eq_of_lt (by omega)]
  refine ⟨v.endDecode, hv, ?_, hdlen, fun win hwin j hj => ?_⟩
  · exact congrArg (fun w : State => { commandOver w with
      bsmode := .read, dlen := v.endDecode.dlen, data := v.endDecode.data }) hframe
  · have hend := window_end_le hwin
    rw [State.endDecode_read (by omega)]
    exact hmoved win hwin j hj

end Sys2Proof.Machine
end
